-- ==== Sys2Proof/Word.lean ====
section
/-! DEFINITION. The word types: a register of the window is 32 bits, a sample is 8 bits (00 R7, R8). -/

namespace Sys2Proof

/-- A 32-bit register, command word or bus address (00_scope R8). -/
abbrev Word := BitVec 32

/-- One sample, and one byte of memory: 8 bits unsigned (00_scope R7). -/
abbrev Byte := BitVec 8

end Sys2Proof
end

