-- ==== Sys2Proof/Syntax.lean ====
section
/-! DEFINITION. The commands: one constructor for each row of spec/opcode_table.json. -/

namespace Sys2Proof

/-- The commands of 30_encoding R82. A command names no operand: all its operands are register fields (R80, R87). -/
inductive Instr where
  /-- Sigma filter over the whole image (41_sigma_filter R120). -/
  | sigma
  /-- Fixed-point rotation over the whole image (45_fixed_point_rotation R200). -/
  | rotfx
  /-- One trig-LUT lookup of ANGLE into TRIG_Q (43_trig_lut R166). -/
  | trig
  /-- One bilinear interpolation of BL_SAMPLES by BL_FRAC into BL_RESULT (44_bilinear_interpolator R186). -/
  | bilerp
  /-- A reserved word, with the two fields it was written with: OP and RSVD (30_encoding R81, R85). -/
  | reserved (op : BitVec 4) (rsvd : BitVec 28)
  deriving DecidableEq, Repr

end Sys2Proof
end

