-- ==== Sys2Proof/WellFormed.lean ====
section
/-! DEFINITION. Which terms of Instr stand for a command word. -/

namespace Sys2Proof

/-- The OP values of 30_encoding R82 that select a command the block runs. -/
def legalOp (op : BitVec 4) : Bool :=
  op == 1 || op == 2 || op == 4 || op == 5

/-- A reserved word has RSVD not 0 or an OP that selects nothing (30_encoding R81, R85).
The word with RSVD 0 and a legal OP is that command's own, so `reserved` with those fields stands for no word. -/
def Instr.wellFormed : Instr → Bool
  | .sigma => true
  | .rotfx => true
  | .trig => true
  | .bilerp => true
  | .reserved op rsvd => rsvd != 0 || !legalOp op

end Sys2Proof
end

