-- ==== Sys2Proof/Decode.lean ====
section
/-! DEFINITION. Decoding and encoding of the command word, and the byte lanes of a register word. -/

namespace Sys2Proof

/-- The word whose byte lanes are `b0` (bits 7:0) to `b3` (bits 31:24): little-endian lanes (20_memory R61). -/
def wordOfBytes (b0 b1 b2 b3 : Byte) : Word :=
  b3 ++ b2 ++ b1 ++ b0

/-- The byte lanes of a word, lowest address first (20_memory R61). -/
def bytesOfWord (w : Word) : List Byte :=
  [w.extractLsb' 0 8, w.extractLsb' 8 8, w.extractLsb' 16 8, w.extractLsb' 24 8]

/-- Why bytes are no command. -/
inductive DecodeError where
  /-- Fewer than the four bytes of a command word (30_encoding R86); `got` is how many there were. -/
  | tooShort (got : Nat)
  deriving DecidableEq, Repr

/-- Decode(w) of 30_encoding R83. -/
def decodeWord (w : Word) : Instr :=
  let op : BitVec 4 := w.extractLsb' 0 4
  let rsvd : BitVec 28 := w.extractLsb' 4 28
  if rsvd ≠ 0 then .reserved op rsvd
  else if op = 1 then .sigma
  else if op = 2 then .rotfx
  else if op = 4 then .trig
  else if op = 5 then .bilerp
  else .reserved op rsvd

/-- The command the first four bytes hold, and the bytes after it. Every four bytes are a command word (30_encoding R86). -/
def decode : List Byte → Except DecodeError (Instr × List Byte)
  | b0 :: b1 :: b2 :: b3 :: rest => .ok (decodeWord (wordOfBytes b0 b1 b2 b3), rest)
  | short => .error (.tooShort short.length)

/-- The command word of an instruction: the CMD column of 30_encoding R82, or the two fields of a reserved word (R80). -/
def Instr.word : Instr → Word
  | .sigma => 0x00000001
  | .rotfx => 0x00000002
  | .trig => 0x00000004
  | .bilerp => 0x00000005
  | .reserved op rsvd => rsvd ++ op

/-- The bytes of an instruction as the host's bus carries them to CMD. -/
def encode (i : Instr) : List Byte :=
  bytesOfWord i.word

/-- The instruction the decoder reads from an instruction of `nbits` bits `w`, the bits above them 0. -/
def decodeTableWord (nbits w : Nat) : Option Instr :=
  match decode (bytesOfWord (BitVec.ofNat 32 (w % 2 ^ nbits))) with
  | .ok (i, _) => some i
  | .error _ => none

end Sys2Proof
end

