-- ==== Sys2Proof/Config.lean ====
section
/-! DEFINITION. What a platform fixes (the open parameters of 00_scope R9 and spec/92) and the free values. -/

namespace Sys2Proof

/-- The quantiser the trig LUT applies (43_trig_lut R161). -/
inductive TrigQuant where
  /-- Toward zero: the spec's default. -/
  | trunc
  /-- Toward minus infinity. -/
  | floor
  /-- floor(x + 1/2). -/
  | nearest
  deriving DecidableEq, Repr, Inhabited

/-- The byte addresses from `first` to `last`, both included. -/
structure AddrRange where
  first : Nat
  last : Nat
  deriving DecidableEq, Repr

/-- Whether an address lies in one of some ranges. -/
def inRanges (ranges : List AddrRange) (a : Nat) : Bool :=
  ranges.any fun g => decide (g.first ≤ a ∧ a ≤ g.last)

/-- A platform's choice of the open parameters. It is a field of the state that no step changes, so a statement about
every state holds for every platform. DESIGN CHOICE (log 4): safe. -/
structure Config where
  /-- REG_BASE[31:8]. REG_BASE is a multiple of 256 (00_scope R9). -/
  regPage : BitVec 24
  /-- TRIG_QUANT (43_trig_lut R161). -/
  trigQuant : TrigQuant
  /-- Where the platform answers an access of the block with a bus error: BUS_ERR of 20_memory R79. -/
  busErr : List AddrRange
  /-- Where the platform has no ordinary memory (20_memory R65, 93_implementation_defined U19). -/
  devices : List AddrRange
  deriving DecidableEq, Repr

/-- The defaults of 92_eei_decisions: TRIG_QUANT = TRUNC, BUS_ERR false everywhere. REG_BASE has none: 0 is a DESIGN CHOICE
(log 4), safe. Ordinary memory everywhere is what 20_memory R65 assumes. -/
def Config.default : Config :=
  { regPage := 0, trigQuant := .trunc, busErr := [], devices := [] }

/-- REG_BASE (00_scope R9). -/
def Config.regBase (cfg : Config) : Word :=
  cfg.regPage ++ (0 : BitVec 8)

/-- BUS_ERR(addr) (20_memory R79). -/
def Config.busErrAt (cfg : Config) (a : Nat) : Bool :=
  inRanges cfg.busErr a

/-- Whether there is no ordinary memory behind an address (20_memory R65). -/
def Config.deviceAt (cfg : Config) (a : Nat) : Bool :=
  inRanges cfg.devices a

/-! ## Free values

Each is applied to the state's counter `draws`, which every use advances (log 3). Nothing constrains them. -/

/-- A free choice between an old and a new value (93_implementation_defined U11, U13, U14, U16; log 14). -/
opaque Config.freeBit : Nat → Bool

/-- A free number: WCOUNT after a run-time error (U12), which of the possible faults is reported (U15), and which of its possible
values an output byte reads as (U17). -/
opaque Config.freeNat : Nat → Nat

/-- The contents of HIST[ch][p] after a reset or a command's end (U10): draw, channel, bin. -/
opaque Config.freeCount : Nat → Nat → Nat → Nat

end Sys2Proof
end

