-- ==== Sys2Proof/Machine/State.lean ====
section
/-! DEFINITION. The state of the block and of what stands around it, as plain data, and the state after reset. -/

namespace Sys2Proof.Machine

/-- Memory: the bytes that do not read as `Memory.unlisted`, by address, addresses strictly rising. -/
abbrev Memory := List Host.Cell

/-- HIST[ch][p] (10_state R44). A counter is a natural number: it has at least 32 bits and never overflows (40 R103).
DEDUCED (log 10): safe. -/
abbrev Hist := Vector (Vector Nat 256) 3

/-- The codes of STATUS.ERR (60_exceptions R306). Codes 0x9 to 0xF are never produced (R309), so they have no name. -/
inductive ErrCode where
  | ok
  | illegalOp
  | channels
  | dim
  | trigRange
  | addr
  | overlap
  | bus
  | invariant
  deriving DecidableEq, Repr

/-- The registers of the window that hold something (10_state R20 to R36), field by field. ID is a constant, CTRL.SRST reads 0,
STATUS.BUSY is computed from the phase (R47), and reserved fields read 0 (R37): none of them is stored. -/
structure Regs where
  /-- CTRL.IRQ_EN (R22). -/
  irqEn : Bool
  /-- CTRL.TRIG_SRC (R22): false is the trig LUT, true is TRIG_Q. -/
  trigSrc : Bool
  /-- CMD, all 32 bits as stored (R23, R37). -/
  cmd : Word
  /-- STATUS.DONE (R24). -/
  done : Bool
  /-- STATUS.CMD_OVR (R24). -/
  cmdOvr : Bool
  /-- STATUS.ERR (R24). -/
  err : ErrCode
  /-- SRC_ADDR (R25). -/
  srcAddr : Word
  /-- DST_ADDR (R26). -/
  dstAddr : Word
  /-- DIMS.WIDTH (R27). -/
  width : BitVec 16
  /-- DIMS.HEIGHT (R27). -/
  height : BitVec 16
  /-- CHANNELS.CHANNELS (R28). -/
  channels : BitVec 8
  /-- SIGMA_CFG.SIGMA (R29). -/
  sigma : BitVec 8
  /-- SIGMA_CFG.RADIUS (R29). -/
  radius : BitVec 16
  /-- ANGLE, Q16.16 radians (R30). -/
  angle : Word
  /-- TRIG_Q.COSQ (R31). -/
  cosq : BitVec 16
  /-- TRIG_Q.SINQ (R31). -/
  sinq : BitVec 16
  /-- BL_SAMPLES.S00 (R32). -/
  s00 : Byte
  /-- BL_SAMPLES.S01 (R32). -/
  s01 : Byte
  /-- BL_SAMPLES.S10 (R32). -/
  s10 : Byte
  /-- BL_SAMPLES.S11 (R32). -/
  s11 : Byte
  /-- BL_FRAC.FR (R33). -/
  fr : Byte
  /-- BL_FRAC.FC (R33). -/
  fc : Byte
  /-- BL_RESULT.RESULT (R34). -/
  result : Byte
  /-- WCOUNT (R35). -/
  wcount : Word
  /-- ERR_INFO (R36). -/
  errInfo : Word
  deriving DecidableEq, Repr

/-- The registers' reset values (70_reset_and_hazards R401). -/
def Regs.reset : Regs :=
  { irqEn := false, trigSrc := false, cmd := 0, done := false, cmdOvr := false, err := .ok, srcAddr := 0, dstAddr := 0,
    width := 0, height := 0, channels := 1, sigma := 0, radius := 1, angle := 0, cosq := 256, sinq := 0, s00 := 0, s01 := 0,
    s10 := 0, s11 := 0, fr := 0, fc := 0, result := 0, wcount := 0, errInfo := 0 }

/-- The registers of the window (10_state R20). -/
inductive Reg where
  | id
  | ctrl
  | cmd
  | status
  | srcAddr
  | dstAddr
  | dims
  | channels
  | sigmaCfg
  | angle
  | trigQ
  | blSamples
  | blFrac
  | blResult
  | wcount
  | errInfo
  deriving DecidableEq, Repr

/-- What an image command computes for a pixel, with the operands only it has. -/
inductive Kernel where
  /-- SIGMA with the threshold `sigma` and the radius `k` (41 R120). -/
  | sigma (sigma k : Nat)
  /-- ROTFX with its latched coefficients (10_state R46). `before` is the value TRIG_Q had before the command, where the
  command itself has written TRIG_Q (CTRL.TRIG_SRC = 0; 70 R418). -/
  | rotfx (cq sq : Int) (before : Option Word)
  deriving DecidableEq, Repr

/-- An image command with every parameter as it was when the command started (10_state R40) and the memory as it was then
(20_memory R70). DEDUCED (log 7): safe. -/
structure Job where
  kernel : Kernel
  /-- SRC_ADDR. -/
  src : Nat
  /-- DST_ADDR. -/
  dst : Nat
  /-- W, H and C of 00_scope R14. -/
  w : Nat
  h : Nat
  c : Nat
  /-- Memory at the start of the command. -/
  mem0 : Memory
  deriving DecidableEq, Repr

/-- The sequencer position (10_state R42) and, for SIGMA, the row band of the histogram window (R47, 40 R100). Before the first
HIST_INIT, and all through a ROTFX, the band is 0 and 0: DESIGN CHOICE (log 22), no rule reads it there. -/
structure Pos where
  row : Nat
  col : Nat
  ch : Nat
  r0 : Nat
  r1 : Nat
  deriving DecidableEq, Repr

/-- The block's run state (10_state R47): IDLE, or RUN of one of the four commands. -/
inductive Phase where
  | idle
  /-- RUN(TRIG). -/
  | trig
  /-- RUN(BILERP). -/
  | bilerp
  /-- RUN(SIGMA) or RUN(ROTFX), by the job's kernel, at a sequencer position. -/
  | image (job : Job) (pos : Pos)
  deriving DecidableEq, Repr

/-- What the world outside the block does to it or beside it. -/
inductive Move where
  /-- A host write of `data` to the bus address `addr`, lowest byte first; the access is as wide as `data` is long. -/
  | write (addr : Word) (data : List Byte)
  /-- A host read of `width` bytes at the bus address `addr`. -/
  | read (addr : Word) (width : Nat)
  /-- A write of a memory byte by the host, or by another bus master. -/
  | memWrite (addr : Word) (v : Byte)
  /-- A read of a memory byte by the host. -/
  | memRead (addr : Word)
  /-- The host looks at the level of `irq` (60 R320). -/
  | senseIrq
  /-- The block's reset input is asserted (70 R400). -/
  | hardReset
  deriving DecidableEq, Repr

/-- A move still to come, and how many steps of a running command pass before it lands. -/
structure Pending where
  after : Nat
  move : Move
  deriving DecidableEq, Repr

/-- What a read by the host answers. -/
inductive Answer where
  /-- The bytes of a read of the register window, lowest address first. -/
  | window (data : List Byte)
  /-- A byte of memory. -/
  | memory (v : Byte)
  /-- The level of `irq`. -/
  | irq (level : Bool)
  deriving DecidableEq, Repr

/-- The machine's state. INVENTORY.md lists every field with the rule of spec/ that names it. -/
structure State where
  /-- The platform's parameters. No step changes them. -/
  cfg : Config
  /-- The registers of the window. -/
  regs : Regs
  /-- The run state with the sequencer (10_state R42, R46, R47). -/
  phase : Phase
  /-- The histogram store (10_state R44). -/
  hist : Hist
  /-- The memory space (20_memory R60). -/
  mem : Memory
  /-- The image commands started since the host last observed DONE = 1 (20_memory R71), newest first. The model's own field
  (log 8). -/
  watch : List Job
  /-- The moves still to come, oldest first. The model's own field (log 6). -/
  inbox : List Pending
  /-- The answers to the host's reads, oldest first. The model's own field (log 6). -/
  outbox : List Answer
  /-- The counter behind the free values. The model's own field (log 3). -/
  draws : Nat
  deriving DecidableEq, Repr

/-- The machine right after reset on the platform `cfg`: the registers of 70 R401, IDLE (R400), no memory byte listed.
The histogram store is unspecified there (10_state R44): 0 is a DESIGN CHOICE (log 2), unsafe, and no rule reads it. -/
def State.resetOn (cfg : Config) : State :=
  { cfg := cfg, regs := Regs.reset, phase := .idle, hist := Vector.replicate 3 (Vector.replicate 256 0), mem := [],
    watch := [], inbox := [], outbox := [], draws := 0 }

/-- The machine right after reset, with the default parameters of 92_eei_decisions. -/
def State.reset : State :=
  State.resetOn Config.default

/-- Why the machine stops with a fault. -/
inductive Fault where
  /-- Raised by the block's step (`blockStep`) when a running image command is one the start checks of 60 R305 never admit, or
  its sequencer stands outside the image: a state no run reaches. Safe: the machine stops where the spec says nothing. -/
  | brokenRun
  deriving DecidableEq, Repr

/-- Why the machine gives a situation no meaning. -/
inductive Refusal where
  /-- Raised by `exec` for a command that has no meaning yet. Safe. No command is rejected so in this model. -/
  | notModelled (mnemonic : String)
  /-- Raised by the start of SIGMA and ROTFX (`startImage`): a buffer has no ordinary memory behind it, and "the result is
  unspecified, and a model refuses such a command" (20_memory R65, 93 U19). Safe. -/
  | bufferOnDevice
  /-- Raised by a memory write of the host (`hostMemWrite`) into a buffer of a command whose DONE it has not observed: "a host
  move that does not exist" (20_memory R71, 93 U18). Safe. -/
  | hostWroteBuffer
  /-- Raised by a memory access of the host (`hostMemWrite`, `hostMemRead`) at an address with no ordinary memory behind it:
  the device's behaviour is no part of the spec (60 R332). Safe. -/
  | hostTouchedDevice
  deriving DecidableEq, Repr

end Sys2Proof.Machine
end

