-- ==== Sys2Proof/Machine/Operands.lean ====
section
/-! DEFINITION. The operand values built from the register fields (30_encoding R87), and the register words built from fields
and split into them (10_state R20 to R36). -/

namespace Sys2Proof.Machine

/-- `W` (R87). -/
def Regs.w (r : Regs) : Nat := r.width.toNat

/-- `H` (R87). -/
def Regs.h (r : Regs) : Nat := r.height.toNat

/-- `C` (R87). -/
def Regs.c (r : Regs) : Nat := r.channels.toNat

/-- `sigma` (R87). -/
def Regs.sigmaValue (r : Regs) : Nat := r.sigma.toNat

/-- `k` (R87). -/
def Regs.k (r : Regs) : Nat := r.radius.toNat

/-- `cq`, read as two's complement (R87). -/
def Regs.cq (r : Regs) : Int := r.cosq.toInt

/-- `sq`, read as two's complement (R87). -/
def Regs.sq (r : Regs) : Int := r.sinq.toInt

/-- `SRC` (R87). -/
def Regs.src (r : Regs) : Nat := r.srcAddr.toNat

/-- `DST` (R87). -/
def Regs.dst (r : Regs) : Nat := r.dstAddr.toNat

/-- `len = W * H * C` (20_memory R63). -/
def Regs.len (r : Regs) : Nat := r.w * r.h * r.c

/-- The word of TRIG_Q: SINQ in the upper half, COSQ in the lower (10_state R31). -/
def Regs.trigQ (r : Regs) : Word := r.sinq ++ r.cosq

/-- `TRIG_Q <- {sq[15:0], cq[15:0]}` (43_trig_lut R165, R166). -/
def Regs.setTrigQ (r : Regs) (cq sq : Int) : Regs :=
  { r with cosq := BitVec.ofInt 16 cq, sinq := BitVec.ofInt 16 sq }

/-- The word of CTRL: SRST and the reserved bits read 0 (10_state R22). -/
def Regs.ctrlWord (r : Regs) : Word :=
  (0 : BitVec 29) ++ BitVec.ofBool r.trigSrc ++ BitVec.ofBool r.irqEn ++ (0 : BitVec 1)

/-- The word of DIMS (10_state R27). -/
def Regs.dimsWord (r : Regs) : Word := r.height ++ r.width

/-- The word of CHANNELS (10_state R28). -/
def Regs.channelsWord (r : Regs) : Word := (0 : BitVec 24) ++ r.channels

/-- The word of SIGMA_CFG (10_state R29). -/
def Regs.sigmaCfgWord (r : Regs) : Word := r.radius ++ (0 : BitVec 8) ++ r.sigma

/-- The word of BL_SAMPLES (10_state R32). -/
def Regs.samplesWord (r : Regs) : Word := r.s11 ++ r.s10 ++ r.s01 ++ r.s00

/-- The word of BL_FRAC (10_state R33). -/
def Regs.fracWord (r : Regs) : Word := (0 : BitVec 16) ++ r.fc ++ r.fr

/-- The word of BL_RESULT (10_state R34). -/
def Regs.resultWord (r : Regs) : Word := (0 : BitVec 24) ++ r.result

/-- What ID always reads (10_state R21). -/
def idWord : Word := 0x53460007

end Sys2Proof.Machine
end

