-- ==== Sys2Proof/Machine/Flags.lean ====
section
/-! DEFINITION. The status flags: what starts, ends and acknowledges a command do to them, the STATUS word and the interrupt
(10_state R24, R43; 60_exceptions R300, R306, R311, R312, R320). -/

namespace Sys2Proof.Machine

/-- The four bits of STATUS.ERR (60_exceptions R306). -/
def ErrCode.code : ErrCode → BitVec 4
  | .ok => 0x0
  | .illegalOp => 0x1
  | .channels => 0x2
  | .dim => 0x3
  | .trigRange => 0x4
  | .addr => 0x5
  | .overlap => 0x6
  | .bus => 0x7
  | .invariant => 0x8

/-- STATUS.BUSY is 1 exactly when a command runs (10_state R47). -/
def Phase.busy : Phase → Bool
  | .idle => false
  | .trig => true
  | .bilerp => true
  | .image _ _ => true

/-- The word of STATUS (10_state R24). -/
def Regs.statusWord (r : Regs) (busy : Bool) : Word :=
  (0 : BitVec 20) ++ r.err.code ++ (0 : BitVec 5) ++ BitVec.ofBool r.cmdOvr ++ BitVec.ofBool r.done ++ BitVec.ofBool busy

/-- The interrupt output (60_exceptions R320). -/
def Regs.irq (r : Regs) : Bool := r.done && r.irqEn

/-- The registers after the first two lines of 60_exceptions R300: the word is stored and the outcome of the command before is
cleared. CMD_OVR is not changed. -/
def Regs.started (r : Regs) (w : Word) : Regs :=
  { r with cmd := w, done := false, err := .ok, wcount := 0, errInfo := 0 }

/-- The registers after a command's end with a code and information (60_exceptions R311, R312). -/
def Regs.ended (r : Regs) (code : ErrCode) (info : Word) : Regs :=
  { r with done := true, err := code, errInfo := info }

/-- A host write to STATUS: a 1 in a W1C bit clears it, a 0 leaves it, the other bits are ignored (10_state R24). -/
def Regs.acked (r : Regs) (w : Word) : Regs :=
  { r with done := r.done && !w.getLsbD 1, cmdOvr := r.cmdOvr && !w.getLsbD 2 }

end Sys2Proof.Machine
end

