-- ==== Sys2Proof/Machine/Ops.lean ====
section
/-! DEFINITION. The shared operations: memory, sample access with bus errors, and a command's end (the block's only "exception",
60_exceptions R310 to R312; its "return" is the write to STATUS, R322, in Flags.lean). -/

namespace Sys2Proof.Machine

/-- What a byte reads as that nothing has written. The spec gives none: DESIGN CHOICE (log 1), unsafe. -/
def Memory.unlisted : Byte := 0

/-- `MemRead(addr, 1)` (00_scope R12). -/
def Memory.read : Memory → Nat → Byte
  | [], _ => Memory.unlisted
  | (k, v) :: m, a => if k = a then v else Memory.read m a

/-- `MemWrite(addr, 1, v)` (00_scope R12), keeping the canonical form. -/
def Memory.write : Memory → Nat → Byte → Memory
  | [], a, v => if v = Memory.unlisted then [] else [(a, v)]
  | (k, u) :: m, a, v =>
    if a < k then (if v = Memory.unlisted then (k, u) :: m else (a, v) :: (k, u) :: m)
    else if a = k then (if v = Memory.unlisted then m else (a, v) :: m)
    else (k, u) :: Memory.write m a v

/-- The canonical form: addresses strictly rising and inside the 32-bit space (20_memory R60), no byte listed that an unlisted
address reads as. -/
abbrev Memory.wf (m : Memory) : Prop :=
  m.Pairwise (fun x y => x.1 < y.1) ∧ ∀ e ∈ m, e.1 < 2 ^ 32 ∧ e.2 ≠ Memory.unlisted

/-- STATUS.BUSY (10_state R47). -/
def State.busy (s : State) : Bool := s.phase.busy

/-- The interrupt output (60_exceptions R320). -/
def State.irq (s : State) : Bool := s.regs.irq

/-- The run-time errors: what `raise Error` can carry while a command runs (60_exceptions R313, R314). -/
inductive RunError where
  /-- The bus answered the access of this address with an error. -/
  | bus (addr : Nat)
  /-- A counter of this channel and bin would have gone below 0. -/
  | invariant (ch : Nat) (bin : Byte)
  deriving DecidableEq, Repr

/-- The error code (60_exceptions R306). -/
def RunError.code : RunError → ErrCode
  | .bus _ => .bus
  | .invariant _ _ => .invariant

/-- What ERR_INFO holds (10_state R36, 60_exceptions R306). -/
def RunError.info : RunError → Word
  | .bus a => BitVec.ofNat 32 a
  | .invariant ch bin => (0 : BitVec 22) ++ BitVec.ofNat 2 ch ++ bin

/-- A histogram store with free contents: what HIST holds after a reset and between commands (10_state R44). -/
def freeHist (draw : Nat) : Hist :=
  Vector.ofFn fun ch => Vector.ofFn fun p => Config.freeCount draw ch.val p.val

/-- A check-time end (60_exceptions R311): the code and DONE, in the same step as the CMD write. ERR_INFO stays 0 (R308). -/
def State.endAtCheck (s : State) (code : ErrCode) : State :=
  { s with regs := s.regs.ended code 0 }

/-- The end of a running command (60_exceptions R312). The histogram store becomes unspecified (10_state R44). -/
def State.endRun (s : State) (code : ErrCode) (info : Word) : State :=
  { s with regs := s.regs.ended code info, phase := .idle, hist := freeHist s.draws, draws := s.draws + 1 }

end Sys2Proof.Machine
end

