-- ==== Sys2Proof/Machine/Bilinear.lean ====
section
/-! DEFINITION. The bilinear interpolator (44_bilinear_interpolator R180). -/

namespace Sys2Proof.Machine

/-- The four weights `w00, w01, w10, w11` of R180, exact. -/
def bilinearWeights (fr fc : Nat) : Nat × Nat × Nat × Nat :=
  ((256 - fr) * (256 - fc), (256 - fr) * fc, fr * (256 - fc), fr * fc)

/-- The weighted sum `acc` of R180. -/
def bilinearAcc (s00 s01 s10 s11 fr fc : Nat) : Nat :=
  let (w00, w01, w10, w11) := bilinearWeights fr fc
  w00 * s00 + w01 * s01 + w10 * s10 + w11 * s11

/-- BilerpFX (R180): the sum shifted right by 16, truncated (R184). -/
def bilerpFX (s00 s01 s10 s11 : Byte) (fr fc : Nat) : Byte :=
  BitVec.ofNat 8 (bilinearAcc s00.toNat s01.toNat s10.toNat s11.toNat fr fc / 65536)

end Sys2Proof.Machine
end

