-- ==== Sys2Proof/Machine/TrigLut.lean ====
section
/-! DEFINITION. The trig LUT (43_trig_lut R160 to R164) by exact integer arithmetic.

theta = n / 2^16 with n = sext_32(ANGLE). The point exp(i*theta) is exp(i*x) with x = n / 2^32 squared sixteen times. exp(i*x)
is its Taylor polynomial, an exact fraction, cut once to `trigScale`; each squaring is cut once. `trigError` bounds all the
cuts together (`trigPoint_error`, Laws/Trig.lean). No ANGLE but 0 brings 256 cos theta or 256 sin theta that near to a number
where a quantiser changes its answer (`trig_separated`, Laws/Separation.lean), and at 0 the point is exact: so the quantised
values are R160's for every ANGLE. DEDUCED (log 9): safe. -/

namespace Sys2Proof.Machine

/-- The fixed point scale of the computation. -/
def trigScale : Nat := 2 ^ 192

/-- The error bound, in units of 1 / `trigScale`. -/
def trigError : Int := 2 ^ 32

/-- The number of Taylor terms after the first. -/
def trigTerms : Nat := 40

/-- The Taylor polynomial of exp(i*x) for x = n / 2^32, as one fraction: the sum's numerators, the last power (i*n)^m, and the
denominator (2^32)^m * m!. -/
structure TaylorSum where
  re : Int
  im : Int
  powRe : Int
  powIm : Int
  den : Nat
  deriving DecidableEq, Repr

/-- The sum with the terms of degree 0 to `m`. -/
def taylorSum (n : Int) : Nat → TaylorSum
  | 0 => { re := 1, im := 0, powRe := 1, powIm := 0, den := 1 }
  | m + 1 =>
    let t := taylorSum n m
    let f : Nat := 2 ^ 32 * (m + 1)
    { re := t.re * f - t.powIm * n, im := t.im * f + t.powRe * n, powRe := -(t.powIm * n), powIm := t.powRe * n,
      den := t.den * f }

/-- exp(i*x) cut to the scale: real and imaginary part. -/
def unitPoint (n : Int) : Int × Int :=
  let t := taylorSum n trigTerms
  (t.re * trigScale / t.den, t.im * trigScale / t.den)

/-- The square of a point of the complex plane, cut to the scale. -/
def squarePoint (p : Int × Int) : Int × Int :=
  ((p.1 * p.1 - p.2 * p.2) / trigScale, 2 * p.1 * p.2 / trigScale)

/-- `k` squarings. -/
def squarePoints : Nat → Int × Int → Int × Int
  | 0, p => p
  | k + 1, p => squarePoints k (squarePoint p)

/-- exp(i*theta) at the scale, within `trigError`: cos theta and sin theta. -/
def trigPoint (n : Int) : Int × Int :=
  squarePoints 16 (unitPoint n)

/-- The quantiser Q of R161 on the fraction `a / trigScale`. -/
def quantise (q : TrigQuant) (a : Int) : Int :=
  match q with
  | .trunc => if 0 ≤ a then a / trigScale else -(-a / trigScale)
  | .floor => a / trigScale
  | .nearest => (2 * a + trigScale) / (2 * trigScale)

/-- One coefficient: Q(256 * v) for the value `v / trigScale` (R160). -/
def coefficient (q : TrigQuant) (v : Int) : Int :=
  quantise q (256 * v)

/-- TrigLUT(ANGLE) = (cq, sq) (R160). -/
def trigLUT (q : TrigQuant) (angle : Word) : Int × Int :=
  let p := trigPoint angle.toInt
  (coefficient q p.1, coefficient q p.2)

end Sys2Proof.Machine
end

