-- ==== Sys2Proof/Machine/Rotation.lean ====
section
/-! DEFINITION. The mapping of the fixed-point rotation (45_fixed_point_rotation R201 to R204). -/

namespace Sys2Proof.Machine

/-- What MapFX answers for an output pixel: the source coordinates in the scaled domain. -/
structure Source where
  sr : Int
  sc : Int
  hh : Int
  hw : Int
  deriving DecidableEq, Repr

/-- MapFX, part 1 (R201), with the centre and the centred offsets of 42_rotation_reference R140. -/
def mapSource (cq sq : Int) (w h row col : Nat) : Source :=
  let hh : Int := (h / 2 : Nat)
  let hw : Int := (w / 2 : Nat)
  let dr : Int := row - hh
  let dc : Int := col - hw
  { sr := cq * dr - sq * dc, sc := sq * dr + cq * dc, hh := hh, hw := hw }

/-- `ir` (R202): arithmetic shift by 8, which is floor division by 256. -/
def Source.ir (m : Source) : Int := m.sr / 256 + m.hh

/-- `ic` (R202). -/
def Source.ic (m : Source) : Int := m.sc / 256 + m.hw

/-- `fr` (R203): the low 8 bits, which are the remainder by 256. -/
def Source.fr (m : Source) : Nat := (m.sr % 256).toNat

/-- `fc` (R203). -/
def Source.fc (m : Source) : Nat := (m.sc % 256).toNat

/-- The interior test (R204, 42 R143). -/
def Source.touched (m : Source) (w h : Nat) : Bool :=
  decide (0 ≤ m.ir ∧ m.ir ≤ (h : Int) - 2 ∧ 0 ≤ m.ic ∧ m.ic ≤ (w : Int) - 2)

end Sys2Proof.Machine
end

