-- ==== Sys2Proof/Machine/ImageJob.lean ====
section
/-! DEFINITION. An image command as a whole: its buffers, the start checks it passed, its write set, what each sample of it reads
and what each gets (20_memory R62 to R67; 41_sigma_filter R129, R130; 45_fixed_point_rotation R206 to R208). -/

namespace Sys2Proof.Machine

/-- `Index(r, c, ch)` (20_memory R62). -/
def Job.index (j : Job) (r c ch : Nat) : Nat := (r * j.w + c) * j.c + ch

/-- `len = W * H * C` (20_memory R63). -/
def Job.len (j : Job) : Nat := j.w * j.h * j.c

/-- The address of an input sample (00_scope R12). -/
def Job.inAddr (j : Job) (r c ch : Nat) : Nat := j.src + j.index r c ch

/-- The address of an output sample (00_scope R14). -/
def Job.outAddr (j : Job) (r c ch : Nat) : Nat := j.dst + j.index r c ch

/-- `In(r, c, ch)`: the input does not change during a command, so it is read from the memory at its start (20_memory R70). -/
def Job.input (j : Job) (r c ch : Nat) : Byte := j.mem0.read (j.inAddr r c ch)

/-- Whether an address lies in the input buffer (20_memory R63). -/
def Job.inInput (j : Job) (a : Nat) : Bool := decide (j.src ≤ a ∧ a < j.src + j.len)

/-- Whether an address lies in the output buffer (20_memory R63). -/
def Job.inOutput (j : Job) (a : Nat) : Bool := decide (j.dst ≤ a ∧ a < j.dst + j.len)

/-- A buffer of `len` bytes at `base` wraps past the top of the address space (20_memory R66). -/
abbrev wraps (base len : Nat) : Prop := 2 ^ 32 < base + len

/-- Two buffers of `len` bytes share a byte (20_memory R67). -/
abbrev overlap (src dst len : Nat) : Prop := src < dst + len ∧ dst < src + len

/-- A coefficient the rotation accepts (60_exceptions R304). -/
abbrev coefficientLegal (v : Int) : Prop := -256 ≤ v ∧ v ≤ 256

/-- The operands a kernel may have: the field ranges of 30_encoding R87, and R304's for the coefficients. -/
def Kernel.legal : Kernel → Bool
  | Kernel.sigma s k => decide (s ≤ 255 ∧ k ≤ 65535)
  | Kernel.rotfx cq sq _ => decide (coefficientLegal cq ∧ coefficientLegal sq)

/-- A job the start checks admit (60_exceptions R305). -/
abbrev Job.Legal (j : Job) : Prop :=
  (j.c = 1 ∨ j.c = 3) ∧ (0 < j.w ∧ j.w ≤ 65535) ∧ (0 < j.h ∧ j.h ≤ 65535) ∧ j.kernel.legal = true ∧
    ¬ wraps j.src j.len ∧ ¬ wraps j.dst j.len ∧ ¬ overlap j.src j.dst j.len

/-- Whether a buffer of the job has a byte with no ordinary memory behind it (20_memory R65). -/
def Job.onDevice (j : Job) (cfg : Config) : Bool :=
  cfg.devices.any fun g => decide (g.first ≤ g.last ∧
    ((g.first < j.src + j.len ∧ j.src ≤ g.last) ∨ (g.first < j.dst + j.len ∧ j.dst ≤ g.last)))

/-- A sample's place in an image: row, column, channel. -/
abbrev Sample := Nat × Nat × Nat

/-- The rows `r0..r1`, both included, and none when `r1 < r0` (00_scope R15). -/
def upTo (a b : Nat) : List Nat := List.range' a (b + 1 - a)

/-- The samples of a rectangle of pixels in the reference order: row, then column, then channel (00_scope R15). -/
def rectangle (r0 r1 c0 c1 channels : Nat) : List Sample :=
  (upTo r0 r1).flatMap fun r => (upTo c0 c1).flatMap fun c => (List.range channels).map fun ch => (r, c, ch)

/-- The first and last row of the window of row `r` (40_histogram_window R100): `r - k` is cut at 0. -/
def Job.band (j : Job) (k r : Nat) : Nat × Nat := (r - k, min (j.h - 1) (r + k))

/-- The first and last column of the clipped window of column `c` (40_histogram_window R105). -/
def Job.columns (j : Job) (k c : Nat) : Nat × Nat := (c - k, min (j.w - 1) (c + k))

/-- The pixels of the window of `(r, c)` (41_sigma_filter R129). -/
def Job.window (j : Job) (k r c : Nat) : List (Nat × Nat) :=
  (upTo (j.band k r).1 (j.band k r).2).flatMap fun rr =>
    (upTo (j.columns k c).1 (j.columns k c).2).map fun cc => (rr, cc)

/-- `lo` (41_sigma_filter R122). -/
def sigmaLo (sigma v : Nat) : Nat := v - sigma

/-- `hi` (41_sigma_filter R122). -/
def sigmaHi (sigma v : Nat) : Nat := min 255 (v + sigma)

/-- The rounding of 41_sigma_filter R123. -/
def roundedMean (sum n : Nat) : Nat := (sum + n / 2) / n

/-- The samples of channel `ch` in the window of `(r, c)` that lie within `sigma` of the centre (41_sigma_filter R129). -/
def Job.nearSamples (j : Job) (sigma k r c ch : Nat) : List Nat :=
  let v := (j.input r c ch).toNat
  ((j.window k r c).map fun p => (j.input p.1 p.2 ch).toNat).filter fun x =>
    decide (sigmaLo sigma v ≤ x ∧ x ≤ sigmaHi sigma v)

/-- The closed form of a SIGMA output (41_sigma_filter R129). -/
def Job.sigmaResult (j : Job) (sigma k r c ch : Nat) : Byte :=
  let near := j.nearSamples sigma k r c ch
  BitVec.ofNat 8 (roundedMean near.sum near.length)

/-- A touched pixel's output (45_fixed_point_rotation R200, R207). -/
def Job.rotResult (j : Job) (cq sq : Int) (r c ch : Nat) : Byte :=
  let m := mapSource cq sq j.w j.h r c
  let ir := m.ir.toNat
  let ic := m.ic.toNat
  bilerpFX (j.input ir ic ch) (j.input ir (ic + 1) ch) (j.input (ir + 1) ic ch) (j.input (ir + 1) (ic + 1) ch) m.fr m.fc

/-- Whether the command writes a pixel (41_sigma_filter R130, 45_fixed_point_rotation R208). -/
def Job.writes (j : Job) (r c : Nat) : Bool :=
  match j.kernel with
  | .sigma _ _ => true
  | .rotfx cq sq _ => (mapSource cq sq j.w j.h r c).touched j.w j.h

/-- The value the command's rule gives a sample of its write set. -/
def Job.newValue (j : Job) (r c ch : Nat) : Byte :=
  match j.kernel with
  | .sigma sigma k => j.sigmaResult sigma k r c ch
  | .rotfx cq sq _ => j.rotResult cq sq r c ch

/-- The input addresses the value of a sample needs: the window in its own channel (41_sigma_filter R129) or the four
neighbours (45_fixed_point_rotation R207). -/
def Job.needs (j : Job) (r c ch : Nat) : List Nat :=
  match j.kernel with
  | .sigma _ k => (j.window k r c).map fun p => j.inAddr p.1 p.2 ch
  | .rotfx cq sq _ =>
    let m := mapSource cq sq j.w j.h r c
    let ir := m.ir.toNat
    let ic := m.ic.toNat
    [j.inAddr ir ic ch, j.inAddr ir (ic + 1) ch, j.inAddr (ir + 1) ic ch, j.inAddr (ir + 1) (ic + 1) ch]

/-- The pixels the command writes, in the reference order. -/
def Job.writePixels (j : Job) : List (Nat × Nat) :=
  ((List.range j.h).flatMap fun r => (List.range j.w).map fun c => (r, c)).filter fun p => j.writes p.1 p.2

/-- The write set (00_scope R17), in the reference order. -/
def Job.writeSet (j : Job) : List Sample :=
  j.writePixels.flatMap fun p => (List.range j.c).map fun ch => (p.1, p.2, ch)

/-- The sample of the output buffer an address of it holds, by 20_memory R62 read backwards. -/
def Job.sampleAt (j : Job) (a : Nat) : Sample :=
  let i := a - j.dst
  (i / j.c / j.w, i / j.c % j.w, i % j.c)

/-- Whether an address holds a sample of the write set. -/
def Job.writesAddr (j : Job) (a : Nat) : Bool :=
  j.inOutput a && j.writes (j.sampleAt a).1 (j.sampleAt a).2.1

/-- The new value of the sample at an output address. -/
def Job.newValueAt (j : Job) (a : Nat) : Byte :=
  j.newValue (j.sampleAt a).1 (j.sampleAt a).2.1 (j.sampleAt a).2.2

end Sys2Proof.Machine
end

