-- ==== Sys2Proof/Machine/Histogram.lean ====
section
/-! DEFINITION. The histogram window unit: HIST_INIT, HIST_SLIDE, HIST_REMOVE and HIST_ADD (40_histogram_window R100 to R104),
over accesses that the bus may answer with an error (20_memory R79, 60_exceptions R313). -/

namespace Sys2Proof.Machine

/-- `HIST[ch][p]` (10_state R44). The store has three channels. -/
def Hist.count (h : Hist) (ch : Nat) (p : Byte) : Nat :=
  if hc : ch < 3 then (h[ch])[p.toNat] else 0

/-- `HIST[ch][p] <- n`. -/
def Hist.setCount (h : Hist) (ch : Nat) (p : Byte) (n : Nat) : Hist :=
  if hc : ch < 3 then h.set ch ((h[ch]).set p.toNat n) else h

/-- `HIST[ch][x] <- HIST[ch][x] + 1` (R100, R103). -/
def Hist.inc (h : Hist) (ch : Nat) (x : Byte) : Hist :=
  h.setCount ch x (h.count ch x + 1)

/-- `HIST[ch][x] <- HIST[ch][x] - 1`, or ERR_INVARIANT when the counter is 0 (R102, R104). -/
def Hist.dec (h : Hist) (ch : Nat) (x : Byte) : Except RunError Hist :=
  if h.count ch x = 0 then .error (.invariant ch x) else .ok (h.setCount ch x (h.count ch x - 1))

/-- The counters of the channels `0..c-1` at 0 (R100). The unused channels are unspecified while a command runs (10_state R44); they
keep what they held: DESIGN CHOICE (log 2). -/
def Hist.cleared (h : Hist) (c : Nat) : Hist :=
  Vector.ofFn fun ch => if ch.val < c then Vector.replicate 256 0 else h[ch]

/-- `In(r, c, ch)` as an access on the bus: ERR_BUS where it answers with an error (60_exceptions R313). -/
def readSample (cfg : Config) (j : Job) (r c ch : Nat) : Except RunError Byte :=
  if cfg.busErrAt (j.inAddr r c ch) then .error (.bus (j.inAddr r c ch)) else .ok (j.input r c ch)

/-- `Out(r, c, ch) <- v` as an access on the bus. -/
def writeSample (cfg : Config) (j : Job) (r c ch : Nat) (v : Byte) (m : Memory) : Except RunError Memory :=
  if cfg.busErrAt (j.outAddr r c ch) then .error (.bus (j.outAddr r c ch)) else .ok (m.write (j.outAddr r c ch) v)

/-- Count the samples of a list in, one by one (the loops of R100 and R103). -/
def addSamples (cfg : Config) (j : Job) : List Sample → Hist → Except RunError Hist
  | [], h => .ok h
  | (r, c, ch) :: rest, h =>
    match readSample cfg j r c ch with
    | .error e => .error e
    | .ok x => addSamples cfg j rest (h.inc ch x)

/-- Take the samples of a list out, one by one (the loop of R102). -/
def removeSamples (cfg : Config) (j : Job) : List Sample → Hist → Except RunError Hist
  | [], h => .ok h
  | (r, c, ch) :: rest, h =>
    match readSample cfg j r c ch with
    | .error e => .error e
    | .ok x =>
      match h.dec ch x with
      | .error e => .error e
      | .ok h' => removeSamples cfg j rest h'

/-- HIST_INIT(r) (R100): the used counters from 0, and the row band of row `r`. The unused channels keep what they held, which the
spec leaves open: DESIGN CHOICE (log 2). -/
def histInit (cfg : Config) (j : Job) (k : Nat) (pos : Pos) (h : Hist) : Except RunError (Hist × Pos) :=
  let (r0, r1) := j.band k pos.row
  match addSamples cfg j (rectangle r0 r1 0 (min (j.w - 1) k) j.c) (h.cleared j.c) with
  | .error e => .error e
  | .ok h => .ok (h, { pos with r0 := r0, r1 := r1 })

/-- HIST_REMOVE(col) (R102). -/
def histRemove (cfg : Config) (j : Job) (pos : Pos) (col : Nat) (h : Hist) : Except RunError Hist :=
  removeSamples cfg j (rectangle pos.r0 pos.r1 col col j.c) h

/-- HIST_ADD(col) (R103). -/
def histAdd (cfg : Config) (j : Job) (pos : Pos) (col : Nat) (h : Hist) : Except RunError Hist :=
  addSamples cfg j (rectangle pos.r0 pos.r1 col col j.c) h

/-- The removal of R101: the column `c - k - 1`, where there is one. -/
def slideOut (cfg : Config) (j : Job) (k : Nat) (pos : Pos) (h : Hist) : Except RunError Hist :=
  if k + 1 ≤ pos.col ∧ pos.col - (k + 1) ≤ j.w - 1 then histRemove cfg j pos (pos.col - (k + 1)) h else .ok h

/-- The addition of R101: the column `c + k`, where there is one. -/
def slideIn (cfg : Config) (j : Job) (k : Nat) (pos : Pos) (h : Hist) : Except RunError Hist :=
  if pos.col + k ≤ j.w - 1 then histAdd cfg j pos (pos.col + k) h else .ok h

/-- HIST_SLIDE(r, c) (R101): the removal before the addition. -/
def histSlide (cfg : Config) (j : Job) (k : Nat) (pos : Pos) (h : Hist) : Except RunError Hist :=
  match slideOut cfg j k pos h with
  | .error e => .error e
  | .ok h' => slideIn cfg j k pos h'

/-- The window work before the sample at a position (41_sigma_filter R121): at a row's first column HIST_INIT, at the first
channel of any other column HIST_SLIDE, and nothing between the channels of a pixel. -/
def prepareWindow (cfg : Config) (j : Job) (k : Nat) (pos : Pos) (h : Hist) : Except RunError (Hist × Pos) :=
  if pos.ch ≠ 0 then .ok (h, pos)
  else if pos.col = 0 then histInit cfg j k pos h
  else
    match histSlide cfg j k pos h with
    | .error e => .error e
    | .ok h' => .ok (h', pos)

/-- The bins `lo..hi` of a channel with their contents, as pairs (content, bin). -/
def Hist.bins (h : Hist) (ch lo hi : Nat) : List (Nat × Nat) :=
  if hc : ch < 3 then ((h[ch]).toList.zipIdx).filter fun b => decide (lo ≤ b.2 ∧ b.2 ≤ hi) else []

/-- `sum` of 41_sigma_filter R122. -/
def Hist.weighted (h : Hist) (ch lo hi : Nat) : Nat :=
  ((h.bins ch lo hi).map fun b => b.2 * b.1).sum

/-- `n` of 41_sigma_filter R122. -/
def Hist.total (h : Hist) (ch lo hi : Nat) : Nat :=
  ((h.bins ch lo hi).map fun b => b.1).sum

end Sys2Proof.Machine
end

