-- ==== Sys2Proof/Machine/RunError.lean ====
section
/-! DEFINITION. How a run that does not complete leaves things: a run-time error (60_exceptions R313, R314, R316) and a reset
during a command (70_reset_and_hazards R400, R402, R403). -/

namespace Sys2Proof.Machine

/-- The output when a command stops early: each sample of the write set holds its old or its new value, a free choice per
sample, and no other byte changes (60_exceptions R313, 70 R403). Where `keep` holds, the sample has its old value. -/
def settleSamples (j : Job) (keep : Sample → Bool) : List Sample → Nat → Memory → Memory
  | [], _, m => m
  | (r, c, ch) :: rest, draw, m =>
    let v := if keep (r, c, ch) || Config.freeBit draw then j.mem0.read (j.outAddr r c ch) else j.newValue r c ch
    settleSamples j keep rest (draw + 1) (m.write (j.outAddr r c ch) v)

/-- The output of the whole command, settled. -/
def Job.settle (j : Job) (keep : Sample → Bool) (draw : Nat) (m : Memory) : Memory :=
  settleSamples j keep j.writeSet draw m

/-- The bus errors a command can meet: the addresses it reads or writes that the bus answers with an error. -/
def Job.busFaults (j : Job) (cfg : Config) : List RunError :=
  ((j.writeSet.flatMap fun p => j.needs p.1 p.2.1 p.2.2 ++ [j.outAddr p.1 p.2.1 p.2.2]).filter cfg.busErrAt).map
    RunError.bus

/-- The error that is reported: a free choice between the one the reference order met and the others the command can meet
(60_exceptions R316). -/
def pickFault (met : RunError) (others : List RunError) (draw : Nat) : RunError :=
  match others.filter (fun e => e ≠ met) with
  | [] => met
  | more => (met :: more).getD (Config.freeNat draw % (more.length + 1)) met

/-- A sample whose computation needed the failed read keeps its old value (60_exceptions R313). -/
def Job.needsFailed (j : Job) (e : RunError) (p : Sample) : Bool :=
  match e with
  | .bus a => (j.needs p.1 p.2.1 p.2.2).contains a
  | .invariant _ _ => false

/-- A run-time error ends the command (60_exceptions R312 to R314): the reported fault, the output and WCOUNT are free within
their bounds. -/
def failRun (j : Job) (met : RunError) (s : State) : State :=
  let e := pickFault met (j.busFaults s.cfg) s.draws
  let count : Word := BitVec.ofNat 32 (Config.freeNat (s.draws + 1) % (j.writePixels.length + 1))
  { s with
      mem := j.settle (j.needsFailed e) (s.draws + 2) s.mem
      regs := { s.regs with wcount := count }
      draws := s.draws + 2 + j.writeSet.length }.endRun e.code e.info

/-- What a reset does to the memory: the output of a command it interrupts is settled, and nothing else (70 R403). -/
def abortRun (s : State) : State :=
  match s.phase with
  | .image j _ =>
    { s with mem := j.settle (fun _ => false) s.draws s.mem, draws := s.draws + j.writeSet.length }
  | _ => s

/-- A hardware or soft reset (70 R400 to R403): every register takes its reset value, the block is IDLE, the histogram store
becomes unspecified, and a running command is aborted. The host has not observed its DONE, so its buffers stay open (20_memory R71,
log 8). -/
def resetBlock (s : State) : State :=
  let a := abortRun s
  { a with regs := Regs.reset, phase := .idle, hist := freeHist a.draws, draws := a.draws + 1 }

end Sys2Proof.Machine
end

