-- ==== Sys2Proof/Machine/Sequencer.lean ====
section
/-! DEFINITION. The steps of a running command: one sample at a time in the reference order (00_scope R15, 20_memory R64), the
two unit commands in one step, and the run up to the next host move. -/

namespace Sys2Proof.Machine

/-- The position after a pixel: the next column, or the next row (00_scope R15). -/
def Pos.nextPixel (p : Pos) (j : Job) : Pos :=
  if p.col + 1 < j.w then { p with col := p.col + 1, ch := 0 } else { p with row := p.row + 1, col := 0, ch := 0 }

/-- After a sample: the next channel, or the next pixel with WCOUNT one higher (10_state R35). -/
def advance (j : Job) (pos : Pos) (s : State) : State :=
  if pos.ch + 1 < j.c then { s with phase := .image j { pos with ch := pos.ch + 1 } }
  else { s with phase := .image j (pos.nextPixel j), regs := { s.regs with wcount := s.regs.wcount + 1 } }

/-- SigmaValue(ch, v) (41_sigma_filter R122), with the branch R124 keeps. -/
def sigmaValue (h : Hist) (ch sigma : Nat) (v : Byte) : Byte :=
  let lo := sigmaLo sigma v.toNat
  let hi := sigmaHi sigma v.toNat
  if 0 < h.total ch lo hi then BitVec.ofNat 8 (roundedMean (h.weighted ch lo hi) (h.total ch lo hi)) else v

/-- One sample of SIGMA (41_sigma_filter R120, R121): the window work, the centre sample, the output. -/
def sigmaStep (j : Job) (sigma k : Nat) (pos : Pos) (s : State) : State :=
  match prepareWindow s.cfg j k pos s.hist with
  | .error e => failRun j e s
  | .ok (hist, pos') =>
    match readSample s.cfg j pos.row pos.col pos.ch with
    | .error e => failRun j e s
    | .ok v =>
      match writeSample s.cfg j pos.row pos.col pos.ch (sigmaValue hist pos.ch sigma v) s.mem with
      | .error e => failRun j e s
      | .ok mem => advance j pos' { s with hist := hist, mem := mem }

/-- The four neighbours of a touched pixel in one channel (45_fixed_point_rotation R200). -/
def readNeighbours (cfg : Config) (j : Job) (ir ic ch : Nat) : Except RunError (Byte × Byte × Byte × Byte) :=
  match readSample cfg j ir ic ch, readSample cfg j ir (ic + 1) ch, readSample cfg j (ir + 1) ic ch,
      readSample cfg j (ir + 1) (ic + 1) ch with
  | .ok s00, .ok s01, .ok s10, .ok s11 => .ok (s00, s01, s10, s11)
  | .error e, _, _, _ => .error e
  | .ok _, .error e, _, _ => .error e
  | .ok _, .ok _, .error e, _ => .error e
  | .ok _, .ok _, .ok _, .error e => .error e

/-- One sample of ROTFX, or one untouched pixel (45_fixed_point_rotation R200). -/
def rotfxStep (j : Job) (cq sq : Int) (pos : Pos) (s : State) : State :=
  let m := mapSource cq sq j.w j.h pos.row pos.col
  if m.touched j.w j.h then
    match readNeighbours s.cfg j m.ir.toNat m.ic.toNat pos.ch with
    | .error e => failRun j e s
    | .ok (s00, s01, s10, s11) =>
      match writeSample s.cfg j pos.row pos.col pos.ch (bilerpFX s00 s01 s10 s11 m.fr m.fc) s.mem with
      | .error e => failRun j e s
      | .ok mem => advance j pos { s with mem := mem }
  else { s with phase := .image j (pos.nextPixel j) }

/-- A step of a running image command: its next sample, or its normal end after the last one. A job the start checks never
admit, or a position outside the image, is a state no run reaches. -/
def imageStep (j : Job) (pos : Pos) (s : State) : Host.Outcome State Fault Refusal :=
  if ¬ j.Legal then .fault .brokenRun
  else if j.h ≤ pos.row then .next (s.endRun .ok 0)
  else if j.w ≤ pos.col ∨ j.c ≤ pos.ch then .fault .brokenRun
  else
    match j.kernel with
    | .sigma sigma k => .next (sigmaStep j sigma k pos s)
    | .rotfx cq sq _ => .next (rotfxStep j cq sq pos s)

/-- RUN(TRIG) (43_trig_lut R166): the lookup, and the end. -/
def trigStep (s : State) : State :=
  let q := trigLUT s.cfg.trigQuant s.regs.angle
  { s with regs := s.regs.setTrigQ q.1 q.2 }.endRun .ok 0

/-- RUN(BILERP) (44_bilinear_interpolator R186): the interpolation, and the end. -/
def bilerpStep (s : State) : State :=
  let r := s.regs
  { s with regs := { r with result := bilerpFX r.s00 r.s01 r.s10 r.s11 r.fr.toNat r.fc.toNat } }.endRun .ok 0

/-- One step of the block. An idle block does nothing (60_exceptions R335). -/
def blockStep (s : State) : Host.Outcome State Fault Refusal :=
  match s.phase with
  | .idle => .next s
  | .trig => .next (trigStep s)
  | .bilerp => .next (bilerpStep s)
  | .image j pos => imageStep j pos s

/-- At most `n` steps of the block, fewer when the command ends. -/
def runBlock : Nat → State → Host.Outcome State Fault Refusal
  | 0, s => .next s
  | n + 1, s =>
    match s.phase with
    | .idle => .next s
    | _ =>
      match blockStep s with
      | .next t => runBlock n t
      | .fault f => .fault f
      | .refused r => .refused r

/-- More steps than any running command has left: one for each sample, and one for the end (70_reset_and_hazards R420). -/
def State.stepsLeft (s : State) : Nat :=
  match s.phase with
  | .idle => 0
  | .trig => 1
  | .bilerp => 1
  | .image j _ => j.len + 1

/-- How many block steps pass before the next host move lands: what the move says, or all that are left when none is pending.
Log 6. -/
def State.stepsBeforeNextMove (s : State) : Nat :=
  match s.inbox with
  | [] => s.stepsLeft
  | p :: _ => p.after

/-- The block runs until the next host move lands, or until its command ends. -/
def runOn (s : State) : Host.Outcome State Fault Refusal :=
  runBlock s.stepsBeforeNextMove s

end Sys2Proof.Machine
end

