-- ==== Sys2Proof/Machine/Commands.lean ====
section
/-! DEFINITION. The meaning of each command word written to CMD: the start of 60_exceptions R300 with its checks (R305), the
write while busy (R301), and then the command's run. One definition for each constructor of Instr. -/

namespace Sys2Proof.Machine

/-- CheckImageCommand (60_exceptions R305): the first check that fails. `rotation` is op = ROTFX. -/
def checkImage (rotation : Bool) (r : Regs) : Option ErrCode :=
  if ¬ (r.c = 1 ∨ r.c = 3) then some .channels
  else if r.w = 0 ∨ r.h = 0 then some .dim
  else if rotation ∧ r.trigSrc ∧ ¬ (coefficientLegal r.cq ∧ coefficientLegal r.sq) then some .trigRange
  else if wraps r.src r.len ∨ wraps r.dst r.len then some .addr
  else if overlap r.src r.dst r.len then some .overlap
  else none

/-- The job an image command latches at its start (10_state R40, R46; 20_memory R70). -/
def State.jobOf (s : State) (kernel : Kernel) : Job :=
  { kernel := kernel, src := s.regs.src, dst := s.regs.dst, w := s.regs.w, h := s.regs.h, c := s.regs.c, mem0 := s.mem }

/-- The last line of 60_exceptions R300 for an image command: RUN(op) at sample (0, 0, 0) (10_state R42). A command with a buffer
on a device is refused (20_memory R65), at this moment by DESIGN CHOICE (log 16). The row band is 0 and 0 until HIST_INIT sets it:
DESIGN CHOICE (log 22). From here to the host's observation of DONE = 1 the buffers are open (20_memory R71, log 8). -/
def startImage (kernel : Kernel) (s : State) : Host.Outcome State Fault Refusal :=
  let j := s.jobOf kernel
  if j.onDevice s.cfg then .refused .bufferOnDevice
  else .next { s with phase := .image j { row := 0, col := 0, ch := 0, r0 := 0, r1 := 0 }, watch := j :: s.watch }

/-- SIGMA after the first lines of R300. -/
def beginSigma (s : State) : Host.Outcome State Fault Refusal :=
  match checkImage false s.regs with
  | some code => .next (s.endAtCheck code)
  | none => startImage (.sigma s.regs.sigmaValue s.regs.k) s

/-- ROTFX after the first lines of R300. With CTRL.TRIG_SRC = 0 the coefficients come from the LUT and TRIG_Q takes them once the
checks pass (43_trig_lut R165, 45_fixed_point_rotation R214). -/
def beginRotfx (s : State) : Host.Outcome State Fault Refusal :=
  match checkImage true s.regs with
  | some code => .next (s.endAtCheck code)
  | none =>
    if s.regs.trigSrc then startImage (.rotfx s.regs.cq s.regs.sq none) s
    else
      let q := trigLUT s.cfg.trigQuant s.regs.angle
      startImage (.rotfx q.1 q.2 (some s.regs.trigQ)) { s with regs := s.regs.setTrigQ q.1 q.2 }

/-- TRIG after the first lines of R300: it checks nothing (43_trig_lut R166). -/
def beginTrig (s : State) : Host.Outcome State Fault Refusal :=
  .next { s with phase := .trig }

/-- BILERP after the first lines of R300: it checks nothing (44_bilinear_interpolator R186). -/
def beginBilerp (s : State) : Host.Outcome State Fault Refusal :=
  .next { s with phase := .bilerp }

/-- A reserved word ends at once with ERR_ILLEGAL_OP (30_encoding R81, R85). -/
def beginReserved (s : State) : Host.Outcome State Fault Refusal :=
  .next (s.endAtCheck .illegalOp)

/-- A write of the word `w` to CMD. While a command runs it is dropped and sets CMD_OVR (60_exceptions R301); else it is stored,
the last outcome is cleared and the command begins (R300). Then the block runs up to the next host move. -/
def issue (w : Word) (begin' : State → Host.Outcome State Fault Refusal) (s : State) : Host.Outcome State Fault Refusal :=
  if s.busy then runOn { s with regs := { s.regs with cmdOvr := true } }
  else
    match begin' { s with regs := s.regs.started w } with
    | .next t => runOn t
    | .fault f => .fault f
    | .refused r => .refused r

/-- SIGMA (41_sigma_filter R120). -/
def execSigma (s : State) : Host.Outcome State Fault Refusal :=
  issue Instr.sigma.word beginSigma s

/-- ROTFX (45_fixed_point_rotation R200). -/
def execRotfx (s : State) : Host.Outcome State Fault Refusal :=
  issue Instr.rotfx.word beginRotfx s

/-- TRIG (43_trig_lut R166). -/
def execTrig (s : State) : Host.Outcome State Fault Refusal :=
  issue Instr.trig.word beginTrig s

/-- BILERP (44_bilinear_interpolator R186). -/
def execBilerp (s : State) : Host.Outcome State Fault Refusal :=
  issue Instr.bilerp.word beginBilerp s

/-- A reserved word (30_encoding R81, R85). -/
def execReserved (op : BitVec 4) (rsvd : BitVec 28) (s : State) : Host.Outcome State Fault Refusal :=
  issue (Instr.reserved op rsvd).word beginReserved s

end Sys2Proof.Machine
end

