-- ==== Sys2Proof/Machine/Dispatch.lean ====
section
/-! DEFINITION. exec: one arm for each constructor of Instr. -/

namespace Sys2Proof.Machine

/-- The command a host write to CMD selects: its start, and its run up to the next host move. -/
def exec (i : Instr) (s : State) : Host.Outcome State Fault Refusal :=
  match i with
  | .sigma => Sys2Proof.Machine.execSigma s
  | .rotfx => Sys2Proof.Machine.execRotfx s
  | .trig => Sys2Proof.Machine.execTrig s
  | .bilerp => Sys2Proof.Machine.execBilerp s
  | .reserved op rsvd => Sys2Proof.Machine.execReserved op rsvd s

end Sys2Proof.Machine
end

