-- ==== Sys2Proof/Machine/HostPort.lean ====
section
/-! DEFINITION. The host's side: the register window (10_state R20 to R40, 20_memory R60, R61), memory accesses beside the block
(20_memory R71, R72), the interrupt line and the reset input. -/

namespace Sys2Proof.Machine

/-- The offset in the register window of a bus address, where it is one (20_memory R60, R78). -/
def windowOffset (cfg : Config) (addr : Word) : Option (BitVec 8) :=
  if addr.extractLsb' 8 24 = cfg.regPage then some (addr.extractLsb' 0 8) else none

/-- The register at an offset (10_state R20). A reserved offset has none (R37). -/
def Reg.atOffset (off : BitVec 8) : Option Reg :=
  match off.toNat with
  | 0x00 => some .id
  | 0x04 => some .ctrl
  | 0x08 => some .cmd
  | 0x0C => some .status
  | 0x10 => some .srcAddr
  | 0x14 => some .dstAddr
  | 0x18 => some .dims
  | 0x1C => some .channels
  | 0x20 => some .sigmaCfg
  | 0x24 => some .angle
  | 0x28 => some .trigQ
  | 0x2C => some .blSamples
  | 0x30 => some .blFrac
  | 0x34 => some .blResult
  | 0x38 => some .wcount
  | 0x3C => some .errInfo
  | _ => none

/-- The word a register holds (10_state R20 to R37). -/
def Reg.value (r : Regs) (busy : Bool) : Reg → Word
  | .id => idWord
  | .ctrl => r.ctrlWord
  | .cmd => r.cmd
  | .status => r.statusWord busy
  | .srcAddr => r.srcAddr
  | .dstAddr => r.dstAddr
  | .dims => r.dimsWord
  | .channels => r.channelsWord
  | .sigmaCfg => r.sigmaCfgWord
  | .angle => r.angle
  | .trigQ => r.trigQ
  | .blSamples => r.samplesWord
  | .blFrac => r.fracWord
  | .blResult => r.resultWord
  | .wcount => r.wcount
  | .errInfo => r.errInfo

/-- TRIG_Q before a ROTFX that has written it (70 R418). -/
def Job.trigQBefore (j : Job) : Option Word :=
  match j.kernel with
  | .sigma _ _ => none
  | .rotfx _ _ before => before

/-- The other word a read of a register may answer while a command runs: TRIG_Q as it was before a ROTFX that writes it (70 R418).
For the result of a running TRIG or BILERP the spec gives no value during the run; the model admits the one the command writes
beside the one before it: DESIGN CHOICE (log 14), safe. -/
def State.racingWord (s : State) (r : Reg) : Option Word :=
  match s.phase with
  | .idle => none
  | .trig => if r = .trigQ then some (trigStep s).regs.trigQ else none
  | .bilerp => if r = .blResult then some (bilerpStep s).regs.resultWord else none
  | .image j _ => if r = .trigQ then j.trigQBefore else none

/-- The host has observed DONE = 1: every buffer is the host's again (20_memory R71, R72). -/
def State.observed (s : State) : State :=
  { s with watch := [] }

/-- HostRead of a register (00_scope R11): its word, or where the running command races with the read a free choice between two
(70 R418, log 14). Reading STATUS with DONE = 1 is how the host observes the end of a command (20_memory R71). -/
def hostReadReg (r : Reg) (s : State) : Word × State :=
  match s.racingWord r with
  | some w => (if Config.freeBit s.draws then w else Reg.value s.regs s.busy r, { s with draws := s.draws + 1 })
  | none => (Reg.value s.regs s.busy r, if r = .status ∧ s.regs.done = true then s.observed else s)

/-- The bytes a host read of the window answers, lowest address first (20_memory R61): the register's lanes for an aligned 32-bit
access, 0 in every byte for any other and for a reserved offset (10_state R37). -/
def hostRead (off : BitVec 8) (width : Nat) (s : State) : List Byte × State :=
  if width = 4 ∧ off.toNat % 4 = 0 then
    match Reg.atOffset off with
    | some r => (bytesOfWord (hostReadReg r s).1, (hostReadReg r s).2)
    | none => (bytesOfWord 0, s)
  else (List.replicate width 0, s)

/-- A write of a word to a parameter register (10_state R25 to R33): only the fields are stored (R37). A read-only register keeps
its value. -/
def Regs.setParameter (r : Regs) (reg : Reg) (w : Word) : Regs :=
  match reg with
  | .srcAddr => { r with srcAddr := w }
  | .dstAddr => { r with dstAddr := w }
  | .dims => { r with width := w.extractLsb' 0 16, height := w.extractLsb' 16 16 }
  | .channels => { r with channels := w.extractLsb' 0 8 }
  | .sigmaCfg => { r with sigma := w.extractLsb' 0 8, radius := w.extractLsb' 16 16 }
  | .angle => { r with angle := w }
  | .trigQ => { r with cosq := w.extractLsb' 0 16, sinq := w.extractLsb' 16 16 }
  | .blSamples =>
    { r with s00 := w.extractLsb' 0 8, s01 := w.extractLsb' 8 8, s10 := w.extractLsb' 16 8, s11 := w.extractLsb' 24 8 }
  | .blFrac => { r with fr := w.extractLsb' 0 8, fc := w.extractLsb' 8 8 }
  | .id => r
  | .ctrl => r
  | .cmd => r
  | .status => r
  | .blResult => r
  | .wcount => r
  | .errInfo => r

/-- A host write to CTRL (10_state R22): bit 0 is the soft reset, whatever else the word holds (70 R402); IRQ_EN may be written at
any time; TRIG_SRC only while no command runs (R40). -/
def writeCtrl (w : Word) (s : State) : State :=
  if w.getLsbD 0 then resetBlock s
  else
    { s with regs := { s.regs with
        irqEn := w.getLsbD 1
        trigSrc := if s.busy then s.regs.trigSrc else w.getLsbD 2 } }

/-- HostWrite of a word to a register other than CMD. A parameter register keeps its value while a command runs (10_state R40). -/
def hostWriteReg (r : Reg) (w : Word) (s : State) : State :=
  match r with
  | .ctrl => writeCtrl w s
  | .status => { s with regs := s.regs.acked w }
  | r => if s.busy then s else { s with regs := s.regs.setParameter r w }

/-- A host write of `data` at an offset of the window. Only an aligned 32-bit write is defined; any other is ignored (20_memory
R61), and so is one to a reserved offset (10_state R37). A write to CMD is a command (60_exceptions R300). -/
def hostWrite (off : BitVec 8) (data : List Byte) (s : State) : Host.Outcome State Fault Refusal :=
  match data with
  | [b0, b1, b2, b3] =>
    if off.toNat % 4 = 0 then
      match Reg.atOffset off with
      | some .cmd =>
        match decode data with
        | .ok (i, _) => exec i s
        | .error _ => runOn s
      | some r => runOn (hostWriteReg r (wordOfBytes b0 b1 b2 b3) s)
      | none => runOn s
    else runOn s
  | _ => runOn s

/-- Whether an address lies in a buffer of a command whose DONE the host has not observed (20_memory R71). -/
def State.inOpenBuffer (s : State) (a : Nat) : Bool :=
  s.watch.any fun j => j.inInput a || j.inOutput a

/-- A memory write by the host or another bus master. In a buffer of an open command it is no move at all (20_memory R71).
BUS_ERR is about the block's port alone (20_memory R79): where it holds, the host's write stores as in ordinary memory. DESIGN
CHOICE (log 21). -/
def hostMemWrite (addr : Word) (v : Byte) (s : State) : Host.Outcome State Fault Refusal :=
  if s.cfg.deviceAt addr.toNat then .refused .hostTouchedDevice
  else if s.inOpenBuffer addr.toNat then .refused .hostWroteBuffer
  else runOn { s with mem := s.mem.write addr.toNat v }

/-- What a memory read may answer at an address in the write set of open commands: for each, the byte before the command and the one
the command writes there (20_memory R71). Where several have the address, the choice among all of theirs is the model's (log 8). -/
def State.openBytes (s : State) (a : Nat) : List Byte :=
  (s.watch.filter fun j => j.writesAddr a).flatMap fun j => [j.mem0.read a, j.newValueAt a]

/-- What a memory read by the host answers: in the write set of an open command the old or the new value, a free choice
(20_memory R71, 70 R416); elsewhere the byte. BUS_ERR is about the block's port alone (20_memory R79): where it holds, the host
reads as in ordinary memory. DESIGN CHOICE (log 21). -/
def hostMemRead (addr : Word) (s : State) : Byte × State :=
  match s.openBytes addr.toNat with
  | [] => (s.mem.read addr.toNat, s)
  | v :: rest => ((v :: rest).getD (Config.freeNat s.draws % (rest.length + 1)) v, { s with draws := s.draws + 1 })

/-- An answer joins those the host has had. -/
def State.answer (s : State) (a : Answer) : State :=
  { s with outbox := s.outbox ++ [a] }

/-- One move of the host, and then the block up to the next one. An access outside the window is no access to the block. -/
def hostMove (m : Move) (s : State) : Host.Outcome State Fault Refusal :=
  match m with
  | .write addr data =>
    match windowOffset s.cfg addr with
    | some off => hostWrite off data s
    | none => runOn s
  | .read addr width =>
    match windowOffset s.cfg addr with
    | some off => runOn ((hostRead off width s).2.answer (.window (hostRead off width s).1))
    | none => runOn s
  | .memWrite addr v => hostMemWrite addr v s
  | .memRead addr =>
    if s.cfg.deviceAt addr.toNat then .refused .hostTouchedDevice
    else runOn ((hostMemRead addr s).2.answer (.memory (hostMemRead addr s).1))
  | .senseIrq =>
    runOn ((if s.irq then s.observed else s).answer (.irq s.irq))
  | .hardReset => runOn (resetBlock s)

/-- The next pending move lands; with none pending, a running command goes on to its end and an idle block waits (70 R404). -/
def nextMove (s : State) : Host.Outcome State Fault Refusal :=
  match s.inbox with
  | [] => runOn s
  | p :: rest => hostMove p.move { s with inbox := rest }

/-- The machine with a host write of four bytes to CMD in front of the pending moves, to land at once. -/
def State.withCommandBytes (s : State) (data : List Byte) : State :=
  { s with inbox := { after := 0, move := .write (s.cfg.regBase + 8) data } :: s.inbox }

end Sys2Proof.Machine
end

