-- ==== Sys2Proof/Machine/Step.lean ====
section
/-! DEFINITION. The machine's step, and how a command word is placed where the step takes it. -/

namespace Sys2Proof.Machine

/-- One step: the next host move, and the block up to the one after it. -/
def step (s : State) : Host.Outcome State Fault Refusal :=
  nextMove s

/-- `s` with the command word `w` of `nbits` bits as the next host move: a write to CMD (log 6). -/
def State.withFetchWord (s : State) (nbits w : Nat) : State :=
  s.withCommandBytes (bytesOfWord (BitVec.ofNat 32 (w % 2 ^ nbits)))

end Sys2Proof.Machine
end

