-- ==== Sys2Proof/Machine/HostProgram.lean ====
section
/-! DEFINITION. Host programs (30_encoding R89 to R91): the statements, the pseudo-instructions, and the host moves they are. -/

namespace Sys2Proof.Machine

/-- The offset of a register (10_state R20). -/
def Reg.offset : Reg → BitVec 8
  | .id => 0x00
  | .ctrl => 0x04
  | .cmd => 0x08
  | .status => 0x0C
  | .srcAddr => 0x10
  | .dstAddr => 0x14
  | .dims => 0x18
  | .channels => 0x1C
  | .sigmaCfg => 0x20
  | .angle => 0x24
  | .trigQ => 0x28
  | .blSamples => 0x2C
  | .blFrac => 0x30
  | .blResult => 0x34
  | .wcount => 0x38
  | .errInfo => 0x3C

/-- The statements of R89 that are host actions. -/
inductive Stmt where
  /-- `wr REG, v`. -/
  | wr (reg : Reg) (v : Word)
  /-- `rd REG`. -/
  | rd (reg : Reg)
  /-- `wait` (R90): the reads of STATUS up to the first that shows DONE. It is that last read: the ones before it show DONE = 0 and
  leave nothing behind, so they are left out (log 18). -/
  | wait
  deriving DecidableEq, Repr

/-- The bus address of a register (00_scope R11). -/
def regAddr (cfg : Config) (reg : Reg) : Word :=
  cfg.regBase + reg.offset.zeroExtend 32

/-- The host move a statement is: an aligned 32-bit access. -/
def Stmt.move (cfg : Config) : Stmt → Move
  | .wr reg v => .write (regAddr cfg reg) (bytesOfWord v)
  | .rd reg => .read (regAddr cfg reg) 4
  | .wait => .read (regAddr cfg .status) 4

/-- A statement as a move to come. How many block steps pass before it, the spec leaves open (70 R420): it is `steps`, any number. -/
def Stmt.pending (cfg : Config) (steps : Nat) (st : Stmt) : Pending :=
  { after := steps, move := st.move cfg }

/-- A state with a host program still to come, each statement with the block steps that pass before it (log 6). -/
def State.withProgram (s : State) (p : List (Nat × Stmt)) : State :=
  { s with inbox := p.map fun e => e.2.pending s.cfg e.1 }

/-- `mem ADDR: b0 b1 ...` (R89): bytes of the start state. -/
def Memory.withImage (m : Memory) (base : Nat) : List Byte → Memory
  | [] => m
  | b :: rest => Memory.withImage (m.write base b) (base + 1) rest

/-- `cmd M` (R90). -/
def pseudoCmd (i : Instr) : List Stmt := [.wr .cmd i.word]

/-- `run M` (R90). -/
def pseudoRun (i : Instr) : List Stmt := pseudoCmd i ++ [.wait]

/-- `ack` (R90). -/
def pseudoAck : List Stmt := [.wr .status 0x00000006]

/-- `srst` (R90). -/
def pseudoSrst : List Stmt := [.wr .ctrl 0x00000001]

/-- `dims w, h` (R90). -/
def pseudoDims (w h : BitVec 16) : List Stmt := [.wr .dims (h ++ w)]

/-- `chans c` (R90). -/
def pseudoChans (c : BitVec 8) : List Stmt := [.wr .channels (c.zeroExtend 32)]

/-- `sigcfg s, k` (R90). -/
def pseudoSigcfg (sigma : BitVec 8) (k : BitVec 16) : List Stmt := [.wr .sigmaCfg (k ++ (0 : BitVec 8) ++ sigma)]

/-- `angle q` (R90). -/
def pseudoAngle (q : Word) : List Stmt := [.wr .angle q]

/-- `trigq cq, sq` (R90). -/
def pseudoTrigq (cq sq : Int) : List Stmt := [.wr .trigQ (BitVec.ofInt 16 sq ++ BitVec.ofInt 16 cq)]

/-- `bl s00, s01, s10, s11, fr, fc` (R90). -/
def pseudoBl (s00 s01 s10 s11 fr fc : Byte) : List Stmt :=
  [.wr .blSamples (s11 ++ s10 ++ s01 ++ s00), .wr .blFrac ((0 : BitVec 16) ++ fc ++ fr)]

/-- `src a` (R90). -/
def pseudoSrc (a : Word) : List Stmt := [.wr .srcAddr a]

/-- `dst a` (R90). -/
def pseudoDst (a : Word) : List Stmt := [.wr .dstAddr a]

end Sys2Proof.Machine
end

