-- ==== Sys2Proof/Machine/RotationReference.lean ====
section
/-! DEFINITION. RotRef, the floating-point rotation as a reference function in exact arithmetic (42_rotation_reference R140 to
R151). It is no command of the block (30_encoding R85): ROTFX is compared with it (45_fixed_point_rotation R212).
Its pieces are written over any ordered field with a floor, so that their coefficients can be rational or real; `rotRef` itself is over
the reals. -/

namespace Sys2Proof.Machine

variable {K : Type} [Field K] [LinearOrder K] [IsStrictOrderedRing K] [FloorRing K]

/-- `srcRow` (R141). -/
def refRow (cosT sinT : K) (w h row col : Nat) : K :=
  cosT * ((row : K) - ((h / 2 : Nat) : K)) - sinT * ((col : K) - ((w / 2 : Nat) : K))

/-- `srcCol` (R141). -/
def refCol (cosT sinT : K) (w h row col : Nat) : K :=
  sinT * ((row : K) - ((h / 2 : Nat) : K)) + cosT * ((col : K) - ((w / 2 : Nat) : K))

/-- `intRow` (R142). -/
def refIntRow (cosT sinT : K) (w h row col : Nat) : Int :=
  ⌊refRow cosT sinT w h row col⌋ + (h / 2 : Nat)

/-- `intCol` (R142). -/
def refIntCol (cosT sinT : K) (w h row col : Nat) : Int :=
  ⌊refCol cosT sinT w h row col⌋ + (w / 2 : Nat)

/-- The interior test (R143): whether RotRef touches a pixel. -/
abbrev refTouches (cosT sinT : K) (w h row col : Nat) : Prop :=
  0 ≤ refIntRow cosT sinT w h row col ∧ refIntRow cosT sinT w h row col ≤ (h : Int) - 2 ∧
    0 ≤ refIntCol cosT sinT w h row col ∧ refIntCol cosT sinT w h row col ≤ (w : Int) - 2

/-- The weighted sum of the four neighbours with the weights of R145, at the fractions `fr` and `fc` (R144). -/
def refInterpolate (fr fc p00 p01 p10 p11 : K) : K :=
  (1 - fr) * (1 - fc) * p00 + (1 - fr) * fc * p01 + fr * (1 - fc) * p10 + fr * fc * p11

/-- Truncation toward zero (R146). -/
def truncate (x : K) : Int :=
  if 0 ≤ x then ⌊x⌋ else ⌈x⌉

/-- A touched pixel's output sample (R144 to R146). -/
def refSample (j : Job) (cosT sinT : K) (row col ch : Nat) : Int :=
  let fr := Int.fract (refRow cosT sinT j.w j.h row col)
  let fc := Int.fract (refCol cosT sinT j.w j.h row col)
  let ir := (refIntRow cosT sinT j.w j.h row col).toNat
  let ic := (refIntCol cosT sinT j.w j.h row col).toNat
  truncate (refInterpolate fr fc ((j.input ir ic ch).toNat : K) ((j.input ir (ic + 1) ch).toNat : K)
    ((j.input (ir + 1) ic ch).toNat : K) ((j.input (ir + 1) (ic + 1) ch).toNat : K))

/-- The reference rotation of the whole image for a cosine and a sine (R147): from the output `prior`, by row, column and channel, each
sample of a touched pixel gets the value of R146, in every channel (R149), and every other sample keeps its prior value (R148). -/
def refImage (j : Job) (cosT sinT : K) (prior : Nat → Nat → Nat → Int) (row col ch : Nat) : Int :=
  if refTouches cosT sinT j.w j.h row col then refSample j cosT sinT row col ch else prior row col ch

/-- RotRef(theta) (R147): the whole image in exact real arithmetic, for the angle theta in radians (R141). -/
noncomputable def rotRef (j : Job) (theta : ℝ) (prior : Nat → Nat → Nat → Int) : Nat → Nat → Nat → Int :=
  refImage j (Real.cos theta) (Real.sin theta) prior

end Sys2Proof.Machine
end

