-- ==== Sys2Proof/Safety.lean ====
section
/-! DEFINITION. The terms claims use: when nothing disturbs a command, what a run has done so far, and the invariants. -/

namespace Sys2Proof.Machine

/-- No host move lands within the next `n` steps of the block. -/
def State.undisturbed (s : State) (n : Nat) : Prop :=
  ∀ p rest, s.inbox = p :: rest → n ≤ p.after

/-- No access the command makes gets an error from the bus (20_memory R79): neither an input sample some output needs nor an output
sample it writes. -/
def Job.busOk (j : Job) (cfg : Config) : Prop :=
  ∀ r c ch, (r, c, ch) ∈ j.writeSet →
    (∀ a ∈ j.needs r c ch, cfg.busErrAt a = false) ∧ cfg.busErrAt (j.outAddr r c ch) = false

/-- The configuration and the addresses pass every check of 60_exceptions R305 but the coefficients' own. -/
def Regs.imageLegal (r : Regs) : Prop :=
  (r.c = 1 ∨ r.c = 3) ∧ r.w ≠ 0 ∧ r.h ≠ 0 ∧ r.src + r.len ≤ 2 ^ 32 ∧ r.dst + r.len ≤ 2 ^ 32 ∧
    (r.src + r.len ≤ r.dst ∨ r.dst + r.len ≤ r.src)

/-- The coefficients ROTFX uses (43_trig_lut R165). -/
def State.coefficients (s : State) : Int × Int :=
  if s.regs.trigSrc then (s.regs.cq, s.regs.sq) else trigLUT s.cfg.trigQuant s.regs.angle

/-- The job a SIGMA started in a state latches. -/
def State.sigmaJob (s : State) : Job :=
  s.jobOf (.sigma s.regs.sigmaValue s.regs.k)

/-- The job a ROTFX started in a state latches. -/
def State.rotfxJob (s : State) : Job :=
  s.jobOf (.rotfx s.coefficients.1 s.coefficients.2 (if s.regs.trigSrc then none else some s.regs.trigQ))

/-- What a command that stopped early may leave in memory (60_exceptions R313, 70_reset_and_hazards R403): no byte outside the write
set changes, and each sample of it holds its old or its new value. -/
def Job.leavesOldOrNew (j : Job) (before after : Memory) : Prop :=
  (∀ a, j.writesAddr a = false → after.read a = before.read a) ∧
    ∀ r c ch, (r, c, ch) ∈ j.writeSet →
      after.read (j.outAddr r c ch) = j.mem0.read (j.outAddr r c ch) ∨
        after.read (j.outAddr r c ch) = j.newValue r c ch

/-- The histogram, from a store that holds `h0`, after HIST_INIT(r) and HIST_SLIDE(r, 1) to HIST_SLIDE(r, c)
(40_histogram_window R105). -/
def windowAfter (cfg : Config) (j : Job) (k : Nat) (h0 : Hist) (r : Nat) : Nat → Except RunError (Hist × Pos)
  | 0 => histInit cfg j k { row := r, col := 0, ch := 0, r0 := 0, r1 := 0 } h0
  | c + 1 =>
    match windowAfter cfg j k h0 r c with
    | .error e => .error e
    | .ok (h, p) =>
      match histSlide cfg j k { p with col := c + 1 } h with
      | .error e => .error e
      | .ok h' => .ok (h', { p with col := c + 1 })

/-- The direct count over the clipped window (40_histogram_window R105). -/
def Job.windowCount (j : Job) (k r c ch : Nat) (p : Byte) : Nat :=
  ((j.window k r c).filter fun q => j.input q.1 q.2 ch = p).length

/-- The histogram holds the window of pixel `(r, c)` in every used channel (40_histogram_window R105). -/
def Hist.Matches (h : Hist) (j : Job) (k r c : Nat) : Prop :=
  ∀ ch, ch < j.c → ∀ p : Byte, h.count ch p = j.windowCount k r c ch p

/-- The sample is in the image. -/
def Job.hasSample (j : Job) (r c ch : Nat) : Prop :=
  r < j.h ∧ c < j.w ∧ ch < j.c

/-- The sequencer is at a sample of the image, or past the last one. -/
def Pos.inBounds (p : Pos) (j : Job) : Prop :=
  (p.row < j.h ∧ p.col < j.w ∧ p.ch < j.c) ∨ (p.row = j.h ∧ p.col = 0 ∧ p.ch = 0)

/-- The registers still hold the parameters a running command latched (10_state R40, R46). -/
def Regs.holds (r : Regs) (j : Job) : Prop :=
  j.src = r.src ∧ j.dst = r.dst ∧ j.w = r.w ∧ j.h = r.h ∧ j.c = r.c ∧
    match j.kernel with
    | .sigma sigma k => sigma = r.sigmaValue ∧ k = r.k
    | .rotfx cq sq _ => cq = r.cq ∧ sq = r.sq

/-- What holds while a command runs: DONE, ERR and ERR_INFO stand as its start left them (60_exceptions R300). -/
def State.flagsOfRun (s : State) : Prop :=
  s.busy = true → s.regs.done = false ∧ s.regs.err = .ok ∧ s.regs.errInfo = 0

/-- What holds of a running image command: it is one the checks admit, its sequencer is in the image, the registers hold its
parameters, and the host has not observed its end. -/
def State.runLegal (s : State) : Prop :=
  match s.phase with
  | .image j p => j.Legal ∧ j.mem0.wf ∧ p.inBounds j ∧ s.regs.holds j ∧ j ∈ s.watch
  | _ => True

/-- The machine's invariant: memory in canonical form, and a running command in order. -/
def State.Inv (s : State) : Prop :=
  s.mem.wf ∧ s.flagsOfRun ∧ s.runLegal

/-- The pixels of the write set before a position. -/
def Job.pixelsBefore (j : Job) (p : Pos) : Nat :=
  (j.writePixels.filter fun q => q.1 * j.w + q.2 < p.row * j.w + p.col).length

/-- What memory holds at a sample of the output buffer during a run: the new value where the sequencer has passed a sample of the
write set, else the old one (00_scope R15). -/
def Job.valueDuring (j : Job) (p : Pos) (r c ch : Nat) : Byte :=
  if j.writes r c = true ∧ j.index r c ch < j.index p.row p.col p.ch then j.newValue r c ch
  else j.mem0.read (j.outAddr r c ch)

/-- The histogram store and the row band between two samples of SIGMA: within a pixel they are that pixel's, between two pixels
of a row the last pixel's; at a row's first sample they hold nothing (41_sigma_filter R121). -/
def State.windowInOrder (s : State) (j : Job) (p : Pos) : Prop :=
  match j.kernel with
  | .sigma _ k =>
    (p.ch ≠ 0 ∨ p.col ≠ 0) →
      (p.r0, p.r1) = j.band k p.row ∧ s.hist.Matches j k p.row (if p.ch ≠ 0 then p.col else p.col - 1)
  | .rotfx _ _ _ => True

/-- What a running image command has done so far: the output up to the sequencer, the input as it was, WCOUNT, the histogram. -/
def State.RunInv (s : State) : Prop :=
  match s.phase with
  | .image j p =>
    (∀ r c ch, j.hasSample r c ch → s.mem.read (j.outAddr r c ch) = j.valueDuring p r c ch) ∧
      (∀ a, j.inInput a = true → s.mem.read a = j.mem0.read a) ∧
      s.regs.wcount = BitVec.ofNat 32 (j.pixelsBefore p) ∧ s.windowInOrder j p
  | _ => True

/-- The bits of a parameter register, or of CTRL, that a write stores (10_state R22, R25 to R33). -/
def storedBits : Reg → Word
  | .ctrl => 0x00000006
  | .channels => 0x000000FF
  | .sigmaCfg => 0xFFFF00FF
  | .blFrac => 0x0000FFFF
  | _ => 0xFFFFFFFF

/-- The parameter registers (10_state R40). -/
def parameterRegs : List Reg :=
  [.srcAddr, .dstAddr, .dims, .channels, .sigmaCfg, .angle, .trigQ, .blSamples, .blFrac]

/-- The quantiser Q of 43_trig_lut R161 on an exact number. -/
def idealQuantise {K : Type} [Field K] [LinearOrder K] [IsStrictOrderedRing K] [FloorRing K] (q : TrigQuant) (x : K) : Int :=
  match q with
  | .trunc => truncate x
  | .floor => ⌊x⌋
  | .nearest => ⌊x + 1 / 2⌋

end Sys2Proof.Machine
end

