-- ==== Sys2Proof/Certificates/Slice0/Obligations.lean ====
section
/-! DEFINITION. The statements for the provers, from the numbered rules of spec/. Each docstring names the rules it formalises. -/

open Sys2Proof Sys2Proof.Machine

/-! ## Encoding (30_encoding R80 to R86) -/

/-- R80 to R83: decoding the bytes of a well-formed command gives it back and leaves the bytes after it. -/
def Obligations.DecodeGivesBackEncoded : Prop :=
  ∀ (i : Instr) (rest : List Byte), i.wellFormed = true → decode (encode i ++ rest) = .ok (i, rest)

/-- R83, R86: every four bytes decode to a well-formed command whose encoding they are. -/
def Obligations.EveryWordDecodesToItsCommand : Prop :=
  ∀ (b0 b1 b2 b3 : Byte) (rest : List Byte),
    ∃ i, decode (b0 :: b1 :: b2 :: b3 :: rest) = .ok (i, rest) ∧ i.wellFormed = true ∧ encode i = [b0, b1, b2, b3]

/-- R82: the words of the opcode table. A sanity statement on written-out words. -/
def Obligations.TableWordsDecode : Prop :=
  decodeWord 0x00000001 = .sigma ∧ decodeWord 0x00000002 = .rotfx ∧ decodeWord 0x00000004 = .trig ∧
    decodeWord 0x00000005 = .bilerp ∧ decodeWord 0x00000000 = .reserved 0 0 ∧ decodeWord 0x00000003 = .reserved 3 0 ∧
    decodeWord 0x0000000F = .reserved 15 0 ∧ decodeWord 0x00000011 = .reserved 1 1

/-- R83: Decode(w), by the two fields of the word as numbers. -/
def Obligations.DecodeFollowsFields : Prop :=
  ∀ w : Word,
    (w.toNat / 16 ≠ 0 → ∃ op rsvd, decodeWord w = .reserved op rsvd) ∧
      (w.toNat / 16 = 0 →
        (w.toNat % 16 = 1 → decodeWord w = .sigma) ∧ (w.toNat % 16 = 2 → decodeWord w = .rotfx) ∧
          (w.toNat % 16 = 4 → decodeWord w = .trig) ∧ (w.toNat % 16 = 5 → decodeWord w = .bilerp) ∧
          (w.toNat % 16 ∉ [1, 2, 4, 5] → ∃ op rsvd, decodeWord w = .reserved op rsvd))

/-! ## The step, and the start of a command (60_exceptions R300, R301) -/

/-- A step whose next move is a host write of four bytes to CMD is exec of the command they decode to, in the state without that
move. exec itself lets the block run up to the move after it (log 6). -/
def Obligations.StepRunsDecodedCommand : Prop :=
  ∀ (s : State) (d : Nat) (b0 b1 b2 b3 : Byte) (i : Instr) (rest : List Pending),
    s.inbox = { after := d, move := .write (regAddr s.cfg .cmd) [b0, b1, b2, b3] } :: rest →
      decode [b0, b1, b2, b3] = .ok (i, []) → step s = exec i { s with inbox := rest }

/-- A placed command word is what the next step runs. -/
def Obligations.StepRunsPlacedWord : Prop :=
  ∀ (s : State) (w : Nat), step (s.withFetchWord 32 w) = exec (decodeWord (BitVec.ofNat 32 w)) s

/-- R301: a command written while a command runs is not stored and starts nothing: CMD_OVR is set and the running command goes
on. -/
def Obligations.CommandWhileBusyOnlySetsOverrun : Prop :=
  ∀ (i : Instr) (s : State), s.busy = true → exec i s = runOn { s with regs := { s.regs with cmdOvr := true } }

/-- R300, R47: where a host move lands at once, TRIG and BILERP are seen running, with the outcome of the last command cleared. -/
def Obligations.UnitCommandIsSeenRunning : Prop :=
  ∀ (s : State) (p : Pending) (rest : List Pending), s.busy = false → s.inbox = p :: rest → p.after = 0 →
    exec .trig s = .next { s with regs := s.regs.started 4, phase := .trig } ∧
      exec .bilerp s = .next { s with regs := s.regs.started 5, phase := .bilerp }

/-- R300, R42, R47: where a host move lands at once, an accepted SIGMA or ROTFX is seen running at sample (0, 0, 0). The latched job,
the watch field, the refusal's condition and the row band 0 and 0 are the model's (logs 6, 7, 8, 16, 22). -/
def Obligations.ImageCommandIsSeenRunning : Prop :=
  ∀ (s : State) (p : Pending) (rest : List Pending), s.busy = false → s.inbox = p :: rest → p.after = 0 →
    s.regs.imageLegal →
    (s.sigmaJob.onDevice s.cfg = false →
      exec .sigma s = .next { s with
        regs := s.regs.started 1
        phase := .image s.sigmaJob { row := 0, col := 0, ch := 0, r0 := 0, r1 := 0 }
        watch := s.sigmaJob :: s.watch }) ∧
    (s.rotfxJob.onDevice s.cfg = false → (s.regs.trigSrc = true → coefficientLegal s.regs.cq ∧ coefficientLegal s.regs.sq) →
      exec .rotfx s = .next { s with
        regs := { s.regs.started 2 with
          cosq := if s.regs.trigSrc then s.regs.cosq else BitVec.ofInt 16 s.coefficients.1
          sinq := if s.regs.trigSrc then s.regs.sinq else BitVec.ofInt 16 s.coefficients.2 }
        phase := .image s.rotfxJob { row := 0, col := 0, ch := 0, r0 := 0, r1 := 0 }
        watch := s.rotfxJob :: s.watch })

/-! ## Check-time ends (60_exceptions R302 to R308, R311) -/

/-- R81, R311: a reserved word ends at once with ERR_ILLEGAL_OP; CMD holds it, and nothing but the outcome registers changes. -/
def Obligations.ReservedWordEndsIllegal : Prop :=
  ∀ (op : BitVec 4) (rsvd : BitVec 28) (s : State), s.busy = false →
    exec (.reserved op rsvd) s = .next { s with regs := { s.regs with
      cmd := rsvd ++ op, done := true, err := .illegalOp, wcount := 0, errInfo := 0 } }

/-- R302, R303, R66, R67 in the order of R305, for SIGMA, with the frame of R308: the first check that fails names the code, and
nothing but the outcome registers and CMD changes. -/
def Obligations.SigmaChecksInOrder : Prop :=
  ∀ (s : State), s.busy = false →
    let r := s.regs
    let ends := fun code => exec .sigma s = .next { s with regs := { s.regs with
      cmd := 1, done := true, err := code, wcount := 0, errInfo := 0 } }
    (¬ (r.c = 1 ∨ r.c = 3) → ends .channels) ∧
      ((r.c = 1 ∨ r.c = 3) → (r.w = 0 ∨ r.h = 0) → ends .dim) ∧
      ((r.c = 1 ∨ r.c = 3) → 0 < r.w → 0 < r.h →
        (2 ^ 32 - 1 < r.src + r.len - 1 ∨ 2 ^ 32 - 1 < r.dst + r.len - 1) → ends .addr) ∧
      ((r.c = 1 ∨ r.c = 3) → 0 < r.w → 0 < r.h →
        r.src + r.len - 1 ≤ 2 ^ 32 - 1 → r.dst + r.len - 1 ≤ 2 ^ 32 - 1 →
        r.src < r.dst + r.len → r.dst < r.src + r.len → ends .overlap)

/-- R302, R303, R304, R66, R67 in the order of R305, for ROTFX, with the frame of R308 (TRIG_Q stays as it is). -/
def Obligations.RotfxChecksInOrder : Prop :=
  ∀ (s : State), s.busy = false →
    let r := s.regs
    let badCoefficients := r.trigSrc = true ∧ (¬ coefficientLegal r.cosq.toInt ∨ ¬ coefficientLegal r.sinq.toInt)
    let ends := fun code => exec .rotfx s = .next { s with regs := { s.regs with
      cmd := 2, done := true, err := code, wcount := 0, errInfo := 0 } }
    (¬ (r.c = 1 ∨ r.c = 3) → ends .channels) ∧
      ((r.c = 1 ∨ r.c = 3) → (r.w = 0 ∨ r.h = 0) → ends .dim) ∧
      ((r.c = 1 ∨ r.c = 3) → 0 < r.w → 0 < r.h → badCoefficients → ends .trigRange) ∧
      ((r.c = 1 ∨ r.c = 3) → 0 < r.w → 0 < r.h → ¬ badCoefficients →
        (2 ^ 32 - 1 < r.src + r.len - 1 ∨ 2 ^ 32 - 1 < r.dst + r.len - 1) → ends .addr) ∧
      ((r.c = 1 ∨ r.c = 3) → 0 < r.w → 0 < r.h → ¬ badCoefficients →
        r.src + r.len - 1 ≤ 2 ^ 32 - 1 → r.dst + r.len - 1 ≤ 2 ^ 32 - 1 →
        r.src < r.dst + r.len → r.dst < r.src + r.len → ends .overlap)

/-- R65: an accepted image command with a buffer on a device is refused. That the refusal comes at the CMD write, after the checks and
before any pending move lands, is the model's choice (log 16). -/
def Obligations.BufferOnDeviceIsRefused : Prop :=
  ∀ (s : State), s.busy = false → s.regs.imageLegal →
    (s.sigmaJob.onDevice s.cfg = true → exec .sigma s = .refused .bufferOnDevice) ∧
      (s.rotfxJob.onDevice s.cfg = true → (s.regs.trigSrc = true → coefficientLegal s.regs.cq ∧ coefficientLegal s.regs.sq) →
        exec .rotfx s = .refused .bufferOnDevice)

/-! ## The unit commands (43_trig_lut R166, 44_bilinear_interpolator R186) -/

/-- R166: TRIG writes TrigLUT(ANGLE) to TRIG_Q and completes with OK; no other register, no memory byte and nothing else changes
but the histogram store, which is unspecified between commands (R44), and the model's counter of free values. -/
def Obligations.TrigCompletesWithLut : Prop :=
  ∀ (s : State), s.busy = false → s.undisturbed 1 →
    ∃ hist n, exec .trig s = .next { s with
      regs := { s.regs with
        cmd := 4, done := true, err := .ok, wcount := 0, errInfo := 0
        cosq := BitVec.ofInt 16 (trigLUT s.cfg.trigQuant s.regs.angle).1
        sinq := BitVec.ofInt 16 (trigLUT s.cfg.trigQuant s.regs.angle).2 }
      hist := hist, draws := n }

/-- R186, R180: BILERP writes the interpolated sample to BL_RESULT and completes with OK; the frame is that of TRIG. -/
def Obligations.BilerpCompletesWithResult : Prop :=
  ∀ (s : State), s.busy = false → s.undisturbed 1 →
    ∃ hist n, exec .bilerp s = .next { s with
      regs := { s.regs with
        cmd := 5, done := true, err := .ok, wcount := 0, errInfo := 0
        result := BitVec.ofNat 8
          (((256 - s.regs.fr.toNat) * (256 - s.regs.fc.toNat) * s.regs.s00.toNat
            + (256 - s.regs.fr.toNat) * s.regs.fc.toNat * s.regs.s01.toNat
            + s.regs.fr.toNat * (256 - s.regs.fc.toNat) * s.regs.s10.toNat
            + s.regs.fr.toNat * s.regs.fc.toNat * s.regs.s11.toNat) / 2 ^ 16) }
      hist := hist, draws := n }

/-! ## The trig LUT (43_trig_lut R160 to R168) -/

/-- R160, R161, R164: for every quantiser and every one of the 2^32 ANGLEs the LUT answers exactly the quantised values of
256 cos theta and 256 sin theta, theta = sext_32(ANGLE) / 2^16. R168: so under TRUNC and NEAREST the cosine is even in the angle and
the sine odd, for every ANGLE that has a negation in 32 bits; under FLOOR the sine is not: at 0.5 rad and -0.5 rad it is 122 and
-123. -/
def Obligations.TrigLutIsExact : Prop :=
  (∀ (q : TrigQuant) (angle : Word),
    trigLUT q angle =
      (idealQuantise q (256 * Real.cos ((angle.toInt : ℝ) / 2 ^ 16)),
        idealQuantise q (256 * Real.sin ((angle.toInt : ℝ) / 2 ^ 16)))) ∧
    (∀ (q : TrigQuant) (angle : Word), q ≠ .floor → angle ≠ 0x80000000 →
      (trigLUT q (-angle)).1 = (trigLUT q angle).1 ∧ (trigLUT q (-angle)).2 = -(trigLUT q angle).2) ∧
    (trigLUT .floor 0x00008000).2 = 122 ∧ (trigLUT .floor (-0x00008000)).2 = -123

/-- R162: the LUT's outputs lie in -256..256 and survive the 16-bit fields of TRIG_Q. -/
def Obligations.TrigLutFitsItsFields : Prop :=
  ∀ (q : TrigQuant) (angle : Word) (r : Regs),
    coefficientLegal (trigLUT q angle).1 ∧ coefficientLegal (trigLUT q angle).2 ∧
      (r.setTrigQ (trigLUT q angle).1 (trigLUT q angle).2).cq = (trigLUT q angle).1 ∧
      (r.setTrigQ (trigLUT q angle).1 (trigLUT q angle).2).sq = (trigLUT q angle).2

/-- R163, R167: the LUT's values at angle 0 and at the document's representative angles. -/
def Obligations.TrigLutRepresentativeAngles : Prop :=
  (∀ q : TrigQuant, trigLUT q 0x00000000 = (256, 0) ∧ trigLUT q 0x00010000 = (138, 215) ∧ trigLUT q 0x00018000 = (18, 255)) ∧
    trigLUT .trunc 0x00008000 = (224, 122) ∧ trigLUT .floor 0x00008000 = (224, 122) ∧
    trigLUT .nearest 0x00008000 = (225, 123) ∧ trigLUT .trunc 0xFFFF8000 = (224, -122) ∧
    trigLUT .floor 0xFFFF8000 = (224, -123) ∧ trigLUT .nearest 0xFFFF8000 = (225, -123)

/-! ## The bilinear interpolator (44_bilinear_interpolator R180 to R184) -/

/-- R181: the weights of two 8-bit fractions sum to 65536, each is at most that, and only the first reaches it, at fr = fc = 0. -/
def Obligations.BilinearWeightsSum : Prop :=
  ∀ fr fc : Nat, fr ≤ 255 → fc ≤ 255 →
    let w := bilinearWeights fr fc
    w.1 + w.2.1 + w.2.2.1 + w.2.2.2 = 65536 ∧ w.1 ≤ 65536 ∧ w.2.1 < 65536 ∧ w.2.2.1 < 65536 ∧ w.2.2.2 < 65536 ∧
      (w.1 = 65536 ↔ fr = 0 ∧ fc = 0)

/-- R182: the result lies between the smallest and the largest of the four samples, and the sum is below 2^24. -/
def Obligations.BilerpStaysBetweenItsSamples : Prop :=
  ∀ (s00 s01 s10 s11 fr fc : Byte),
    let r := (bilerpFX s00 s01 s10 s11 fr.toNat fc.toNat).toNat
    min (min s00.toNat s01.toNat) (min s10.toNat s11.toNat) ≤ r ∧
      r ≤ max (max s00.toNat s01.toNat) (max s10.toNat s11.toNat) ∧
      bilinearAcc s00.toNat s01.toNat s10.toNat s11.toNat fr.toNat fc.toNat ≤ 255 * 65536

/-- R183: the result is the floor of the real bilinear interpolation at the fractions fr / 256 and fc / 256. -/
def Obligations.BilerpIsFloorOfRealInterpolation : Prop :=
  ∀ (s00 s01 s10 s11 fr fc : Byte),
    ((bilerpFX s00 s01 s10 s11 fr.toNat fc.toNat).toNat : ℤ) =
      ⌊refInterpolate ((fr.toNat : ℚ) / 256) ((fc.toNat : ℚ) / 256) (s00.toNat : ℚ) (s01.toNat : ℚ) (s10.toNat : ℚ)
        (s11.toNat : ℚ)⌋

/-- R184: the sum is truncated by the shift; four equal samples give that sample; between samples 0 and 255 the result is 255 only
where the 0-samples weigh nothing; and the rule's example. -/
def Obligations.BilerpTruncates : Prop :=
  (∀ (s00 s01 s10 s11 fr fc : Byte),
    (bilerpFX s00 s01 s10 s11 fr.toNat fc.toNat).toNat =
        bilinearAcc s00.toNat s01.toNat s10.toNat s11.toNat fr.toNat fc.toNat / 2 ^ 16 ∧
      ((∀ x ∈ [s00, s01, s10, s11], x = 0 ∨ x = 255) → bilerpFX s00 s01 s10 s11 fr.toNat fc.toNat = 255 →
        let w := bilinearWeights fr.toNat fc.toNat
        (s00 = 0 → w.1 = 0) ∧ (s01 = 0 → w.2.1 = 0) ∧ (s10 = 0 → w.2.2.1 = 0) ∧ (s11 = 0 → w.2.2.2 = 0))) ∧
    (∀ x fr fc : Byte, bilerpFX x x x x fr.toNat fc.toNat = x) ∧ bilerpFX 0 255 0 255 0 255 = 254

/-! ## The histogram window (40_histogram_window R100 to R110) -/

/-- R105, R106: where the bus answers every access, HIST_INIT(r) and HIST_SLIDE(r, 1) to (r, c) raise no error, ERR_INVARIANT
least of all, and leave in every used channel the direct count over the clipped window, whatever the store held before. -/
def Obligations.HistogramIsTheDirectCount : Prop :=
  ∀ (cfg : Config) (j : Job) (h0 : Hist) (sigma k r c : Nat), j.kernel = .sigma sigma k → j.Legal → j.busOk cfg → r < j.h → c < j.w →
    ∃ h p, windowAfter cfg j k h0 r c = .ok (h, p) ∧ (p.r0, p.r1) = j.band k r ∧ h.Matches j k r c

/-- R107: the window of a pixel contains it, has the size N(r, c) >= 1, and the counters of every used channel sum to that. -/
def Obligations.CountersSumToWindowSize : Prop :=
  ∀ (h : Hist) (j : Job) (k r c ch : Nat), j.Legal → j.hasSample r c ch → h.Matches j k r c →
    (r, c) ∈ j.window k r c ∧ h.total ch 0 255 = (j.window k r c).length ∧
      (j.window k r c).length = (min (j.h - 1) (r + k) - (r - k) + 1) * (min (j.w - 1) (c + k) - (c - k) + 1) ∧
      1 ≤ (j.window k r c).length

/-! ## The sigma filter (41_sigma_filter R120 to R131) -/

/-- R129: SigmaValue on the window's histogram is the closed form over the window's samples. -/
def Obligations.SigmaValueHasClosedForm : Prop :=
  ∀ (h : Hist) (j : Job) (sigma k r c ch : Nat), j.Legal → j.hasSample r c ch → h.Matches j k r c →
    sigmaValue h ch sigma (j.input r c ch) = j.sigmaResult sigma k r c ch

/-- R123: the rounding of sum / n = q + f / n gives q + 1 exactly when f >= n - n div 2. -/
def Obligations.RoundedMeanRoundsHalfUp : Prop :=
  ∀ sum n : Nat, 0 < n → roundedMean sum n = sum / n + if n - n / 2 ≤ sum % n then 1 else 0

/-- R125: whatever the histogram holds, a SIGMA output lies between lo and hi. -/
def Obligations.SigmaValueStaysInItsWindow : Prop :=
  ∀ (h : Hist) (ch sigma : Nat) (v : Byte),
    v.toNat - sigma ≤ (sigmaValue h ch sigma v).toNat ∧ (sigmaValue h ch sigma v).toNat ≤ min 255 (v.toNat + sigma)

/-- R126, R128: sigma 0 gives the centre sample whatever the histogram holds, and radius 0 gives the input sample whatever sigma
is. -/
def Obligations.SigmaIdentities : Prop :=
  (∀ (h : Hist) (ch : Nat) (v : Byte), sigmaValue h ch 0 v = v) ∧
    ∀ (j : Job) (sigma r c ch : Nat), j.Legal → j.hasSample r c ch → j.sigmaResult sigma 0 r c ch = j.input r c ch

/-- R127: sigma 255 gives the rounded mean of all the window's samples. -/
def Obligations.SigmaBoxMean : Prop :=
  ∀ (j : Job) (k r c ch : Nat), j.Legal → j.hasSample r c ch →
    j.sigmaResult 255 k r c ch =
      BitVec.ofNat 8 (((((j.window k r c).map fun p => (j.input p.1 p.2 ch).toNat).sum + (j.window k r c).length / 2) /
        (j.window k r c).length))

/-- R120, R129, R130: an accepted SIGMA that nothing disturbs completes with OK, writes the closed form to every output sample,
leaves every byte outside the output buffer, counts W * H pixels, and changes nothing else but the histogram store and the model's
own fields. -/
def Obligations.SigmaFiltersTheImage : Prop :=
  ∀ (s : State), s.busy = false → s.mem.wf → s.regs.imageLegal → s.sigmaJob.onDevice s.cfg = false → s.sigmaJob.busOk s.cfg →
    s.undisturbed (s.regs.len + 1) →
    ∃ hist mem n,
      exec .sigma s = .next { s with
        regs := { s.regs with
          cmd := 1, done := true, err := .ok, errInfo := 0, wcount := BitVec.ofNat 32 (s.regs.w * s.regs.h) }
        hist := hist, mem := mem, draws := n, watch := s.sigmaJob :: s.watch } ∧
      mem.wf ∧
      (∀ r c ch, r < s.regs.h → c < s.regs.w → ch < s.regs.c →
        mem.read (s.regs.dst + ((r * s.regs.w + c) * s.regs.c + ch)) =
          s.sigmaJob.sigmaResult s.regs.sigmaValue s.regs.k r c ch) ∧
      ∀ a, ¬ (s.regs.dst ≤ a ∧ a < s.regs.dst + s.regs.len) → mem.read a = s.mem.read a

/-! ## The fixed-point rotation (45_fixed_point_rotation R200 to R214) -/

/-- R200, R207, R208, R209: an accepted ROTFX that nothing disturbs completes with OK, interpolates every sample of every touched
pixel, leaves every other byte of memory, counts the touched pixels, writes TRIG_Q when TRIG_SRC = 0, and changes nothing else but
the histogram store and the model's own fields. -/
def Obligations.RotfxRotatesTheImage : Prop :=
  ∀ (s : State), s.busy = false → s.mem.wf → s.regs.imageLegal →
    (s.regs.trigSrc = true → coefficientLegal s.regs.cq ∧ coefficientLegal s.regs.sq) →
    s.rotfxJob.onDevice s.cfg = false → s.rotfxJob.busOk s.cfg → s.undisturbed (s.regs.len + 1) →
    ∃ hist mem n,
      exec .rotfx s = .next { s with
        regs := { s.regs with
          cmd := 2, done := true, err := .ok, errInfo := 0, wcount := BitVec.ofNat 32 s.rotfxJob.writePixels.length
          cosq := if s.regs.trigSrc then s.regs.cosq else BitVec.ofInt 16 s.coefficients.1
          sinq := if s.regs.trigSrc then s.regs.sinq else BitVec.ofInt 16 s.coefficients.2 }
        hist := hist, mem := mem, draws := n, watch := s.rotfxJob :: s.watch } ∧
      mem.wf ∧
      (∀ r c ch, r < s.regs.h → c < s.regs.w → ch < s.regs.c →
        mem.read (s.regs.dst + ((r * s.regs.w + c) * s.regs.c + ch)) =
          if (mapSource s.coefficients.1 s.coefficients.2 s.regs.w s.regs.h r c).touched s.regs.w s.regs.h then
            s.rotfxJob.rotResult s.coefficients.1 s.coefficients.2 r c ch
          else s.mem.read (s.regs.dst + ((r * s.regs.w + c) * s.regs.c + ch))) ∧
      ∀ a, ¬ (s.regs.dst ≤ a ∧ a < s.regs.dst + s.regs.len) → mem.read a = s.mem.read a

/-- R213: with one row or one column ROTFX touches no pixel and leaves memory as it is, whatever the bus answers. -/
def Obligations.RotfxOfOneRowOrColumnWritesNothing : Prop :=
  ∀ (s : State), s.busy = false → s.regs.imageLegal → s.regs.h < 2 ∨ s.regs.w < 2 →
    (s.regs.trigSrc = true → coefficientLegal s.regs.cq ∧ coefficientLegal s.regs.sq) →
    s.rotfxJob.onDevice s.cfg = false → s.undisturbed (s.regs.len + 1) →
    ∃ hist n,
      exec .rotfx s = .next { s with
        regs := { s.regs with
          cmd := 2, done := true, err := .ok, errInfo := 0, wcount := 0
          cosq := if s.regs.trigSrc then s.regs.cosq else BitVec.ofInt 16 s.coefficients.1
          sinq := if s.regs.trigSrc then s.regs.sinq else BitVec.ofInt 16 s.coefficients.2 }
        hist := hist, draws := n, watch := s.rotfxJob :: s.watch }

/-- R212: ROTFX with the coefficients (cq, sq) is the reference rotation with cos = cq / 256 and sin = sq / 256: the same pixels
touched, the same samples, and so the same whole image from the same prior output. -/
def Obligations.RotfxEqualsReference : Prop :=
  (∀ (j : Job) (cq sq : Int) (r c ch : Nat), j.hasSample r c ch →
    ((mapSource cq sq j.w j.h r c).touched j.w j.h = true ↔ refTouches ((cq : ℚ) / 256) ((sq : ℚ) / 256) j.w j.h r c) ∧
      ((mapSource cq sq j.w j.h r c).touched j.w j.h = true →
        ((j.rotResult cq sq r c ch).toNat : ℤ) = refSample j ((cq : ℚ) / 256) ((sq : ℚ) / 256) r c ch)) ∧
    ∀ (j : Job) (cq sq : Int) (before : Option Word) (prior : Nat → Nat → Nat → Int) (r c ch : Nat),
      j.kernel = .rotfx cq sq before → j.hasSample r c ch →
        refImage j ((cq : ℚ) / 256) ((sq : ℚ) / 256) prior r c ch =
          if j.writes r c then ((j.newValue r c ch).toNat : ℤ) else prior r c ch

/-- R202, R203: the integer position and the fraction are the floor and the rest of the source coordinate, for every sign. -/
def Obligations.SourcePositionAndFraction : Prop :=
  ∀ (cq sq : Int) (w h row col : Nat),
    let m := mapSource cq sq w h row col
    m.sr = 256 * (m.ir - m.hh) + m.fr ∧ m.sc = 256 * (m.ic - m.hw) + m.fc ∧ m.fr ≤ 255 ∧ m.fc ≤ 255

/-- R205: within the legal ranges no source coordinate leaves 25 signed bits. -/
def Obligations.RotationFitsItsDatapath : Prop :=
  ∀ (cq sq : Int) (w h row col : Nat), coefficientLegal cq → coefficientLegal sq → w ≤ 65535 → h ≤ 65535 → row < h → col < w →
    let m := mapSource cq sq w h row col
    m.sr ≤ 16776704 ∧ -16776704 ≤ m.sr ∧ m.sc ≤ 16776704 ∧ -16776704 ≤ m.sc

/-- R206: every input sample a touched pixel needs lies in the input buffer, in the pixel's own channel; at an untouched pixel the
block reads nothing: whatever the bus answers, its step only passes the pixel. -/
def Obligations.TouchedPixelReadsInsideTheBuffer : Prop :=
  (∀ (j : Job) (cq sq : Int) (before : Option Word) (r c ch : Nat), j.kernel = .rotfx cq sq before → (r, c, ch) ∈ j.writeSet →
    ∀ a ∈ j.needs r c ch, j.inInput a = true ∧ (a - j.src) % j.c = ch) ∧
    ∀ (s : State) (j : Job) (cq sq : Int) (before : Option Word) (p : Pos), j.kernel = .rotfx cq sq before → j.Legal →
      p.row < j.h → p.col < j.w → p.ch < j.c → j.writes p.row p.col = false →
        imageStep j p s = .next { s with phase := .image j (p.nextPixel j) }

/-- R210: with (256, 0) each pixel maps to itself with fractions 0, the touched pixels are those off the last row and column, each
gets its own input value, and there are (H - 1) * (W - 1) of them. R151: the reference rotation at angle 0 likewise maps each pixel to itself and writes exactly
those pixels, each with its own input value. R150: with fewer than two rows or columns the reference writes nothing at any angle. -/
def Obligations.AngleZeroCopiesTheInterior : Prop :=
  (∀ (j : Job) (r c ch : Nat), j.hasSample r c ch →
    let m := mapSource 256 0 j.w j.h r c
    (m.ir = r ∧ m.fr = 0 ∧ m.ic = c ∧ m.fc = 0) ∧ (m.touched j.w j.h = true ↔ r + 2 ≤ j.h ∧ c + 2 ≤ j.w) ∧
      (r + 2 ≤ j.h → c + 2 ≤ j.w → j.rotResult 256 0 r c ch = j.input r c ch)) ∧
    (∀ (j : Job) (before : Option Word), j.kernel = .rotfx 256 0 before → 2 ≤ j.h → 2 ≤ j.w →
      j.writePixels.length = (j.h - 1) * (j.w - 1)) ∧
    (∀ (j : Job) (prior : Nat → Nat → Nat → Int) (r c ch : Nat), j.hasSample r c ch →
      (refIntRow (Real.cos 0) (Real.sin 0) j.w j.h r c = r ∧ refIntCol (Real.cos 0) (Real.sin 0) j.w j.h r c = c ∧
        Int.fract (refRow (Real.cos 0) (Real.sin 0) j.w j.h r c) = 0 ∧
        Int.fract (refCol (Real.cos 0) (Real.sin 0) j.w j.h r c) = 0) ∧
        rotRef j 0 prior r c ch = if r + 2 ≤ j.h ∧ c + 2 ≤ j.w then ((j.input r c ch).toNat : ℤ) else prior r c ch) ∧
    ∀ (j : Job) (theta : ℝ) (prior : Nat → Nat → Nat → Int), j.h < 2 ∨ j.w < 2 → rotRef j theta prior = prior

/-! ## Run-time errors and resets (60_exceptions R312, R313; 70_reset_and_hazards R400 to R403) -/

/-- R313: an accepted SIGMA that meets a bus error ends with ERR_BUS and the address of an access it needs, to a sample it reads for
some output or to one it writes, that the bus answers with an error. Each sample of the write set is old or new, a sample that needed the failed read is old, no other byte changes, and WCOUNT is at most the pixels of the write
set. -/
def Obligations.SigmaBusErrorEndsTheCommand : Prop :=
  ∀ (s : State), s.busy = false → s.mem.wf → s.regs.imageLegal → s.sigmaJob.onDevice s.cfg = false →
    ¬ s.sigmaJob.busOk s.cfg → s.undisturbed (s.regs.len + 1) →
    ∃ a count hist mem n, s.cfg.busErrAt a = true ∧
      (∃ r c ch, (r, c, ch) ∈ s.sigmaJob.writeSet ∧ (a ∈ s.sigmaJob.needs r c ch ∨ a = s.sigmaJob.outAddr r c ch)) ∧
      (s.sigmaJob.inInput a = true ∨ s.sigmaJob.inOutput a = true) ∧ count ≤ s.sigmaJob.writePixels.length ∧
      exec .sigma s = .next { s with
        regs := { s.regs with
          cmd := 1, done := true, err := .bus, errInfo := BitVec.ofNat 32 a, wcount := BitVec.ofNat 32 count }
        hist := hist, mem := mem, draws := n, watch := s.sigmaJob :: s.watch } ∧
      mem.wf ∧ s.sigmaJob.leavesOldOrNew s.mem mem ∧
      ∀ r c ch, (r, c, ch) ∈ s.sigmaJob.writeSet → a ∈ s.sigmaJob.needs r c ch →
        mem.read (s.sigmaJob.outAddr r c ch) = s.mem.read (s.sigmaJob.outAddr r c ch)

/-- R313, R214: the same for ROTFX; with TRIG_SRC = 0 TRIG_Q keeps the LUT's values. -/
def Obligations.RotfxBusErrorEndsTheCommand : Prop :=
  ∀ (s : State), s.busy = false → s.mem.wf → s.regs.imageLegal →
    (s.regs.trigSrc = true → coefficientLegal s.regs.cq ∧ coefficientLegal s.regs.sq) →
    s.rotfxJob.onDevice s.cfg = false → ¬ s.rotfxJob.busOk s.cfg → s.undisturbed (s.regs.len + 1) →
    ∃ a count hist mem n, s.cfg.busErrAt a = true ∧
      (∃ r c ch, (r, c, ch) ∈ s.rotfxJob.writeSet ∧ (a ∈ s.rotfxJob.needs r c ch ∨ a = s.rotfxJob.outAddr r c ch)) ∧
      (s.rotfxJob.inInput a = true ∨ s.rotfxJob.inOutput a = true) ∧ count ≤ s.rotfxJob.writePixels.length ∧
      exec .rotfx s = .next { s with
        regs := { s.regs with
          cmd := 2, done := true, err := .bus, errInfo := BitVec.ofNat 32 a, wcount := BitVec.ofNat 32 count
          cosq := if s.regs.trigSrc then s.regs.cosq else BitVec.ofInt 16 s.coefficients.1
          sinq := if s.regs.trigSrc then s.regs.sinq else BitVec.ofInt 16 s.coefficients.2 }
        hist := hist, mem := mem, draws := n, watch := s.rotfxJob :: s.watch } ∧
      mem.wf ∧ s.rotfxJob.leavesOldOrNew s.mem mem ∧
      ∀ r c ch, (r, c, ch) ∈ s.rotfxJob.writeSet → a ∈ s.rotfxJob.needs r c ch →
        mem.read (s.rotfxJob.outAddr r c ch) = s.mem.read (s.rotfxJob.outAddr r c ch)

/-- R400, R402, R403: the reset input, and a host write to CTRL with bit 0 set whatever else the word holds, whether or not a command
runs: every register takes its reset value and the block is idle. Where no image command ran memory is as it was (an inference,
log 1); the samples an aborted command writes are old or new, and no other byte changes. That a reset leaves the buffers of 20_memory
R71 open until DONE = 1 is observed (`watch` unchanged) is the model's reading of R71 (log 8). -/
def Obligations.ResetFromEveryState : Prop :=
  ∀ (s : State) (d : Nat) (m : Move) (rest : List Pending), s.Inv → s.inbox = { after := d, move := m } :: rest →
    (m = .hardReset ∨ ∃ w : Word, w.getLsbD 0 = true ∧ m = .write (regAddr s.cfg .ctrl) (bytesOfWord w)) →
    ∃ hist mem n,
      step s = .next { s with
        regs := Regs.reset, phase := .idle, hist := hist, mem := mem, inbox := rest, draws := n } ∧
      mem.wf ∧ ((∀ j p, s.phase ≠ .image j p) → mem = s.mem) ∧
      ∀ j p, s.phase = .image j p → j.leavesOldOrNew s.mem mem

/-! ## The register window (10_state R20 to R40, 20_memory R60, R61) -/

/-- R20, R21, R401: the block is IDLE right after reset, and what an aligned 32-bit read of each offset answers then, on every
platform. -/
def Obligations.ResetValuesRead : Prop :=
  ∀ (cfg : Config) (off : BitVec 8), off.toNat % 4 = 0 →
    (State.resetOn cfg).phase = .idle ∧ (hostRead off 4 (State.resetOn cfg)).1 = bytesOfWord
      (if off = 0x00 then 0x53460007 else if off = 0x1C then 0x00000001 else if off = 0x20 then 0x00010000
        else if off = 0x28 then 0x00000100 else 0)

/-- R60, R20: each register answers at REG_BASE plus its offset, and an access outside the window is no access to the block. That an
access belongs to the window by its first byte, so that one which begins below it and reaches into it is none of the block's and gets
no answer, is the model's choice (log 19). -/
def Obligations.WindowLiesAtRegBase : Prop :=
  (∀ (cfg : Config) (reg : Reg),
      windowOffset cfg (regAddr cfg reg) = some reg.offset ∧ Reg.atOffset reg.offset = some reg ∧
        (regAddr cfg reg).toNat = cfg.regBase.toNat + reg.offset.toNat) ∧
    ∀ (s : State) (d : Nat) (addr : Word) (data : List Byte) (width : Nat) (rest : List Pending),
      ¬ (s.cfg.regBase.toNat ≤ addr.toNat ∧ addr.toNat < s.cfg.regBase.toNat + 256) →
        (s.inbox = { after := d, move := .write addr data } :: rest → step s = runOn { s with inbox := rest }) ∧
          (s.inbox = { after := d, move := .read addr width } :: rest → step s = runOn { s with inbox := rest })

/-- R61, R37: an access that is not an aligned 32-bit one, or at a reserved offset, changes nothing, and such a read answers 0 in
every byte. -/
def Obligations.UndefinedAccessIsIgnored : Prop :=
  ∀ (s : State) (off : BitVec 8) (data : List Byte) (width : Nat),
    (data.length ≠ 4 ∨ off.toNat % 4 ≠ 0 ∨ 0x40 ≤ off.toNat → hostWrite off data s = runOn s) ∧
      (width ≠ 4 ∨ off.toNat % 4 ≠ 0 ∨ 0x40 ≤ off.toNat → hostRead off width s = (List.replicate width 0, s))

/-- R21, R34, R35, R36: a write to a read-only register changes nothing. -/
def Obligations.ReadOnlyRegistersKeepTheirValue : Prop :=
  ∀ (s : State) (d : Nat) (reg : Reg) (w : Word) (rest : List Pending), reg ∈ [.id, .blResult, .wcount, .errInfo] →
    s.inbox = { after := d, move := .write (regAddr s.cfg reg) (bytesOfWord w) } :: rest →
      step s = runOn { s with inbox := rest }

/-- R22, R25 to R33, R37, R415: a write to a parameter register of an idle block, or to CTRL without bit 0, leaves exactly its
fields: the register then reads the written word less its reserved bits, and every other register, memory and everything else is as
it was. -/
def Obligations.ParameterWriteIsReadBack : Prop :=
  ∀ (s : State) (d : Nat) (reg : Reg) (w : Word) (rest : List Pending), s.busy = false →
    (reg ∈ parameterRegs ∨ (reg = .ctrl ∧ w.getLsbD 0 = false)) →
    s.inbox = { after := d, move := .write (regAddr s.cfg reg) (bytesOfWord w) } :: rest →
      ∃ regs, step s = .next { s with inbox := rest, regs := regs } ∧ Reg.value regs false reg = w &&& storedBits reg ∧
        ∀ other, other ≠ reg → Reg.value regs false other = Reg.value s.regs false other

/-- R415, R61: in every state, idle or running, an aligned 32-bit read answers the register's word in little-endian lanes, and the
block goes on from the same state; a read of STATUS with DONE = 1 is the host observing the command's end (R71; the watch field,
log 8). Where the running command races with the read (TRIG_Q in a ROTFX that writes it, R418; TRIG_Q in a TRIG and BL_RESULT in a
BILERP, log 14) the answer is that word or the other one, by a free value (log 3); in an idle block nothing races. -/
def Obligations.RegisterReadAnswersItsWord : Prop :=
  ∀ (s : State) (d : Nat) (reg : Reg) (rest : List Pending),
    s.inbox = { after := d, move := .read (regAddr s.cfg reg) 4 } :: rest →
      (s.busy = false → s.racingWord reg = none) ∧
        (reg ≠ .trigQ → reg ≠ .blResult → s.racingWord reg = none) ∧
        (s.racingWord reg = none → step s = runOn { s with
          inbox := rest
          outbox := s.outbox ++ [.window (bytesOfWord (Reg.value s.regs s.busy reg))]
          watch := if reg = .status ∧ s.regs.done = true then [] else s.watch }) ∧
        ∀ w, s.racingWord reg = some w →
          ∃ v, (v = w ∨ v = Reg.value s.regs s.busy reg) ∧ step s = runOn { s with
            inbox := rest, outbox := s.outbox ++ [.window (bytesOfWord v)], draws := s.draws + 1 }

/-- R40: while a command runs, a write to a parameter register changes nothing, and a write to CTRL without bit 0 changes IRQ_EN
alone; CTRL.SRST and the W1C bits of STATUS still take effect. -/
def Obligations.ParametersStandWhileBusy : Prop :=
  ∀ (s : State) (w : Word), s.busy = true →
    (∀ reg ∈ parameterRegs, hostWriteReg reg w s = s) ∧
      (w.getLsbD 0 = false → hostWriteReg .ctrl w s = { s with regs := { s.regs with irqEn := w.getLsbD 1 } }) ∧
      (w.getLsbD 0 = true → (hostWriteReg .ctrl w s).busy = false ∧ (hostWriteReg .ctrl w s).regs = Regs.reset) ∧
      ((w.getLsbD 1 = true → (hostWriteReg .status w s).regs.done = false) ∧
        (w.getLsbD 2 = true → (hostWriteReg .status w s).regs.cmdOvr = false) ∧ (hostWriteReg .status w s).busy = true)

/-- R24, R322: a write to STATUS clears DONE and CMD_OVR where it has a 1 and changes nothing else, in every phase. -/
def Obligations.StatusBitsClearByWritingOne : Prop :=
  ∀ (s : State) (d : Nat) (w : Word) (rest : List Pending),
    s.inbox = { after := d, move := .write (regAddr s.cfg .status) (bytesOfWord w) } :: rest →
      step s = runOn { s with
        inbox := rest
        regs := { s.regs with
          done := if w.getLsbD 1 then false else s.regs.done
          cmdOvr := if w.getLsbD 2 then false else s.regs.cmdOvr } }

/-- R320: `irq` is DONE and IRQ_EN, and after the acknowledgement of R322 it is low, with nothing but DONE changed. That looking at
the line is a host move which answers that level is the model's (logs 6, 15), and that a high level is an observation of DONE = 1,
which closes the buffers' window, its reading of R71 and R413 (log 8). -/
def Obligations.InterruptFollowsDoneAndEnable : Prop :=
  ∀ (s : State) (d : Nat) (rest : List Pending),
    (s.irq = true ↔ s.regs.done = true ∧ s.regs.irqEn = true) ∧
      (s.busy = false → s.inbox = { after := d, move := .senseIrq } :: rest →
        step s = .next { s with
          inbox := rest, outbox := s.outbox ++ [.irq (s.regs.done && s.regs.irqEn)]
          watch := if s.regs.done = true ∧ s.regs.irqEn = true then [] else s.watch }) ∧
      (s.busy = false → s.inbox = { after := d, move := .write (regAddr s.cfg .status) (bytesOfWord 0x00000002) } :: rest →
        ∃ t, step s = .next t ∧ t.irq = false ∧ t = { s with inbox := rest, regs := { s.regs with done := false } })

/-- R24, R47: the bits of the STATUS word. -/
def Obligations.StatusWordBits : Prop :=
  ∀ (r : Regs) (busy : Bool),
    (r.statusWord busy).getLsbD 0 = busy ∧ (r.statusWord busy).getLsbD 1 = r.done ∧ (r.statusWord busy).getLsbD 2 = r.cmdOvr ∧
      (r.statusWord busy).toNat / 256 = r.err.code.toNat ∧ (r.statusWord busy).toNat % 256 / 8 = 0 ∧ r.err.code.toNat ≤ 8

/-! ## Moves that land while a command is open (20_memory R71, 70_reset_and_hazards R416, R418) -/

/-- R418: while a ROTFX that takes its coefficients from the LUT runs, a read of TRIG_Q answers its value before the command or the
value the command wrote, and which of them is free (log 3). While a TRIG runs the model admits both likewise: the spec states no value
there (log 14). -/
def Obligations.TrigQReadDuringRotation : Prop :=
  (∀ (s : State) (j : Job) (p : Pos) (cq sq : Int) (before : Word),
    s.phase = .image j p → j.kernel = .rotfx cq sq (some before) →
      (hostReadReg .trigQ s).2 = { s with draws := s.draws + 1 } ∧
        ((hostReadReg .trigQ s).1 = before ∨ (hostReadReg .trigQ s).1 = s.regs.sinq ++ s.regs.cosq)) ∧
    ∀ s : State, s.phase = .trig →
      (hostReadReg .trigQ s).2 = { s with draws := s.draws + 1 } ∧
        ((hostReadReg .trigQ s).1 = s.regs.sinq ++ s.regs.cosq ∨
          (hostReadReg .trigQ s).1 = BitVec.ofInt 16 (trigLUT s.cfg.trigQuant s.regs.angle).2 ++
            BitVec.ofInt 16 (trigLUT s.cfg.trigQuant s.regs.angle).1)

/-- R71, R416: from the start of an image command until the host observes DONE = 1 a host read of a byte of its write set answers its
value before the command or the value the command gives it, a free choice (log 3); any other byte reads as memory holds it. Which
commands are open is the model's watch field, and where several of them write the byte the choice is among all their values (log 8). -/
def Obligations.OutputByteReadsOldOrNew : Prop :=
  ∀ (s : State) (addr : Word),
    ((∃ j ∈ s.watch, ∃ r c ch, (r, c, ch) ∈ j.writeSet ∧ addr.toNat = j.outAddr r c ch) →
      (∃ j ∈ s.watch, ∃ r c ch, (r, c, ch) ∈ j.writeSet ∧ addr.toNat = j.outAddr r c ch ∧
        ((hostMemRead addr s).1 = j.mem0.read addr.toNat ∨ (hostMemRead addr s).1 = j.newValue r c ch)) ∧
      (hostMemRead addr s).2 = { s with draws := s.draws + 1 }) ∧
      ((∀ j ∈ s.watch, ∀ r c ch, (r, c, ch) ∈ j.writeSet → addr.toNat ≠ j.outAddr r c ch) →
        hostMemRead addr s = (s.mem.read addr.toNat, s))

/-- R71: a host write to a byte of either buffer of an open command is refused; elsewhere in ordinary memory it stores the byte, also
where the bus answers the block with an error (log 21). Which commands are open, up to the host's observation of DONE = 1 and through
a reset, is the model's watch field (log 8). -/
def Obligations.OpenBuffersAreNotWritten : Prop :=
  ∀ (s : State) (d : Nat) (addr : Word) (v : Byte) (rest : List Pending),
    s.inbox = { after := d, move := .memWrite addr v } :: rest → s.cfg.deviceAt addr.toNat = false →
      ((∃ j ∈ s.watch, j.inInput addr.toNat = true ∨ j.inOutput addr.toNat = true) → step s = .refused .hostWroteBuffer) ∧
        ((∀ j ∈ s.watch, j.inInput addr.toNat = false ∧ j.inOutput addr.toNat = false) →
          step s = runOn { s with inbox := rest, mem := s.mem.write addr.toNat v })

/-! ## Invariants, over every state -/

/-- The reset state meets the invariant, on every platform. -/
def Obligations.ResetMeetsInvariant : Prop :=
  ∀ cfg : Config, (State.resetOn cfg).Inv ∧ (State.resetOn cfg).RunInv

/-- Every step keeps the invariant: memory stays in canonical form, and a running command stays one the checks admit, with its
sequencer in the image, its parameters in the registers and its flags as its start left them. -/
def Obligations.EveryStepKeepsInvariant : Prop :=
  ∀ s t : State, s.Inv → step s = .next t → t.Inv

/-- Every step keeps what a running image command has done so far: the new values up to the sequencer, the old ones after it, the
input, WCOUNT, and the histogram of the window. -/
def Obligations.EveryStepKeepsRunProgress : Prop :=
  ∀ s t : State, s.Inv → s.RunInv → step s = .next t → t.RunInv

/-- Under the invariant no step ends in a fault: a step answers a next state, or refuses a move the spec gives no meaning (R65,
R71). -/
def Obligations.NoStepFaults : Prop :=
  ∀ s : State, s.Inv → ∀ f, step s ≠ .fault f

/-- R420, R404: with no move pending, one step takes the block to IDLE, and an idle block waits. -/
def Obligations.CommandsEnd : Prop :=
  ∀ s : State, s.Inv → s.inbox = [] →
    (∃ t, step s = .next t ∧ t.phase = .idle) ∧ (s.busy = false → step s = .next s)

/-- R106: from a state whose histogram is in order, no step of the block ends a command with ERR_INVARIANT. -/
def Obligations.InvariantErrorNeverRaised : Prop :=
  ∀ (s t : State), s.Inv → s.RunInv → s.busy = true → blockStep s = .next t → t.regs.err ≠ .invariant

/-- 00_scope R9: no step changes the platform's parameters. -/
def Obligations.PlatformStands : Prop :=
  ∀ s t : State, step s = .next t → t.cfg = s.cfg
end

