-- ==== Sys2Proof/Laws/Trig.lean ====
section
/-! SUPPORT. The error bound of the trig LUT's computation: `trigPoint` is within `trigError` of cos and sin (43_trig_lut R164). -/

namespace Sys2Proof.Machine

open Complex Finset

/-- The sum's numerators over its denominator are the Taylor polynomial of exp at i * n / 2^32. -/
theorem taylorSum_spec (n : Int) (m : Nat) :
    ((taylorSum n m).den : ℂ) = (2 ^ 32) ^ m * (m.factorial : ℂ) ∧
      ((taylorSum n m).powRe : ℂ) + (taylorSum n m).powIm * I = ((n : ℂ) * I) ^ m ∧
      (((taylorSum n m).re : ℂ) + (taylorSum n m).im * I) / (taylorSum n m).den =
        ∑ i ∈ range (m + 1), ((n : ℂ) / 2 ^ 32 * I) ^ i / (i.factorial : ℂ) := by
  induction m with
  | zero => simp [taylorSum]
  | succ m ih =>
    obtain ⟨hd, hp, hs⟩ := ih
    have hd0 : ((taylorSum n m).den : ℂ) ≠ 0 := by
      rw [hd]
      have : (m.factorial : ℂ) ≠ 0 := by exact_mod_cast m.factorial_ne_zero
      exact mul_ne_zero (pow_ne_zero _ (pow_ne_zero _ two_ne_zero)) this
    have hm : ((m : ℂ) + 1) ≠ 0 := by exact_mod_cast m.succ_ne_zero
    have hp' : (((taylorSum n (m + 1)).powRe : ℤ) : ℂ) + (taylorSum n (m + 1)).powIm * I = ((n : ℂ) * I) ^ (m + 1) := by
      rw [pow_succ, ← hp]
      simp only [taylorSum]
      push_cast
      linear_combination (-(n : ℂ) * (taylorSum n m).powIm) * I_mul_I
    refine ⟨?_, hp', ?_⟩
    · simp only [taylorSum]
      push_cast [hd, Nat.factorial_succ]
      ring
    · rw [sum_range_succ, ← hs, div_pow_mul_aux n m, ← hp']
      simp only [taylorSum]
      push_cast
      rw [Nat.factorial_succ]
      push_cast
      rw [show ((2 : ℂ) ^ 32) ^ (m + 1) * (((m : ℂ) + 1) * (m.factorial : ℂ)) = (taylorSum n m).den * (2 ^ 32 * (m + 1)) by
        rw [hd]; ring]
      field_simp
      ring
where
  div_pow_mul_aux (n : Int) (m : Nat) :
      ((n : ℂ) / 2 ^ 32 * I) ^ (m + 1) / ((m + 1).factorial : ℂ) =
        ((n : ℂ) * I) ^ (m + 1) / ((2 ^ 32) ^ (m + 1) * ((m + 1).factorial : ℂ)) := by
    rw [div_mul_eq_mul_div, div_pow, div_div]

/-- The scale as a real number is positive. -/
theorem trigScale_pos : (0 : ℝ) < trigScale := by
  have : 0 < trigScale := Nat.two_pow_pos 192
  exact_mod_cast this

/-- A point of the fixed-point plane as a complex number. -/
noncomputable def asComplex (p : Int × Int) : ℂ :=
  ((p.1 : ℂ) + p.2 * I) / trigScale

/-- Cutting a fraction to the scale is off by at most one unit. -/
theorem cut_error (a : Int) (d : Nat) (hd : 0 < d) : |((a / d : Int) : ℝ) - (a : ℝ) / d| ≤ 1 := by
  have h1 := Int.emod_add_mul_ediv a d
  have h2 := Int.emod_nonneg a (by omega : (d : Int) ≠ 0)
  have h3 := Int.emod_lt_of_pos a (by omega : (0 : Int) < d)
  have hd' : (0 : ℝ) < d := by exact_mod_cast hd
  have h4 : (a : ℝ) = ((a % d : Int) : ℝ) + d * ((a / d : Int) : ℝ) := by exact_mod_cast h1.symm
  have h5 : ((a / d : Int) : ℝ) - (a : ℝ) / d = -(((a % d : Int) : ℝ) / d) := by
    rw [h4]; field_simp; ring
  have h6 : (0 : ℝ) ≤ ((a % d : Int) : ℝ) := by exact_mod_cast h2
  have h7 : ((a % d : Int) : ℝ) ≤ d := by exact_mod_cast h3.le
  rw [h5, abs_neg, abs_of_nonneg (by positivity), div_le_one hd']
  exact h7

/-- A complex number is at most the sum of its parts. -/
theorem norm_le_parts (x y : ℝ) : ‖(x : ℂ) + y * I‖ ≤ |x| + |y| := by
  calc ‖(x : ℂ) + y * I‖ ≤ ‖(x : ℂ)‖ + ‖(y : ℂ) * I‖ := norm_add_le _ _
    _ = |x| + |y| := by simp

/-- Cutting both parts of a point is off by at most two units. -/
theorem cut_point_error (a b : Int) (d : Nat) (hd : 0 < d) :
    ‖asComplex (a / d, b / d) - ((a : ℂ) + b * I) / d / trigScale‖ ≤ 2 / trigScale := by
  have hS := trigScale_pos
  have e : asComplex (a / d, b / d) - ((a : ℂ) + b * I) / d / trigScale =
      (((((a / d : Int) : ℝ) - (a : ℝ) / d : ℝ) : ℂ) + ((((b / d : Int) : ℝ) - (b : ℝ) / d : ℝ) : ℂ) * I) / trigScale := by
    unfold asComplex; push_cast; ring
  rw [e, norm_div]
  have : ‖(trigScale : ℂ)‖ = trigScale := by simp
  rw [this]
  gcongr
  calc _ ≤ |((a / d : Int) : ℝ) - (a : ℝ) / d| + |((b / d : Int) : ℝ) - (b : ℝ) / d| := norm_le_parts _ _
    _ ≤ 1 + 1 := add_le_add (cut_error a d hd) (cut_error b d hd)
    _ = 2 := by norm_num

/-- The sum cut to the scale is within 2 units of the Taylor polynomial of exp at i * n / 2^32. -/
theorem taylorSum_error (n : Int) (m : Nat) :
    ‖asComplex ((taylorSum n m).re * trigScale / (taylorSum n m).den, (taylorSum n m).im * trigScale / (taylorSum n m).den) -
      ∑ i ∈ range (m + 1), ((n : ℂ) / 2 ^ 32 * I) ^ i / (i.factorial : ℂ)‖ ≤ 2 / trigScale := by
  obtain ⟨hd, -, hs⟩ := taylorSum_spec n m
  have hS0 : (trigScale : ℂ) ≠ 0 := by exact_mod_cast trigScale_pos.ne'
  have hd0 : ((taylorSum n m).den : ℂ) ≠ 0 := by
    rw [hd]
    have : (m.factorial : ℂ) ≠ 0 := by exact_mod_cast m.factorial_ne_zero
    exact mul_ne_zero (pow_ne_zero _ (pow_ne_zero _ two_ne_zero)) this
  have hdpos : 0 < (taylorSum n m).den := Nat.pos_of_ne_zero fun h => hd0 (by rw [h]; simp)
  rw [← hs]
  generalize taylorSum n m = t at *
  have h1 := cut_point_error (t.re * trigScale) (t.im * trigScale) _ hdpos
  have e1 : (((t.re * trigScale : Int) : ℂ) + (t.im * trigScale : Int) * I) / t.den / trigScale = ((t.re : ℂ) + t.im * I) / t.den := by
    generalize trigScale = S at *
    push_cast; field_simp
  rw [e1] at h1
  exact h1

/-- The start point is within 4 units of exp(i * n / 2^32). -/
theorem unitPoint_error (n : Int) (hn : |n| ≤ 2 ^ 31) :
    ‖asComplex (unitPoint n) - exp ((n : ℂ) / 2 ^ 32 * I)‖ ≤ 4 / trigScale := by
  have h1 : ‖asComplex (unitPoint n) - _‖ ≤ _ := taylorSum_error n trigTerms
  have hx : ‖(n : ℂ) / 2 ^ 32 * I‖ ≤ 1 / 2 := by
    rw [norm_mul, norm_I, mul_one, norm_div]
    have hn' : |(n : ℝ)| ≤ 2 ^ 31 := by exact_mod_cast hn
    have : ‖(n : ℂ)‖ = |(n : ℝ)| := by rw [← Complex.ofReal_intCast, Complex.norm_real, Real.norm_eq_abs]
    rw [this]
    norm_num
    rw [div_le_iff₀ (by norm_num)]
    linarith
  have h2 := exp_bound' (x := (n : ℂ) / 2 ^ 32 * I) (n := trigTerms + 1) (by
    rw [div_le_iff₀ (by positivity)]
    have : (1 : ℝ) ≤ ((trigTerms + 1).succ : ℝ) := by norm_num [trigTerms]
    linarith)
  have h3 : ‖(n : ℂ) / 2 ^ 32 * I‖ ^ (trigTerms + 1) / ((trigTerms + 1).factorial : ℝ) * 2 ≤ 2 / trigScale := by
    calc _ ≤ (1 / 2 : ℝ) ^ (trigTerms + 1) / ((trigTerms + 1).factorial : ℝ) * 2 := by gcongr
      _ ≤ 2 / trigScale := by
        norm_num [trigTerms, trigScale, Nat.factorial]
  generalize (∑ i ∈ range (trigTerms + 1), ((n : ℂ) / 2 ^ 32 * I) ^ i / (i.factorial : ℂ)) = S at *
  calc ‖asComplex (unitPoint n) - exp ((n : ℂ) / 2 ^ 32 * I)‖
      ≤ ‖asComplex (unitPoint n) - S‖ + ‖exp ((n : ℂ) / 2 ^ 32 * I) - S‖ := by
        rw [norm_sub_rev (exp _)]
        exact norm_sub_le_norm_sub_add_norm_sub _ _ _
    _ ≤ 2 / trigScale + 2 / trigScale := add_le_add h1 (h2.trans h3)
    _ = 4 / trigScale := by ring

/-- A squaring is off by twice the error before it, its square, and the cut. -/
theorem squarePoint_error (p : Int × Int) (z : ℂ) (hz : ‖z‖ = 1) (e : ℝ) (h : ‖asComplex p - z‖ ≤ e) :
    ‖asComplex (squarePoint p) - z ^ 2‖ ≤ e * (2 + e) + 2 / trigScale := by
  have hS : 0 < trigScale := by norm_num [trigScale]
  have hS0 : (trigScale : ℂ) ≠ 0 := by exact_mod_cast hS.ne'
  have he : 0 ≤ e := (norm_nonneg _).trans h
  have h1 := cut_point_error (p.1 * p.1 - p.2 * p.2) (2 * p.1 * p.2) trigScale hS
  have e1 : (((p.1 * p.1 - p.2 * p.2 : Int) : ℂ) + (2 * p.1 * p.2 : Int) * I) / trigScale / trigScale = asComplex p ^ 2 := by
    unfold asComplex
    push_cast
    field_simp
    linear_combination (-(p.2 : ℂ) ^ 2) * I_sq
  rw [e1] at h1
  have h2 : ‖asComplex p ^ 2 - z ^ 2‖ ≤ e * (2 + e) := by
    have : asComplex p ^ 2 - z ^ 2 = (asComplex p - z) * (2 * z + (asComplex p - z)) := by ring
    rw [this, norm_mul]
    have h3 : ‖2 * z + (asComplex p - z)‖ ≤ 2 + e := by
      calc _ ≤ ‖2 * z‖ + ‖asComplex p - z‖ := norm_add_le _ _
        _ ≤ 2 + e := by rw [norm_mul, hz]; norm_num; exact h
    exact mul_le_mul h h3 (norm_nonneg _) he
  calc ‖asComplex (squarePoint p) - z ^ 2‖ ≤ ‖asComplex (squarePoint p) - asComplex p ^ 2‖ + ‖asComplex p ^ 2 - z ^ 2‖ :=
        norm_sub_le_norm_sub_add_norm_sub _ _ _
    _ ≤ 2 / trigScale + e * (2 + e) := add_le_add h1 h2
    _ = e * (2 + e) + 2 / trigScale := by ring

/-- The error after `k` squarings, while it stays below one. -/
theorem squarePoints_error (k : Nat) :
    ∀ (i : Nat) (p : Int × Int) (z : ℂ), i + k ≤ 16 → ‖z‖ = 1 → ‖asComplex p - z‖ ≤ (5 * 3 ^ i - 1) / (trigScale : ℝ) →
      ‖asComplex (squarePoints k p) - z ^ 2 ^ k‖ ≤ (5 * 3 ^ (i + k) - 1) / (trigScale : ℝ) := by
  induction k with
  | zero => intro i p z _ _ h; simpa [squarePoints] using h
  | succ k ih =>
    intro i p z hik hz h
    have hS := trigScale_pos
    have h1 := squarePoint_error p z hz _ h
    have hsmall : (5 * 3 ^ i - 1) / (trigScale : ℝ) ≤ 1 := by
      rw [div_le_one hS]
      have h3 : (3 : ℝ) ^ i ≤ 3 ^ 16 := pow_le_pow_right₀ (by norm_num) (by omega)
      have hbig : (5 * 3 ^ 16 - 1 : ℝ) ≤ trigScale := by norm_num [trigScale]
      linarith
    have hpos : 0 ≤ (5 * 3 ^ i - 1) / (trigScale : ℝ) := (norm_nonneg _).trans h
    have h2 : ‖asComplex (squarePoint p) - z ^ 2‖ ≤ (5 * 3 ^ (i + 1) - 1) / (trigScale : ℝ) := by
      have e : (5 * 3 ^ (i + 1) - 1) / (trigScale : ℝ) = (5 * 3 ^ i - 1) / (trigScale : ℝ) * 3 + 2 / trigScale := by
        rw [pow_succ]; ring
      rw [e]
      refine h1.trans ?_
      generalize (5 * 3 ^ i - 1) / (trigScale : ℝ) = x at *
      have : x * (2 + x) ≤ x * 3 := mul_le_mul_of_nonneg_left (by linarith) hpos
      linarith
    have h4 := ih (i + 1) (squarePoint p) (z ^ 2) (by omega) (by rw [norm_pow, hz, one_pow]) h2
    rw [squarePoints]
    rw [← pow_mul, show 2 * 2 ^ k = 2 ^ (k + 1) by ring, show i + 1 + k = i + (k + 1) by omega] at h4
    exact h4

/-- The computed point is within `trigError` units of exp(i * n / 2^16): of its cosine and of its sine (43_trig_lut R164). -/
theorem trigPoint_error (n : Int) (hn : |n| ≤ 2 ^ 31) :
    |((trigPoint n).1 : ℝ) - trigScale * Real.cos ((n : ℝ) / 2 ^ 16)| ≤ (trigError : ℝ) ∧
      |((trigPoint n).2 : ℝ) - trigScale * Real.sin ((n : ℝ) / 2 ^ 16)| ≤ (trigError : ℝ) := by
  have hS := trigScale_pos
  have hz : ‖exp ((n : ℂ) / 2 ^ 32 * I)‖ = 1 := by
    have := norm_exp_ofReal_mul_I ((n : ℝ) / 2 ^ 32)
    push_cast at this
    exact this
  have h := squarePoints_error 16 0 (unitPoint n) _ le_rfl hz (by
    have := unitPoint_error n hn
    norm_num at this ⊢
    exact this)
  have hexp : exp ((n : ℂ) / 2 ^ 32 * I) ^ 2 ^ 16 = (Real.cos ((n : ℝ) / 2 ^ 16) : ℂ) + Real.sin ((n : ℝ) / 2 ^ 16) * I := by
    rw [← exp_nat_mul]
    have : ((2 ^ 16 : ℕ) : ℂ) * ((n : ℂ) / 2 ^ 32 * I) = (((n : ℝ) / 2 ^ 16 : ℝ) : ℂ) * I := by
      push_cast; ring
    rw [this, exp_mul_I, ofReal_cos, ofReal_sin]
  rw [hexp] at h
  have hb : (5 * 3 ^ (0 + 16) - 1) / (trigScale : ℝ) ≤ trigError / trigScale := by
    gcongr; norm_num [trigError]
  have h := h.trans hb
  have e : asComplex (squarePoints 16 (unitPoint n)) -
      ((Real.cos ((n : ℝ) / 2 ^ 16) : ℂ) + Real.sin ((n : ℝ) / 2 ^ 16) * I) =
      (((((trigPoint n).1 : ℝ) - trigScale * Real.cos ((n : ℝ) / 2 ^ 16) : ℝ) : ℂ) +
        ((((trigPoint n).2 : ℝ) - trigScale * Real.sin ((n : ℝ) / 2 ^ 16) : ℝ) : ℂ) * I) / trigScale := by
    have hS0 : (trigScale : ℂ) ≠ 0 := by exact_mod_cast hS.ne'
    unfold asComplex trigPoint
    push_cast
    field_simp
    ring
  rw [e, norm_div] at h
  have hn2 : ‖(trigScale : ℂ)‖ = trigScale := by simp
  rw [hn2, div_le_div_iff_of_pos_right hS] at h
  generalize ((trigPoint n).1 : ℝ) - trigScale * Real.cos ((n : ℝ) / 2 ^ 16) = x at *
  generalize ((trigPoint n).2 : ℝ) - trigScale * Real.sin ((n : ℝ) / 2 ^ 16) = y at *
  have hre := abs_re_le_norm ((x : ℂ) + y * I)
  have him := abs_im_le_norm ((x : ℂ) + y * I)
  simp only [add_re, mul_re, ofReal_re, I_re, ofReal_im, I_im, add_im, mul_im, mul_zero, mul_one, sub_zero, zero_add, add_zero] at hre him
  exact ⟨hre.trans h, him.trans h⟩

end Sys2Proof.Machine
end

