-- ==== Sys2Proof/Laws/Arcs.lean ====
section
/-! SUPPORT. The arcs arccos (m/512), m = 0 to 512, between fractions: `sepDen` * 2^16 * arccos (m/512) stays away from every
integer for m = 1 to 511, and for m = 0 it is nearly `sepNum`. What this is for: Laws/Separation.lean. -/

namespace Sys2Proof.Machine

open Finset

/-! ## cos at a fraction, by its Taylor polynomial -/

/-- The polynomial 1 - y/((i+1)(i+2)) * (1 - y/((i+3)(i+4)) * ...) with `n` brackets at y = a2 / b2, as numerator and denominator.
At i = 0 it is the Taylor polynomial of cos at the root of y. -/
def cosFrac (a2 b2 : Nat) : Nat → Nat → Int × Nat
  | _, 0 => (1, 1)
  | i, n + 1 =>
    let t := cosFrac a2 b2 (i + 2) n
    let d := t.2 * ((i + 1) * (i + 2) * b2)
    (d - t.1 * a2, d)

/-- The denominator is positive. -/
theorem cosFrac_den_pos (a2 : Nat) {b2 : Nat} (hb : 0 < b2) : ∀ n i, 0 < (cosFrac a2 b2 i n).2 := by
  intro n
  induction n with
  | zero => intro _; exact Nat.one_pos
  | succ n ih =>
    intro i
    have := ih (i + 2)
    simp only [cosFrac]
    positivity

/-- The fraction is the sum it stands for. -/
theorem cosFrac_spec (a2 : Nat) {b2 : Nat} (hb : 0 < b2) :
    ∀ n i, ((cosFrac a2 b2 i n).1 : ℝ) / (cosFrac a2 b2 i n).2 =
      ∑ k ∈ range (n + 1), (-((a2 : ℝ) / b2)) ^ k * (i.factorial / (i + 2 * k).factorial) := by
  intro n
  induction n with
  | zero => intro i; simp [cosFrac, Nat.factorial_ne_zero]
  | succ n ih =>
    intro i
    have hd : (0 : ℝ) < (cosFrac a2 b2 (i + 2) n).2 := by exact_mod_cast cosFrac_den_pos a2 hb n (i + 2)
    have hb' : (0 : ℝ) < b2 := by exact_mod_cast hb
    have e : ((cosFrac a2 b2 i (n + 1)).1 : ℝ) / (cosFrac a2 b2 i (n + 1)).2 =
        1 - (a2 : ℝ) / b2 / ((i + 1) * (i + 2)) * (((cosFrac a2 b2 (i + 2) n).1 : ℝ) / (cosFrac a2 b2 (i + 2) n).2) := by
      simp only [cosFrac]
      push_cast
      field_simp
    rw [e, ih, sum_range_succ' _ (n + 1), mul_sum]
    have h0 : (i.factorial : ℝ) ≠ 0 := by exact_mod_cast i.factorial_ne_zero
    rw [sub_eq_neg_add, ← sum_neg_distrib]
    congr 1
    · refine sum_congr rfl fun k _ => ?_
      have hf : ((i + 2).factorial : ℝ) = (i + 2) * ((i + 1) * i.factorial) := by
        rw [Nat.factorial_succ, Nat.factorial_succ]; push_cast; ring
      rw [hf, show i + 2 * (k + 1) = i + 2 + 2 * k by ring, pow_succ]
      field_simp
    · simp [h0]

/-- The real part of the first `2 * n` terms of exp (x * i). -/
theorem exp_sum_re (x : ℝ) (n : Nat) :
    (∑ i ∈ range (2 * n), ((x : ℂ) * Complex.I) ^ i / (i.factorial : ℂ)).re =
      ∑ k ∈ range n, (-(x ^ 2)) ^ k / ((2 * k).factorial : ℝ) := by
  induction n with
  | zero => simp
  | succ n ih =>
    have hsq : ((x : ℂ) * Complex.I) ^ (2 * n) = (((-(x ^ 2)) ^ n : ℝ) : ℂ) := by
      rw [pow_mul, mul_pow, Complex.I_sq]; push_cast; ring
    have h1 : (((x : ℂ) * Complex.I) ^ (2 * n) / ((2 * n).factorial : ℂ)).re =
        (-(x ^ 2)) ^ n / ((2 * n).factorial : ℝ) := by
      rw [hsq, ← Complex.ofReal_natCast, ← Complex.ofReal_div, Complex.ofReal_re]
    have h2 : (((x : ℂ) * Complex.I) ^ (2 * n + 1) / ((2 * n + 1).factorial : ℂ)).re = 0 := by
      rw [pow_succ, hsq, ← Complex.ofReal_natCast, ← mul_assoc, ← Complex.ofReal_mul, mul_div_right_comm,
        ← Complex.ofReal_div, Complex.re_ofReal_mul, Complex.I_re, mul_zero]
    rw [show 2 * (n + 1) = 2 * n + 1 + 1 by ring, sum_range_succ, sum_range_succ, Complex.add_re, Complex.add_re, ih, h1, h2,
      add_zero, sum_range_succ]

/-- The polynomial is within 2^-80 of cos, for angles up to 2. -/
theorem cosFrac_error (a b : Nat) (hb : 0 < b) (hab : a ≤ 2 * b) :
    |Real.cos ((a : ℝ) / b) - ((cosFrac (a * a) (b * b) 0 15).1 : ℝ) / (cosFrac (a * a) (b * b) 0 15).2| ≤ 1 / 2 ^ 80 := by
  have hb' : (0 : ℝ) < b := by exact_mod_cast hb
  have hx0 : 0 ≤ (a : ℝ) / b := by positivity
  have hx2 : (a : ℝ) / b ≤ 2 := by rw [div_le_iff₀ hb']; exact_mod_cast hab
  have hy : ((a * a : Nat) : ℝ) / (b * b : Nat) = ((a : ℝ) / b) ^ 2 := by push_cast; rw [div_pow]; ring
  rw [cosFrac_spec (a * a) (Nat.mul_pos hb hb), hy]
  generalize (a : ℝ) / b = x at *
  have hs : ∑ k ∈ range (15 + 1), (-(x ^ 2)) ^ k * ((Nat.factorial 0 : ℝ) / (0 + 2 * k).factorial) =
      (∑ i ∈ range 32, ((x : ℂ) * Complex.I) ^ i / (i.factorial : ℂ)).re := by
    rw [show (32 : Nat) = 2 * 16 from rfl, exp_sum_re]
    refine sum_congr rfl fun k _ => ?_
    rw [Nat.zero_add, Nat.factorial_zero, Nat.cast_one, mul_one_div]
  have hn : ‖(x : ℂ) * Complex.I‖ = x := by
    rw [norm_mul, Complex.norm_I, mul_one, Complex.norm_real, Real.norm_eq_abs, abs_of_nonneg hx0]
  have h := Complex.exp_bound' (x := (x : ℂ) * Complex.I) (n := 32) (by rw [hn, div_le_iff₀ (by positivity)]; norm_num; linarith)
  rw [hs, ← Complex.exp_ofReal_mul_I_re, ← Complex.sub_re]
  refine (Complex.abs_re_le_norm _).trans (h.trans ?_)
  rw [hn]
  calc _ ≤ (2 : ℝ) ^ 32 / (Nat.factorial 32 : ℝ) * 2 := by gcongr
    _ ≤ 1 / 2 ^ 80 := by norm_num [Nat.factorial]

/-! ## arccos (m/512) between two fractions -/

/-- cos (a/b) is above m/512 by more than the polynomial's error. -/
def cosAbove (b a m : Nat) : Bool :=
  let t := cosFrac (a * a) (b * b) 0 15
  decide ((m : Int) * 2 ^ 80 * t.2 + 512 * t.2 < 512 * 2 ^ 80 * t.1)

/-- cos (a/b) is below m/512 by more than the polynomial's error. -/
def cosBelow (b a m : Nat) : Bool :=
  let t := cosFrac (a * a) (b * b) 0 15
  decide (512 * 2 ^ 80 * t.1 + 512 * t.2 < (m : Int) * 2 ^ 80 * t.2)

theorem lt_cos_of_cosAbove {b a m : Nat} (hb : 0 < b) (hab : a ≤ 2 * b) (h : cosAbove b a m = true) :
    (m : ℝ) / 512 < Real.cos ((a : ℝ) / b) := by
  have he := abs_le.mp (cosFrac_error a b hb hab)
  have hd : (0 : ℝ) < (cosFrac (a * a) (b * b) 0 15).2 := by exact_mod_cast cosFrac_den_pos _ (Nat.mul_pos hb hb) _ _
  have h' := h
  simp only [cosAbove, decide_eq_true_eq] at h'
  generalize cosFrac (a * a) (b * b) 0 15 = t at *
  have h2 : (m : ℝ) * 2 ^ 80 * t.2 + 512 * t.2 < 512 * 2 ^ 80 * t.1 := by exact_mod_cast h'
  have h3 : ((m : ℝ) * 2 ^ 80 + 512) / (512 * 2 ^ 80) < (t.1 : ℝ) / t.2 := by
    rw [div_lt_div_iff₀ (by positivity) hd]; linarith
  have e : ((m : ℝ) * 2 ^ 80 + 512) / (512 * 2 ^ 80) = m / 512 + 1 / 2 ^ 80 := by field_simp
  linarith [he.1]

theorem cos_lt_of_cosBelow {b a m : Nat} (hb : 0 < b) (hab : a ≤ 2 * b) (h : cosBelow b a m = true) :
    Real.cos ((a : ℝ) / b) < (m : ℝ) / 512 := by
  have he := abs_le.mp (cosFrac_error a b hb hab)
  have hd : (0 : ℝ) < (cosFrac (a * a) (b * b) 0 15).2 := by exact_mod_cast cosFrac_den_pos _ (Nat.mul_pos hb hb) _ _
  have h' := h
  simp only [cosBelow, decide_eq_true_eq] at h'
  generalize cosFrac (a * a) (b * b) 0 15 = t at *
  have h2 : 512 * 2 ^ 80 * (t.1 : ℝ) + 512 * t.2 < (m : ℝ) * 2 ^ 80 * t.2 := by exact_mod_cast h'
  have h3 : (t.1 : ℝ) / t.2 < ((m : ℝ) * 2 ^ 80 - 512) / (512 * 2 ^ 80) := by
    rw [div_lt_div_iff₀ hd (by positivity)]; linarith
  have e : ((m : ℝ) * 2 ^ 80 - 512) / (512 * 2 ^ 80) = m / 512 - 1 / 2 ^ 80 := by field_simp
  linarith [he.2]

/-- The two tests bracket the arc. -/
theorem arccos_between {b lo hi m : Nat} (hb : 0 < b) (hm : m ≤ 512) (hlo : lo ≤ hi) (hhi : hi ≤ 2 * b)
    (h1 : cosAbove b lo m = true) (h2 : cosBelow b hi m = true) :
    (lo : ℝ) / b < Real.arccos (m / 512) ∧ Real.arccos (m / 512) < (hi : ℝ) / b := by
  have hb' : (0 : ℝ) < b := by exact_mod_cast hb
  have c1 := lt_cos_of_cosAbove hb (hlo.trans hhi) h1
  have c2 := cos_lt_of_cosBelow hb hhi h2
  have hm1 : (m : ℝ) / 512 ≤ 1 := by rw [div_le_one (by norm_num)]; exact_mod_cast hm
  have hm0 : (-1 : ℝ) ≤ (m : ℝ) / 512 := (by norm_num : (-1 : ℝ) ≤ 0).trans (by positivity)
  have hpi := Real.pi_gt_three
  have x2 : (hi : ℝ) / b ≤ 2 := by rw [div_le_iff₀ hb']; exact_mod_cast hhi
  have x1 : (lo : ℝ) / b ≤ 2 := by rw [div_le_iff₀ hb']; exact_mod_cast hlo.trans hhi
  constructor
  · by_contra hc
    have := Real.cos_le_cos_of_nonneg_of_le_pi (Real.arccos_nonneg _) (by linarith) (not_lt.mp hc)
    rw [Real.cos_arccos hm0 hm1] at this
    linarith
  · by_contra hc
    have := Real.cos_le_cos_of_nonneg_of_le_pi (by positivity) (Real.arccos_le_pi _) (not_lt.mp hc)
    rw [Real.cos_arccos hm0 hm1] at this
    linarith

/-! ## The table: sepDen * 2^16 * arccos (m/512) stays away from the integers -/

/-- The denominator of a convergent of 2^16 * pi/2. -/
@[irreducible] def sepDen : Nat := 1264246053

/-- Its numerator. -/
@[irreducible] def sepNum : Nat := 130146176612260

/-- The entries for m = 1 to 64. -/
def arcFloors0 : List Nat :=
  [129984353014591, 129822528799609, 129660703349980, 129498876048328, 129337046277212, 129175213419107, 129013376856383,
   128851535971281, 128689690145894, 128527838762147, 128365981201772, 128204116846289, 128042245076985, 127880365274892,
   127718476820766, 127556579095064, 127394671477926, 127232753349150, 127070824088172, 126908883074046, 126746929685419,
   126584963300514, 126422983297102, 126260989052488, 126098979943483, 125936955346386, 125774914636960, 125612857190412,
   125450782381368, 125288689583856, 125126578171278, 124964447516394, 124802296991295, 124640125967384, 124477933815350,
   124315719905150, 124153483605985, 123991224286275, 123828941313640, 123666634054877, 123504301875933, 123341944141889,
   123179560216930, 123017149464328, 122854711246416, 122692244924564, 122529749859158, 122367225409576, 122204670934162,
   122042085790208, 121879469333924, 121716820920419, 121554139903674, 121391425636521, 121228677470616, 121065894756416,
   120903076843154, 120740223078818, 120577332810120, 120414405382478, 120251440139986, 120088436425391, 119925393580071,
   119762310944002]

/-- The entries for m = 65 to 128. -/
def arcFloors1 : List Nat :=
  [119599187855741, 119436023652396, 119272817669600, 119109569241488, 118946277700667, 118782942378194, 118619562603547,
   118456137704600, 118292667007596, 118129149837119, 117965585516068, 117801973365631, 117638312705255, 117474602852621,
   117310843123616, 117147032832304, 116983171290896, 116819257809729, 116655291697229, 116491272259887, 116327198802229,
   116163070626789, 115998887034075, 115834647322544, 115670350788572, 115505996726420, 115341584428208, 115177113183883,
   115012582281190, 114847991005636, 114683338640467, 114518624466630, 114353847762744, 114189007805067, 114024103867465,
   113859135221382, 113694101135801, 113529000877217, 113363833709600, 113198598894365, 113033295690334, 112867923353707,
   112702481138023, 112536968294129, 112371384070141, 112205727711413, 112039998460500, 111874195557119, 111708318238119,
   111542365737438, 111376337286072, 111210232112031, 111044049440309, 110877788492840, 110711448488464, 110545028642885,
   110378528168633, 110211946275028, 110045282168134, 109878535050724, 109711704122239, 109544788578742, 109377787612884,
   109210700413857]

/-- The entries for m = 129 to 192. -/
def arcFloors2 : List Nat :=
  [109043526167355, 108876264055528, 108708913256942, 108541472946534, 108373942295570, 108206320471598, 108038606638404,
   107870799955969, 107702899580420, 107534904663984, 107366814354945, 107198627797594, 107030344132179, 106861962494861,
   106693482017664, 106524901828425, 106356221050743, 106187438803931, 106018554202964, 105849566358428, 105680474376467,
   105511277358731, 105341974402321, 105172564599741, 105003047038833, 104833420802735, 104663684969813, 104493838613612,
   104323880802799, 104153810601100, 103983627067248, 103813329254919, 103642916212676, 103472386983905, 103301740606756,
   103130976114083, 102960092533376, 102789088886703, 102617964190642, 102446717456219, 102275347688840, 102103853888226,
   101932235048344, 101760490157340, 101588618197470, 101416618145031, 101244488970286, 101072229637397, 100899839104351,
   100727316322886, 100554660238415, 100381869789955, 100208943910045, 100035881524674, 99862681553199, 99689342908266,
   99515864495730, 99342245214576, 99168483956831, 98994579607487, 98820531044409, 98646337138255, 98471996752386,
   98297508742778]

/-- The entries for m = 193 to 256. -/
def arcFloors3 : List Nat :=
  [98122871957933, 97948085238789, 97773147418627, 97598057322977, 97422813769526, 97247415568021, 97071861520170,
   96896150419549, 96720281051495, 96544252193010, 96368062612657, 96191711070455, 96015196317775, 95838517097231,
   95661672142572, 95484660178575, 95307479920928, 95130130076119, 94952609341322, 94774916404280, 94597049943185,
   94419008626558, 94240791113130, 94062396051715, 93883822081085, 93705067829844, 93526131916297, 93347012948320,
   93167709523225, 92988220227627, 92808543637303, 92628678317059, 92448622820579, 92268375690290, 92087935457211,
   91907300640805, 91726469748831, 91545441277187, 91364213709758, 91182785518257, 91001155162065, 90819321088064,
   90637281730480, 90455035510707, 90272580837137, 90089916104992, 89907039696142, 89723949978926, 89540645307972,
   89357124024010, 89173384453685, 88989424909365, 88805243688943, 88620839075645, 88436209337825, 88251352728760,
   88066267486445, 87880951833375, 87695403976340, 87509622106194, 87323604397641, 87137349009007, 86950854082005,
   86764117741506]

/-- The entries for m = 257 to 320. -/
def arcFloors4 : List Nat :=
  [86577138095297, 86389913233839, 86202441230021, 86014720138906, 85826747997478, 85638522824379, 85450042619647,
   85261305364442, 85072309020774, 84883051531221, 84693530818649, 84503744785914, 84313691315573, 84123368269581,
   83932773488984, 83741904793608, 83550759981737, 83359336829795, 83167633092014, 82975646500092, 82783374762858,
   82590815565918, 82397966571302, 82204825417097, 82011389717080, 81817657060340, 81623625010894, 81429291107294,
   81234652862227, 81039707762109, 80844453266667, 80648886808516, 80453005792726, 80256807596380, 80060289568124,
   79863449027710, 79666283265521, 79468789542099, 79270965087650, 79072807101552, 78874312751842, 78675479174696,
   78476303473901, 78276782720309, 78076913951289, 77876694170158, 77676120345604, 77475189411099, 77273898264291,
   77072243766395, 76870222741560, 76667831976225, 76465068218466, 76261928177319, 76058408522100, 75854505881695,
   75650216843849, 75445537954426, 75240465716664, 75034996590401, 74829126991293, 74622853290010, 74416171811409,
   74209078833700]

/-- The entries for m = 321 to 384. -/
def arcFloors5 : List Nat :=
  [74001570587575, 73793643255334, 73585292969977, 73376515814282, 73167307819858, 72957664966173, 72747583179565,
   72537058332221, 72326086241139, 72114662667055, 71902783313352, 71690443824938, 71477639787097, 71264366724305,
   71050620099030, 70836395310486, 70621687693362, 70406492516524, 70190804981668, 69974620221956, 69757933300600,
   69540739209423, 69323032867368, 69104809118979, 68886062732833, 68666788399933, 68446980732062, 68226634260078,
   68005743432178, 67784302612107, 67562306077312, 67339748017053, 67116622530459, 66892923624521, 66668645212039,
   66443781109500, 66218325034903, 65992270605515, 65765611335562, 65538340633853, 65310451801334, 65081938028568,
   64852792393138, 64623007856975, 64392577263599, 64161493335278, 63929748670102, 63697335738963, 63464246882437,
   63230474307575, 62996010084585, 62760846143414, 62524974270211, 62288386103688, 62051073131348, 61813026685597,
   61574237939727, 61334697903761, 61094397420158, 60853327159377, 60611477615284, 60368839100403, 60125401741000,
   59881155472001]

/-- The entries for m = 385 to 448. -/
def arcFloors6 : List Nat :=
  [59636090031719, 59390194956409, 59143459574613, 58895873001309, 58647424131845, 58398101635654, 58147893949725,
   57896789271843, 57644775553570, 57391840492954, 57137971526970, 56883155823659, 56627380273965, 56370631483253,
   56112895762486, 55854159119059, 55594407247249, 55333625518286, 55071798970021, 54808912296148, 54544949834995,
   54279895557829, 54013733056669, 53746445531569, 53478015777353, 53208426169769, 52937658651024, 52665694714680,
   52392515389857, 52118101224727, 51842432269240, 51565488057041, 51287247586550, 51007689301128, 50726791068296,
   50444530157942, 50160883219465, 49875826257771, 49589334608073, 49301382909411, 49011945076809, 48720994271987,
   48428502872535, 48134442439444, 47838783682897, 47541496426190, 47242549567669, 46941911040542, 46639547770419,
   46335425630423, 46029509393700, 45721762683141, 45412147918117, 45100626257992, 44787157542201, 44471700226601,
   44154211315839, 43834646291404, 43512959035031, 43189101747095, 42863024859567, 42534676943103, 42204004607758,
   41870952396804]

/-- The entries for m = 449 to 511. -/
def arcFloors7 : List Nat :=
  [41535462673030, 41197475496891, 40856928495758, 40513756723481, 40167892509348, 39819265295483, 39467801461538,
   39113424135486, 38756052989113, 38395604016690, 38031989295089, 37665116723419, 37294889739990, 36921207014161,
   36543962110280, 36163043120569, 35778332263380, 35389705442732, 34997031764488, 34600173003814, 34198983017819,
   33793307096288, 33382981242369, 32967831373739, 32547672433233, 32122307396092, 31691526158723, 31255104291258,
   30812801632901, 30364360705182, 29909504913402, 29447936500654, 28979334211529, 28503350613502, 28019609012647,
   27527699885983, 27027176734513, 26517551237693, 25998287559911, 25468795620249, 24928423085064, 24376445774104,
   23812056078260, 23234348860890, 22642304140481, 22034765608362, 21410413687706, 20767731336515, 20104960053054,
   19420042418014, 18710545767468, 17973558821427, 17205548545065, 16402156776554, 15557902405367, 14665729228164,
   13716288808216, 12696739506114, 11588590609418, 10363458191730, 8973553734982, 7325681375962, 5179195034390]

/-- The integer part of sepDen * 2^16 * arccos (m/512), for m = 1 to 511. -/
def arcFloors : List Nat :=
  arcFloors0 ++ arcFloors1 ++ arcFloors2 ++ arcFloors3 ++ arcFloors4 ++ arcFloors5 ++ arcFloors6 ++ arcFloors7

/-- Whether N + 2^-10 < sepDen * 2^16 * arccos (m/512) < N + 1 - 2^-10, by the two tests. -/
def arcOk (N m : Nat) : Bool :=
  cosAbove (sepDen * 2 ^ 26) (N * 2 ^ 10 + 1) m && cosBelow (sepDen * 2 ^ 26) (N * 2 ^ 10 + 1023) m &&
    decide (N * 2 ^ 10 + 1023 ≤ 2 * (sepDen * 2 ^ 26))

/-- Whether every entry of a part of the table that starts at m = `first` stands the test. -/
def arcsOk (part : List Nat) (first : Nat) : Bool :=
  (part.zipIdx first).all fun e => arcOk e.1 e.2

theorem arcsOk0 : arcsOk arcFloors0 1 = true := by decide +kernel
theorem arcsOk1 : arcsOk arcFloors1 65 = true := by decide +kernel
theorem arcsOk2 : arcsOk arcFloors2 129 = true := by decide +kernel
theorem arcsOk3 : arcsOk arcFloors3 193 = true := by decide +kernel
theorem arcsOk4 : arcsOk arcFloors4 257 = true := by decide +kernel
theorem arcsOk5 : arcsOk arcFloors5 321 = true := by decide +kernel
theorem arcsOk6 : arcsOk arcFloors6 385 = true := by decide +kernel
theorem arcsOk7 : arcsOk arcFloors7 449 = true := by decide +kernel

theorem arcsOk_append (a b : List Nat) (first : Nat) :
    arcsOk (a ++ b) first = (arcsOk a first && arcsOk b (first + a.length)) := by
  unfold arcsOk
  rw [List.zipIdx_append, List.all_append]

theorem arcsOk_all : arcsOk arcFloors 1 = true := by
  simp only [arcFloors, arcsOk_append, List.length_append]
  rw [arcsOk0, show 1 + arcFloors0.length = 65 from rfl, arcsOk1,
    show 1 + (arcFloors0.length + arcFloors1.length) = 129 from rfl, arcsOk2,
    show 1 + (arcFloors0.length + arcFloors1.length + arcFloors2.length) = 193 from rfl, arcsOk3,
    show 1 + (arcFloors0.length + arcFloors1.length + arcFloors2.length + arcFloors3.length) = 257 from rfl, arcsOk4,
    show 1 + (arcFloors0.length + arcFloors1.length + arcFloors2.length + arcFloors3.length + arcFloors4.length) = 321 from rfl,
    arcsOk5,
    show 1 + (arcFloors0.length + arcFloors1.length + arcFloors2.length + arcFloors3.length + arcFloors4.length +
      arcFloors5.length) = 385 from rfl, arcsOk6,
    show 1 + (arcFloors0.length + arcFloors1.length + arcFloors2.length + arcFloors3.length + arcFloors4.length +
      arcFloors5.length + arcFloors6.length) = 449 from rfl, arcsOk7]
  rfl

/-- For m = 1 to 511 the number sepDen * 2^16 * arccos (m/512) is at least 2^-10 away from every integer. -/
theorem arc_off_integers {m : Nat} (h1 : 1 ≤ m) (h2 : m ≤ 511) :
    ∃ N : ℕ, (N : ℝ) + 1 / 2 ^ 10 < sepDen * 2 ^ 16 * Real.arccos (m / 512) ∧
      sepDen * 2 ^ 16 * Real.arccos (m / 512) < N + 1 - 1 / 2 ^ 10 := by
  obtain ⟨N, hN⟩ : ∃ N, arcOk N m = true := by
    have hi : m - 1 < arcFloors.length := by
      rw [show arcFloors.length = 511 by decide +kernel]; omega
    refine ⟨arcFloors[m - 1], List.all_eq_true.mp arcsOk_all (arcFloors[m - 1], m) ?_⟩
    rw [List.mem_zipIdx_iff_le_and_getElem?_sub]
    exact ⟨h1, List.getElem?_eq_getElem hi⟩
  simp only [arcOk, Bool.and_eq_true, decide_eq_true_eq] at hN
  obtain ⟨⟨ha, hb⟩, hc⟩ := hN
  have hq0 : 0 < sepDen * 2 ^ 26 := by norm_num [sepDen]
  obtain ⟨g1, g2⟩ := arccos_between hq0 (h2.trans (by norm_num)) (Nat.add_le_add_left (by norm_num) _) hc ha hb
  have hq : (0 : ℝ) < ((sepDen * 2 ^ 26 : Nat) : ℝ) := by norm_num [sepDen]
  rw [div_lt_iff₀ hq] at g1
  rw [lt_div_iff₀ hq] at g2
  push_cast at g1 g2
  exact ⟨N, by linarith, by linarith⟩

/-- sepDen * 2^16 * pi/2 is within 2^-30 of the integer sepNum. -/
theorem sepDen_pi : |sepDen * 2 ^ 16 * (Real.pi / 2) - sepNum| < 1 / 2 ^ 30 := by
  obtain ⟨g1, g2⟩ := arccos_between (b := sepDen * 2 ^ 46) (lo := sepNum * 2 ^ 30 - 1) (hi := sepNum * 2 ^ 30 + 1) (m := 0)
    (by norm_num [sepDen]) (by omega) (by omega) (by norm_num [sepDen, sepNum]) (by decide +kernel) (by decide +kernel)
  rw [Nat.cast_zero, zero_div, Real.arccos_zero] at g1 g2
  have hq : (0 : ℝ) < ((sepDen * 2 ^ 46 : Nat) : ℝ) := by norm_num [sepDen]
  rw [div_lt_iff₀ hq] at g1
  rw [lt_div_iff₀ hq] at g2
  rw [Nat.cast_sub (by norm_num [sepNum])] at g1
  push_cast at g1 g2
  rw [abs_lt]
  constructor <;> linarith

end Sys2Proof.Machine
end

