-- ==== Sys2Proof/Laws/State.lean ====
section
/-! SUPPORT. One lemma for each field and each named update of the registers and the state, all true by rfl. -/

namespace Sys2Proof.Machine

/-! ## started w -/

@[simp] theorem Regs.started_irqEn (r : Regs) (w : Word) : (r.started w).irqEn = r.irqEn := rfl
@[simp] theorem Regs.started_trigSrc (r : Regs) (w : Word) : (r.started w).trigSrc = r.trigSrc := rfl
@[simp] theorem Regs.started_cmd (r : Regs) (w : Word) : (r.started w).cmd = w := rfl
@[simp] theorem Regs.started_done (r : Regs) (w : Word) : (r.started w).done = false := rfl
@[simp] theorem Regs.started_cmdOvr (r : Regs) (w : Word) : (r.started w).cmdOvr = r.cmdOvr := rfl
@[simp] theorem Regs.started_err (r : Regs) (w : Word) : (r.started w).err = .ok := rfl
@[simp] theorem Regs.started_srcAddr (r : Regs) (w : Word) : (r.started w).srcAddr = r.srcAddr := rfl
@[simp] theorem Regs.started_dstAddr (r : Regs) (w : Word) : (r.started w).dstAddr = r.dstAddr := rfl
@[simp] theorem Regs.started_width (r : Regs) (w : Word) : (r.started w).width = r.width := rfl
@[simp] theorem Regs.started_height (r : Regs) (w : Word) : (r.started w).height = r.height := rfl
@[simp] theorem Regs.started_channels (r : Regs) (w : Word) : (r.started w).channels = r.channels := rfl
@[simp] theorem Regs.started_sigma (r : Regs) (w : Word) : (r.started w).sigma = r.sigma := rfl
@[simp] theorem Regs.started_radius (r : Regs) (w : Word) : (r.started w).radius = r.radius := rfl
@[simp] theorem Regs.started_angle (r : Regs) (w : Word) : (r.started w).angle = r.angle := rfl
@[simp] theorem Regs.started_cosq (r : Regs) (w : Word) : (r.started w).cosq = r.cosq := rfl
@[simp] theorem Regs.started_sinq (r : Regs) (w : Word) : (r.started w).sinq = r.sinq := rfl
@[simp] theorem Regs.started_s00 (r : Regs) (w : Word) : (r.started w).s00 = r.s00 := rfl
@[simp] theorem Regs.started_s01 (r : Regs) (w : Word) : (r.started w).s01 = r.s01 := rfl
@[simp] theorem Regs.started_s10 (r : Regs) (w : Word) : (r.started w).s10 = r.s10 := rfl
@[simp] theorem Regs.started_s11 (r : Regs) (w : Word) : (r.started w).s11 = r.s11 := rfl
@[simp] theorem Regs.started_fr (r : Regs) (w : Word) : (r.started w).fr = r.fr := rfl
@[simp] theorem Regs.started_fc (r : Regs) (w : Word) : (r.started w).fc = r.fc := rfl
@[simp] theorem Regs.started_result (r : Regs) (w : Word) : (r.started w).result = r.result := rfl
@[simp] theorem Regs.started_wcount (r : Regs) (w : Word) : (r.started w).wcount = 0 := rfl
@[simp] theorem Regs.started_errInfo (r : Regs) (w : Word) : (r.started w).errInfo = 0 := rfl

/-! ## ended code info -/

@[simp] theorem Regs.ended_irqEn (r : Regs) (code : ErrCode) (info : Word) : (r.ended code info).irqEn = r.irqEn := rfl
@[simp] theorem Regs.ended_trigSrc (r : Regs) (code : ErrCode) (info : Word) : (r.ended code info).trigSrc = r.trigSrc := rfl
@[simp] theorem Regs.ended_cmd (r : Regs) (code : ErrCode) (info : Word) : (r.ended code info).cmd = r.cmd := rfl
@[simp] theorem Regs.ended_done (r : Regs) (code : ErrCode) (info : Word) : (r.ended code info).done = true := rfl
@[simp] theorem Regs.ended_cmdOvr (r : Regs) (code : ErrCode) (info : Word) : (r.ended code info).cmdOvr = r.cmdOvr := rfl
@[simp] theorem Regs.ended_err (r : Regs) (code : ErrCode) (info : Word) : (r.ended code info).err = code := rfl
@[simp] theorem Regs.ended_srcAddr (r : Regs) (code : ErrCode) (info : Word) : (r.ended code info).srcAddr = r.srcAddr := rfl
@[simp] theorem Regs.ended_dstAddr (r : Regs) (code : ErrCode) (info : Word) : (r.ended code info).dstAddr = r.dstAddr := rfl
@[simp] theorem Regs.ended_width (r : Regs) (code : ErrCode) (info : Word) : (r.ended code info).width = r.width := rfl
@[simp] theorem Regs.ended_height (r : Regs) (code : ErrCode) (info : Word) : (r.ended code info).height = r.height := rfl
@[simp] theorem Regs.ended_channels (r : Regs) (code : ErrCode) (info : Word) : (r.ended code info).channels = r.channels := rfl
@[simp] theorem Regs.ended_sigma (r : Regs) (code : ErrCode) (info : Word) : (r.ended code info).sigma = r.sigma := rfl
@[simp] theorem Regs.ended_radius (r : Regs) (code : ErrCode) (info : Word) : (r.ended code info).radius = r.radius := rfl
@[simp] theorem Regs.ended_angle (r : Regs) (code : ErrCode) (info : Word) : (r.ended code info).angle = r.angle := rfl
@[simp] theorem Regs.ended_cosq (r : Regs) (code : ErrCode) (info : Word) : (r.ended code info).cosq = r.cosq := rfl
@[simp] theorem Regs.ended_sinq (r : Regs) (code : ErrCode) (info : Word) : (r.ended code info).sinq = r.sinq := rfl
@[simp] theorem Regs.ended_s00 (r : Regs) (code : ErrCode) (info : Word) : (r.ended code info).s00 = r.s00 := rfl
@[simp] theorem Regs.ended_s01 (r : Regs) (code : ErrCode) (info : Word) : (r.ended code info).s01 = r.s01 := rfl
@[simp] theorem Regs.ended_s10 (r : Regs) (code : ErrCode) (info : Word) : (r.ended code info).s10 = r.s10 := rfl
@[simp] theorem Regs.ended_s11 (r : Regs) (code : ErrCode) (info : Word) : (r.ended code info).s11 = r.s11 := rfl
@[simp] theorem Regs.ended_fr (r : Regs) (code : ErrCode) (info : Word) : (r.ended code info).fr = r.fr := rfl
@[simp] theorem Regs.ended_fc (r : Regs) (code : ErrCode) (info : Word) : (r.ended code info).fc = r.fc := rfl
@[simp] theorem Regs.ended_result (r : Regs) (code : ErrCode) (info : Word) : (r.ended code info).result = r.result := rfl
@[simp] theorem Regs.ended_wcount (r : Regs) (code : ErrCode) (info : Word) : (r.ended code info).wcount = r.wcount := rfl
@[simp] theorem Regs.ended_errInfo (r : Regs) (code : ErrCode) (info : Word) : (r.ended code info).errInfo = info := rfl

/-! ## acked w -/

@[simp] theorem Regs.acked_irqEn (r : Regs) (w : Word) : (r.acked w).irqEn = r.irqEn := rfl
@[simp] theorem Regs.acked_trigSrc (r : Regs) (w : Word) : (r.acked w).trigSrc = r.trigSrc := rfl
@[simp] theorem Regs.acked_cmd (r : Regs) (w : Word) : (r.acked w).cmd = r.cmd := rfl
@[simp] theorem Regs.acked_done (r : Regs) (w : Word) : (r.acked w).done = (r.done && !w.getLsbD 1) := rfl
@[simp] theorem Regs.acked_cmdOvr (r : Regs) (w : Word) : (r.acked w).cmdOvr = (r.cmdOvr && !w.getLsbD 2) := rfl
@[simp] theorem Regs.acked_err (r : Regs) (w : Word) : (r.acked w).err = r.err := rfl
@[simp] theorem Regs.acked_srcAddr (r : Regs) (w : Word) : (r.acked w).srcAddr = r.srcAddr := rfl
@[simp] theorem Regs.acked_dstAddr (r : Regs) (w : Word) : (r.acked w).dstAddr = r.dstAddr := rfl
@[simp] theorem Regs.acked_width (r : Regs) (w : Word) : (r.acked w).width = r.width := rfl
@[simp] theorem Regs.acked_height (r : Regs) (w : Word) : (r.acked w).height = r.height := rfl
@[simp] theorem Regs.acked_channels (r : Regs) (w : Word) : (r.acked w).channels = r.channels := rfl
@[simp] theorem Regs.acked_sigma (r : Regs) (w : Word) : (r.acked w).sigma = r.sigma := rfl
@[simp] theorem Regs.acked_radius (r : Regs) (w : Word) : (r.acked w).radius = r.radius := rfl
@[simp] theorem Regs.acked_angle (r : Regs) (w : Word) : (r.acked w).angle = r.angle := rfl
@[simp] theorem Regs.acked_cosq (r : Regs) (w : Word) : (r.acked w).cosq = r.cosq := rfl
@[simp] theorem Regs.acked_sinq (r : Regs) (w : Word) : (r.acked w).sinq = r.sinq := rfl
@[simp] theorem Regs.acked_s00 (r : Regs) (w : Word) : (r.acked w).s00 = r.s00 := rfl
@[simp] theorem Regs.acked_s01 (r : Regs) (w : Word) : (r.acked w).s01 = r.s01 := rfl
@[simp] theorem Regs.acked_s10 (r : Regs) (w : Word) : (r.acked w).s10 = r.s10 := rfl
@[simp] theorem Regs.acked_s11 (r : Regs) (w : Word) : (r.acked w).s11 = r.s11 := rfl
@[simp] theorem Regs.acked_fr (r : Regs) (w : Word) : (r.acked w).fr = r.fr := rfl
@[simp] theorem Regs.acked_fc (r : Regs) (w : Word) : (r.acked w).fc = r.fc := rfl
@[simp] theorem Regs.acked_result (r : Regs) (w : Word) : (r.acked w).result = r.result := rfl
@[simp] theorem Regs.acked_wcount (r : Regs) (w : Word) : (r.acked w).wcount = r.wcount := rfl
@[simp] theorem Regs.acked_errInfo (r : Regs) (w : Word) : (r.acked w).errInfo = r.errInfo := rfl

/-! ## setTrigQ cq sq -/

@[simp] theorem Regs.setTrigQ_irqEn (r : Regs) (cq sq : Int) : (r.setTrigQ cq sq).irqEn = r.irqEn := rfl
@[simp] theorem Regs.setTrigQ_trigSrc (r : Regs) (cq sq : Int) : (r.setTrigQ cq sq).trigSrc = r.trigSrc := rfl
@[simp] theorem Regs.setTrigQ_cmd (r : Regs) (cq sq : Int) : (r.setTrigQ cq sq).cmd = r.cmd := rfl
@[simp] theorem Regs.setTrigQ_done (r : Regs) (cq sq : Int) : (r.setTrigQ cq sq).done = r.done := rfl
@[simp] theorem Regs.setTrigQ_cmdOvr (r : Regs) (cq sq : Int) : (r.setTrigQ cq sq).cmdOvr = r.cmdOvr := rfl
@[simp] theorem Regs.setTrigQ_err (r : Regs) (cq sq : Int) : (r.setTrigQ cq sq).err = r.err := rfl
@[simp] theorem Regs.setTrigQ_srcAddr (r : Regs) (cq sq : Int) : (r.setTrigQ cq sq).srcAddr = r.srcAddr := rfl
@[simp] theorem Regs.setTrigQ_dstAddr (r : Regs) (cq sq : Int) : (r.setTrigQ cq sq).dstAddr = r.dstAddr := rfl
@[simp] theorem Regs.setTrigQ_width (r : Regs) (cq sq : Int) : (r.setTrigQ cq sq).width = r.width := rfl
@[simp] theorem Regs.setTrigQ_height (r : Regs) (cq sq : Int) : (r.setTrigQ cq sq).height = r.height := rfl
@[simp] theorem Regs.setTrigQ_channels (r : Regs) (cq sq : Int) : (r.setTrigQ cq sq).channels = r.channels := rfl
@[simp] theorem Regs.setTrigQ_sigma (r : Regs) (cq sq : Int) : (r.setTrigQ cq sq).sigma = r.sigma := rfl
@[simp] theorem Regs.setTrigQ_radius (r : Regs) (cq sq : Int) : (r.setTrigQ cq sq).radius = r.radius := rfl
@[simp] theorem Regs.setTrigQ_angle (r : Regs) (cq sq : Int) : (r.setTrigQ cq sq).angle = r.angle := rfl
@[simp] theorem Regs.setTrigQ_cosq (r : Regs) (cq sq : Int) : (r.setTrigQ cq sq).cosq = BitVec.ofInt 16 cq := rfl
@[simp] theorem Regs.setTrigQ_sinq (r : Regs) (cq sq : Int) : (r.setTrigQ cq sq).sinq = BitVec.ofInt 16 sq := rfl
@[simp] theorem Regs.setTrigQ_s00 (r : Regs) (cq sq : Int) : (r.setTrigQ cq sq).s00 = r.s00 := rfl
@[simp] theorem Regs.setTrigQ_s01 (r : Regs) (cq sq : Int) : (r.setTrigQ cq sq).s01 = r.s01 := rfl
@[simp] theorem Regs.setTrigQ_s10 (r : Regs) (cq sq : Int) : (r.setTrigQ cq sq).s10 = r.s10 := rfl
@[simp] theorem Regs.setTrigQ_s11 (r : Regs) (cq sq : Int) : (r.setTrigQ cq sq).s11 = r.s11 := rfl
@[simp] theorem Regs.setTrigQ_fr (r : Regs) (cq sq : Int) : (r.setTrigQ cq sq).fr = r.fr := rfl
@[simp] theorem Regs.setTrigQ_fc (r : Regs) (cq sq : Int) : (r.setTrigQ cq sq).fc = r.fc := rfl
@[simp] theorem Regs.setTrigQ_result (r : Regs) (cq sq : Int) : (r.setTrigQ cq sq).result = r.result := rfl
@[simp] theorem Regs.setTrigQ_wcount (r : Regs) (cq sq : Int) : (r.setTrigQ cq sq).wcount = r.wcount := rfl
@[simp] theorem Regs.setTrigQ_errInfo (r : Regs) (cq sq : Int) : (r.setTrigQ cq sq).errInfo = r.errInfo := rfl

/-! ## endAtCheck code -/

@[simp] theorem State.endAtCheck_cfg (s : State) (code : ErrCode) : (s.endAtCheck code).cfg = s.cfg := rfl
@[simp] theorem State.endAtCheck_regs (s : State) (code : ErrCode) : (s.endAtCheck code).regs = s.regs.ended code 0 := rfl
@[simp] theorem State.endAtCheck_phase (s : State) (code : ErrCode) : (s.endAtCheck code).phase = s.phase := rfl
@[simp] theorem State.endAtCheck_hist (s : State) (code : ErrCode) : (s.endAtCheck code).hist = s.hist := rfl
@[simp] theorem State.endAtCheck_mem (s : State) (code : ErrCode) : (s.endAtCheck code).mem = s.mem := rfl
@[simp] theorem State.endAtCheck_watch (s : State) (code : ErrCode) : (s.endAtCheck code).watch = s.watch := rfl
@[simp] theorem State.endAtCheck_inbox (s : State) (code : ErrCode) : (s.endAtCheck code).inbox = s.inbox := rfl
@[simp] theorem State.endAtCheck_outbox (s : State) (code : ErrCode) : (s.endAtCheck code).outbox = s.outbox := rfl
@[simp] theorem State.endAtCheck_draws (s : State) (code : ErrCode) : (s.endAtCheck code).draws = s.draws := rfl

/-! ## endRun code info -/

@[simp] theorem State.endRun_cfg (s : State) (code : ErrCode) (info : Word) : (s.endRun code info).cfg = s.cfg := rfl
@[simp] theorem State.endRun_regs (s : State) (code : ErrCode) (info : Word) : (s.endRun code info).regs = s.regs.ended code info := rfl
@[simp] theorem State.endRun_phase (s : State) (code : ErrCode) (info : Word) : (s.endRun code info).phase = .idle := rfl
@[simp] theorem State.endRun_hist (s : State) (code : ErrCode) (info : Word) : (s.endRun code info).hist = freeHist s.draws := rfl
@[simp] theorem State.endRun_mem (s : State) (code : ErrCode) (info : Word) : (s.endRun code info).mem = s.mem := rfl
@[simp] theorem State.endRun_watch (s : State) (code : ErrCode) (info : Word) : (s.endRun code info).watch = s.watch := rfl
@[simp] theorem State.endRun_inbox (s : State) (code : ErrCode) (info : Word) : (s.endRun code info).inbox = s.inbox := rfl
@[simp] theorem State.endRun_outbox (s : State) (code : ErrCode) (info : Word) : (s.endRun code info).outbox = s.outbox := rfl
@[simp] theorem State.endRun_draws (s : State) (code : ErrCode) (info : Word) : (s.endRun code info).draws = s.draws + 1 := rfl

/-! ## answer a -/

@[simp] theorem State.answer_cfg (s : State) (a : Answer) : (s.answer a).cfg = s.cfg := rfl
@[simp] theorem State.answer_regs (s : State) (a : Answer) : (s.answer a).regs = s.regs := rfl
@[simp] theorem State.answer_phase (s : State) (a : Answer) : (s.answer a).phase = s.phase := rfl
@[simp] theorem State.answer_hist (s : State) (a : Answer) : (s.answer a).hist = s.hist := rfl
@[simp] theorem State.answer_mem (s : State) (a : Answer) : (s.answer a).mem = s.mem := rfl
@[simp] theorem State.answer_watch (s : State) (a : Answer) : (s.answer a).watch = s.watch := rfl
@[simp] theorem State.answer_inbox (s : State) (a : Answer) : (s.answer a).inbox = s.inbox := rfl
@[simp] theorem State.answer_outbox (s : State) (a : Answer) : (s.answer a).outbox = s.outbox ++ [a] := rfl
@[simp] theorem State.answer_draws (s : State) (a : Answer) : (s.answer a).draws = s.draws := rfl

/-! ## observed -/

@[simp] theorem State.observed_cfg (s : State) : s.observed.cfg = s.cfg := rfl
@[simp] theorem State.observed_regs (s : State) : s.observed.regs = s.regs := rfl
@[simp] theorem State.observed_phase (s : State) : s.observed.phase = s.phase := rfl
@[simp] theorem State.observed_hist (s : State) : s.observed.hist = s.hist := rfl
@[simp] theorem State.observed_mem (s : State) : s.observed.mem = s.mem := rfl
@[simp] theorem State.observed_watch (s : State) : s.observed.watch = [] := rfl
@[simp] theorem State.observed_inbox (s : State) : s.observed.inbox = s.inbox := rfl
@[simp] theorem State.observed_outbox (s : State) : s.observed.outbox = s.outbox := rfl
@[simp] theorem State.observed_draws (s : State) : s.observed.draws = s.draws := rfl

/-! ## withCommandBytes d -/

@[simp] theorem State.withCommandBytes_cfg (s : State) (d : List Byte) : (s.withCommandBytes d).cfg = s.cfg := rfl
@[simp] theorem State.withCommandBytes_regs (s : State) (d : List Byte) : (s.withCommandBytes d).regs = s.regs := rfl
@[simp] theorem State.withCommandBytes_phase (s : State) (d : List Byte) : (s.withCommandBytes d).phase = s.phase := rfl
@[simp] theorem State.withCommandBytes_hist (s : State) (d : List Byte) : (s.withCommandBytes d).hist = s.hist := rfl
@[simp] theorem State.withCommandBytes_mem (s : State) (d : List Byte) : (s.withCommandBytes d).mem = s.mem := rfl
@[simp] theorem State.withCommandBytes_watch (s : State) (d : List Byte) : (s.withCommandBytes d).watch = s.watch := rfl
@[simp] theorem State.withCommandBytes_inbox (s : State) (d : List Byte) : (s.withCommandBytes d).inbox = { after := 0, move := .write (s.cfg.regBase + 8) d } :: s.inbox := rfl
@[simp] theorem State.withCommandBytes_outbox (s : State) (d : List Byte) : (s.withCommandBytes d).outbox = s.outbox := rfl
@[simp] theorem State.withCommandBytes_draws (s : State) (d : List Byte) : (s.withCommandBytes d).draws = s.draws := rfl

/-! ## setParameter: what a parameter write never changes -/

@[simp] theorem Regs.setParameter_irqEn (r : Regs) (reg : Reg) (w : Word) :
    (r.setParameter reg w).irqEn = r.irqEn := by cases reg <;> rfl
@[simp] theorem Regs.setParameter_trigSrc (r : Regs) (reg : Reg) (w : Word) :
    (r.setParameter reg w).trigSrc = r.trigSrc := by cases reg <;> rfl
@[simp] theorem Regs.setParameter_cmd (r : Regs) (reg : Reg) (w : Word) :
    (r.setParameter reg w).cmd = r.cmd := by cases reg <;> rfl
@[simp] theorem Regs.setParameter_done (r : Regs) (reg : Reg) (w : Word) :
    (r.setParameter reg w).done = r.done := by cases reg <;> rfl
@[simp] theorem Regs.setParameter_cmdOvr (r : Regs) (reg : Reg) (w : Word) :
    (r.setParameter reg w).cmdOvr = r.cmdOvr := by cases reg <;> rfl
@[simp] theorem Regs.setParameter_err (r : Regs) (reg : Reg) (w : Word) :
    (r.setParameter reg w).err = r.err := by cases reg <;> rfl
@[simp] theorem Regs.setParameter_result (r : Regs) (reg : Reg) (w : Word) :
    (r.setParameter reg w).result = r.result := by cases reg <;> rfl
@[simp] theorem Regs.setParameter_wcount (r : Regs) (reg : Reg) (w : Word) :
    (r.setParameter reg w).wcount = r.wcount := by cases reg <;> rfl
@[simp] theorem Regs.setParameter_errInfo (r : Regs) (reg : Reg) (w : Word) :
    (r.setParameter reg w).errInfo = r.errInfo := by cases reg <;> rfl

/-! ## advance -/

@[simp] theorem advance_cfg (j : Job) (p : Pos) (s : State) : (advance j p s).cfg = s.cfg := by
  unfold advance; split <;> rfl
@[simp] theorem advance_hist (j : Job) (p : Pos) (s : State) : (advance j p s).hist = s.hist := by
  unfold advance; split <;> rfl
@[simp] theorem advance_mem (j : Job) (p : Pos) (s : State) : (advance j p s).mem = s.mem := by
  unfold advance; split <;> rfl
@[simp] theorem advance_watch (j : Job) (p : Pos) (s : State) : (advance j p s).watch = s.watch := by
  unfold advance; split <;> rfl
@[simp] theorem advance_inbox (j : Job) (p : Pos) (s : State) : (advance j p s).inbox = s.inbox := by
  unfold advance; split <;> rfl
@[simp] theorem advance_outbox (j : Job) (p : Pos) (s : State) : (advance j p s).outbox = s.outbox := by
  unfold advance; split <;> rfl
@[simp] theorem advance_draws (j : Job) (p : Pos) (s : State) : (advance j p s).draws = s.draws := by
  unfold advance; split <;> rfl

/-! ## resetBlock -/

@[simp] theorem resetBlock_cfg (s : State) : (resetBlock s).cfg = s.cfg := by
  unfold resetBlock abortRun; cases s.phase <;> rfl
@[simp] theorem resetBlock_regs (s : State) : (resetBlock s).regs = Regs.reset := rfl
@[simp] theorem resetBlock_phase (s : State) : (resetBlock s).phase = .idle := rfl
@[simp] theorem resetBlock_watch (s : State) : (resetBlock s).watch = s.watch := by
  unfold resetBlock abortRun; cases s.phase <;> rfl
@[simp] theorem resetBlock_inbox (s : State) : (resetBlock s).inbox = s.inbox := by
  unfold resetBlock abortRun; cases s.phase <;> rfl
@[simp] theorem resetBlock_outbox (s : State) : (resetBlock s).outbox = s.outbox := by
  unfold resetBlock abortRun; cases s.phase <;> rfl

/-! ## failRun -/

@[simp] theorem failRun_cfg (j : Job) (e : RunError) (s : State) : (failRun j e s).cfg = s.cfg := rfl
@[simp] theorem failRun_phase (j : Job) (e : RunError) (s : State) : (failRun j e s).phase = .idle := rfl
@[simp] theorem failRun_watch (j : Job) (e : RunError) (s : State) : (failRun j e s).watch = s.watch := rfl
@[simp] theorem failRun_inbox (j : Job) (e : RunError) (s : State) : (failRun j e s).inbox = s.inbox := rfl
@[simp] theorem failRun_outbox (j : Job) (e : RunError) (s : State) : (failRun j e s).outbox = s.outbox := rfl

/-! ## busy, by phase -/

@[simp] theorem Phase.busy_idle : Phase.idle.busy = false := rfl
@[simp] theorem Phase.busy_trig : Phase.trig.busy = true := rfl
@[simp] theorem Phase.busy_bilerp : Phase.bilerp.busy = true := rfl
@[simp] theorem Phase.busy_image (j : Job) (p : Pos) : (Phase.image j p).busy = true := rfl

/-- BUSY is 0 exactly in the phase IDLE (10_state R47). -/
theorem State.busy_eq_false_iff (s : State) : s.busy = false ↔ s.phase = .idle := by
  unfold State.busy; cases s.phase <;> simp [Phase.busy]

/-! ## The reset state (70_reset_and_hazards R400, R401) -/

@[simp] theorem State.reset_regs : State.reset.regs = Regs.reset := rfl
@[simp] theorem State.reset_phase : State.reset.phase = .idle := rfl
@[simp] theorem State.reset_mem : State.reset.mem = [] := rfl
@[simp] theorem State.reset_inbox : State.reset.inbox = [] := rfl

end Sys2Proof.Machine
end

