-- ==== Sys2Proof/Laws/Memory.lean ====
section
/-! SUPPORT. The laws of memory: a read after a write, and that every memory operation keeps the canonical form. -/

namespace Sys2Proof.Machine

@[simp] theorem Memory.read_nil (a : Nat) : Memory.read [] a = Memory.unlisted := rfl

/-- In canonical form nothing is listed below the first entry. -/
theorem Memory.read_below {m : Memory} {a : Nat} (h : ∀ e ∈ m, a < e.1) : Memory.read m a = Memory.unlisted := by
  induction m with
  | nil => rfl
  | cons e m ih =>
    have h1 : a < e.1 := h e (by simp)
    rw [Memory.read, if_neg (by omega), ih (fun x hx => h x (by simp [hx]))]

/-- Every entry after the first has a higher address. -/
theorem Memory.wf_tail {e : Host.Cell} {m : Memory} (h : Memory.wf (e :: m)) : Memory.wf m := by
  obtain ⟨h1, h2⟩ := h
  exact ⟨(List.pairwise_cons.mp h1).2, fun x hx => h2 x (by simp [hx])⟩

theorem Memory.wf_head {e : Host.Cell} {m : Memory} (h : Memory.wf (e :: m)) : ∀ x ∈ m, e.1 < x.1 :=
  (List.pairwise_cons.mp h.1).1

/-- A read after a write to the same address gives the value written (20_memory R65). -/
theorem Memory.read_write_same {m : Memory} (h : m.wf) (a : Nat) (v : Byte) : (m.write a v).read a = v := by
  induction m with
  | nil => unfold Memory.write; split <;> simp_all [Memory.read]
  | cons e m ih =>
    obtain ⟨k, u⟩ := e
    have hk := Memory.wf_head h
    have ih := ih (Memory.wf_tail h)
    unfold Memory.write
    split
    · split
      · subst v
        exact Memory.read_below fun x hx => by
          rcases List.mem_cons.mp hx with rfl | hx
          · assumption
          · exact Nat.lt_trans ‹a < k› (hk x hx)
      · simp [Memory.read]
    · split
      · subst a
        split
        · subst v
          exact Memory.read_below hk
        · simp [Memory.read]
      · rw [Memory.read, if_neg (by omega), ih]

/-- A write leaves every other address alone (20_memory R65). -/
theorem Memory.read_write_other {m : Memory} {a b : Nat} (hab : b ≠ a) (v : Byte) :
    (m.write a v).read b = m.read b := by
  induction m with
  | nil => unfold Memory.write; split <;> simp [Memory.read, Ne.symm hab]
  | cons e m ih =>
    obtain ⟨k, u⟩ := e
    unfold Memory.write
    split
    · split
      · rfl
      · rw [Memory.read, if_neg (Ne.symm hab)]
    · split
      · subst a
        split <;> simp [Memory.read, Ne.symm hab]
      · rw [Memory.read, Memory.read, ih]

/-- Both cases of a read after a write. -/
theorem Memory.read_write {m : Memory} (h : m.wf) (a b : Nat) (v : Byte) :
    (m.write a v).read b = if b = a then v else m.read b := by
  split
  · subst b; exact Memory.read_write_same h a v
  · exact Memory.read_write_other ‹_› v

/-- A write adds no address but its own. -/
theorem Memory.mem_write {m : Memory} {a : Nat} {v : Byte} {e : Host.Cell} (h : e ∈ m.write a v) :
    e = (a, v) ∧ v ≠ Memory.unlisted ∨ e ∈ m := by
  induction m with
  | nil => unfold Memory.write at h; split at h <;> simp_all
  | cons x m ih =>
    obtain ⟨k, u⟩ := x
    unfold Memory.write at h
    split at h
    · split at h
      · exact .inr h
      · rcases List.mem_cons.mp h with rfl | h
        · exact .inl ⟨rfl, ‹_›⟩
        · exact .inr h
    · split at h
      · split at h
        · exact .inr (List.mem_cons_of_mem _ h)
        · rcases List.mem_cons.mp h with rfl | h
          · exact .inl ⟨rfl, ‹_›⟩
          · exact .inr (List.mem_cons_of_mem _ h)
      · rcases List.mem_cons.mp h with rfl | h
        · exact .inr (by simp)
        · rcases ih h with h | h
          · exact .inl h
          · exact .inr (List.mem_cons_of_mem _ h)

/-- A write inside the address space keeps the canonical form. -/
theorem Memory.write_wf {m : Memory} (h : m.wf) {a : Nat} (ha : a < 2 ^ 32) (v : Byte) : (m.write a v).wf := by
  refine ⟨?_, ?_⟩
  · induction m with
    | nil => unfold Memory.write; split <;> simp
    | cons e m ih =>
      obtain ⟨k, u⟩ := e
      have hk := Memory.wf_head h
      have hm := Memory.wf_tail h
      unfold Memory.write
      split
      · split
        · exact h.1
        · refine List.pairwise_cons.mpr ⟨fun x hx => ?_, h.1⟩
          rcases List.mem_cons.mp hx with rfl | hx
          · assumption
          · exact Nat.lt_trans ‹a < k› (hk x hx)
      · split
        · subst a
          split
          · exact hm.1
          · exact List.pairwise_cons.mpr ⟨hk, hm.1⟩
        · refine List.pairwise_cons.mpr ⟨fun x hx => ?_, ih hm⟩
          rcases Memory.mem_write hx with ⟨rfl, -⟩ | hx
          · show k < a; omega
          · exact hk x hx
  · intro e he
    rcases Memory.mem_write he with ⟨rfl, hv⟩ | he
    · exact ⟨ha, hv⟩
    · exact h.2 e he

/-- Empty memory is in canonical form: the memory of the reset state. -/
theorem Memory.wf_nil : Memory.wf [] := by
  simp [Memory.wf]

/-- A start-state image keeps the canonical form. -/
theorem Memory.withImage_wf {m : Memory} (h : m.wf) (bytes : List Byte) :
    ∀ base, base + bytes.length ≤ 2 ^ 32 → (m.withImage base bytes).wf := by
  induction bytes generalizing m with
  | nil => intro _ _; exact h
  | cons b rest ih =>
    intro base hb
    simp only [List.length_cons] at hb
    exact ih (Memory.write_wf h (by omega) b) (base + 1) (by omega)

/-- A settled output keeps the canonical form (60_exceptions R313). -/
theorem settleSamples_wf {j : Job} {keep : Sample → Bool} {samples : List Sample}
    (hs : ∀ p ∈ samples, j.outAddr p.1 p.2.1 p.2.2 < 2 ^ 32) :
    ∀ {m : Memory} {draw : Nat}, m.wf → (settleSamples j keep samples draw m).wf := by
  induction samples with
  | nil => intro _ _ h; exact h
  | cons p rest ih =>
    obtain ⟨r, c, ch⟩ := p
    intro m draw h
    exact ih (fun q hq => hs q (by simp [hq])) (Memory.write_wf h (hs (r, c, ch) (by simp)) _)

/-- A settled output changes no byte outside the samples it settles (60_exceptions R313). -/
theorem settleSamples_read_other {j : Job} {keep : Sample → Bool} {samples : List Sample} {a : Nat}
    (ha : ∀ p ∈ samples, a ≠ j.outAddr p.1 p.2.1 p.2.2) :
    ∀ {m : Memory} {draw : Nat}, (settleSamples j keep samples draw m).read a = m.read a := by
  induction samples with
  | nil => intros; rfl
  | cons p rest ih =>
    obtain ⟨r, c, ch⟩ := p
    intro m draw
    rw [settleSamples, ih (fun q hq => ha q (by simp [hq])), Memory.read_write_other (ha (r, c, ch) (by simp))]

/-- Each settled sample holds its old or its new value, and its old one where it must (60_exceptions R313). -/
theorem settleSamples_read {j : Job} {keep : Sample → Bool} {samples : List Sample} {p : Sample}
    (hs : ∀ q ∈ samples, j.outAddr q.1 q.2.1 q.2.2 < 2 ^ 32)
    (hinj : ∀ q ∈ samples, j.outAddr q.1 q.2.1 q.2.2 = j.outAddr p.1 p.2.1 p.2.2 → q = p) (hp : p ∈ samples) :
    ∀ {m : Memory} {draw : Nat}, m.wf →
      (settleSamples j keep samples draw m).read (j.outAddr p.1 p.2.1 p.2.2) = j.mem0.read (j.outAddr p.1 p.2.1 p.2.2) ∨
        keep p = false ∧
          (settleSamples j keep samples draw m).read (j.outAddr p.1 p.2.1 p.2.2) = j.newValue p.1 p.2.1 p.2.2 := by
  induction samples with
  | nil => simp at hp
  | cons q rest ih =>
    obtain ⟨r, c, ch⟩ := q
    intro m draw h
    have hq := hs (r, c, ch) (by simp)
    by_cases hpr : p ∈ rest
    · exact ih (fun q hq => hs q (by simp [hq])) (fun q hq => hinj q (by simp [hq])) hpr (Memory.write_wf h hq _)
    · have hpe : p = (r, c, ch) := by
        rcases List.mem_cons.mp hp with h | h
        · exact h
        · exact absurd h hpr
      subst hpe
      rw [settleSamples, settleSamples_read_other, Memory.read_write_same h]
      · cases hk : keep (r, c, ch) <;> cases hb : Config.freeBit draw <;> simp
      · intro q hq he
        exact hpr (hinj q (by simp [hq]) he.symm ▸ hq)

end Sys2Proof.Machine
end

