-- ==== Sys2Proof/Laws/Image.lean ====
section
/-! SUPPORT. The geometry of an image command: indices, buffers, the write set (20_memory R62, R63, R66, R67). -/

namespace Sys2Proof.Machine

theorem mem_upTo {a b x : Nat} : x ∈ upTo a b ↔ a ≤ x ∧ x ≤ b := by
  unfold upTo; rw [List.mem_range'_1]; omega

theorem mem_rectangle {r0 r1 c0 c1 n r c ch : Nat} :
    (r, c, ch) ∈ rectangle r0 r1 c0 c1 n ↔ (r0 ≤ r ∧ r ≤ r1) ∧ (c0 ≤ c ∧ c ≤ c1) ∧ ch < n := by
  simp only [rectangle, List.mem_flatMap, List.mem_map, List.mem_range, mem_upTo, Prod.mk.injEq]
  constructor
  · rintro ⟨_, hr, _, hc, _, hch, rfl, rfl, rfl⟩; exact ⟨hr, hc, hch⟩
  · rintro ⟨hr, hc, hch⟩; exact ⟨r, hr, c, hc, ch, hch, rfl, rfl, rfl⟩

theorem Job.mem_window {j : Job} {k r c : Nat} {q : Nat × Nat} :
    q ∈ j.window k r c ↔ (r - k ≤ q.1 ∧ q.1 ≤ min (j.h - 1) (r + k)) ∧ (c - k ≤ q.2 ∧ q.2 ≤ min (j.w - 1) (c + k)) := by
  obtain ⟨a, b⟩ := q
  simp only [Job.window, Job.band, Job.columns, List.mem_flatMap, List.mem_map, mem_upTo, Prod.mk.injEq]
  constructor
  · rintro ⟨_, hr, _, hc, rfl, rfl⟩; exact ⟨hr, hc⟩
  · rintro ⟨hr, hc⟩; exact ⟨a, hr, b, hc, rfl, rfl⟩

/-- The index of a sample of the image lies in the buffer (20_memory R62, R63). -/
theorem Job.index_lt_len {j : Job} {r c ch : Nat} (h : j.hasSample r c ch) : j.index r c ch < j.len := by
  obtain ⟨hr, hc, hch⟩ := h
  have h1 : r * j.w + c + 1 ≤ j.h * j.w := by
    calc r * j.w + c + 1 ≤ r * j.w + j.w := by omega
      _ = (r + 1) * j.w := by ring
      _ ≤ j.h * j.w := Nat.mul_le_mul_right _ hr
  calc j.index r c ch < (r * j.w + c) * j.c + j.c := by unfold Job.index; omega
    _ = (r * j.w + c + 1) * j.c := by ring
    _ ≤ j.h * j.w * j.c := Nat.mul_le_mul_right _ h1
    _ = j.len := by unfold Job.len; ring

/-- Row, column and channel of an index, read backwards (20_memory R62). -/
theorem Job.index_split {j : Job} {r c ch : Nat} (hc : c < j.w) (hch : ch < j.c) :
    j.index r c ch / j.c / j.w = r ∧ j.index r c ch / j.c % j.w = c ∧ j.index r c ch % j.c = ch := by
  have h1 : j.index r c ch / j.c = r * j.w + c := by
    unfold Job.index
    rw [Nat.mul_comm, Nat.mul_add_div (by omega), Nat.div_eq_of_lt hch, Nat.add_zero]
  refine ⟨?_, ?_, ?_⟩
  · rw [h1, Nat.mul_comm, Nat.mul_add_div (by omega), Nat.div_eq_of_lt hc, Nat.add_zero]
  · rw [h1, Nat.mul_comm, Nat.mul_add_mod, Nat.mod_eq_of_lt hc]
  · unfold Job.index; rw [Nat.mul_comm, Nat.mul_add_mod, Nat.mod_eq_of_lt hch]

/-- Two samples of the image at one index are one sample. -/
theorem Job.index_inj {j : Job} {r c ch r' c' ch' : Nat} (h : j.hasSample r c ch) (h' : j.hasSample r' c' ch')
    (he : j.index r c ch = j.index r' c' ch') : r = r' ∧ c = c' ∧ ch = ch' := by
  have a := Job.index_split (r := r) h.2.1 h.2.2
  have b := Job.index_split (r := r') h'.2.1 h'.2.2
  rw [he] at a
  exact ⟨a.1.symm.trans b.1, a.2.1.symm.trans b.2.1, a.2.2.symm.trans b.2.2⟩

/-- The sample an output address holds (20_memory R62). -/
theorem Job.sampleAt_outAddr {j : Job} {r c ch : Nat} (hc : c < j.w) (hch : ch < j.c) :
    j.sampleAt (j.outAddr r c ch) = (r, c, ch) := by
  obtain ⟨h1, h2, h3⟩ := Job.index_split (r := r) hc hch
  simp only [Job.sampleAt, Job.outAddr, Nat.add_sub_cancel_left, h1, h2, h3]

/-- Every byte of the output buffer holds a sample of the image (20_memory R62, R63). -/
theorem Job.sampleAt_hasSample {j : Job} {a : Nat} (h : j.inOutput a = true) :
    j.hasSample (j.sampleAt a).1 (j.sampleAt a).2.1 (j.sampleAt a).2.2 ∧
      j.outAddr (j.sampleAt a).1 (j.sampleAt a).2.1 (j.sampleAt a).2.2 = a := by
  simp only [Job.inOutput, decide_eq_true_eq] at h
  have hl : a - j.dst < j.len := by omega
  have hc : 0 < j.c := by
    rcases Nat.eq_zero_or_pos j.c with h0 | h0
    · simp [Job.len, h0] at hl
    · exact h0
  have hw : 0 < j.w := by
    rcases Nat.eq_zero_or_pos j.w with h0 | h0
    · simp [Job.len, h0] at hl
    · exact h0
  refine ⟨⟨?_, Nat.mod_lt _ hw, Nat.mod_lt _ hc⟩, ?_⟩
  · rw [Job.sampleAt, Nat.div_div_eq_div_mul]
    apply Nat.div_lt_of_lt_mul
    calc a - j.dst < j.len := hl
      _ = j.c * j.w * j.h := by unfold Job.len; ring
  · unfold Job.outAddr Job.index Job.sampleAt
    have e1 := Nat.div_add_mod ((a - j.dst) / j.c) j.w
    have e2 := Nat.div_add_mod (a - j.dst) j.c
    have e3 : (a - j.dst) / j.c / j.w * j.w + (a - j.dst) / j.c % j.w = (a - j.dst) / j.c := by
      rw [Nat.mul_comm]; exact e1
    simp only [e3]
    rw [Nat.mul_comm ((a - j.dst) / j.c)]
    omega

/-- Two samples of the image at one output address are one sample. -/
theorem Job.outAddr_inj {j : Job} {r c ch r' c' ch' : Nat} (h : j.hasSample r c ch) (h' : j.hasSample r' c' ch')
    (he : j.outAddr r c ch = j.outAddr r' c' ch') : r = r' ∧ c = c' ∧ ch = ch' :=
  Job.index_inj h h' (by unfold Job.outAddr at he; omega)

theorem Job.Legal.c_pos {j : Job} (h : j.Legal) : 0 < j.c := by rcases h.1 with h | h <;> omega
theorem Job.Legal.c_le {j : Job} (h : j.Legal) : j.c ≤ 3 := by rcases h.1 with h | h <;> omega
theorem Job.Legal.w_pos {j : Job} (h : j.Legal) : 0 < j.w := h.2.1.1
theorem Job.Legal.h_pos {j : Job} (h : j.Legal) : 0 < j.h := h.2.2.1.1
theorem Job.Legal.src_fits {j : Job} (h : j.Legal) : j.src + j.len ≤ 2 ^ 32 := by
  have := h.2.2.2.2.1; unfold wraps at this; omega
theorem Job.Legal.dst_fits {j : Job} (h : j.Legal) : j.dst + j.len ≤ 2 ^ 32 := by
  have := h.2.2.2.2.2.1; unfold wraps at this; omega

/-- The buffers of a legal job share no byte (20_memory R67). -/
theorem Job.Legal.disjoint {j : Job} (h : j.Legal) {a : Nat} : ¬ (j.inInput a = true ∧ j.inOutput a = true) := by
  have := h.2.2.2.2.2.2
  simp only [overlap, Job.inInput, Job.inOutput, decide_eq_true_eq] at *
  omega

/-- A sample's output address lies in the output buffer (20_memory R63). -/
theorem Job.inOutput_outAddr {j : Job} {r c ch : Nat} (h : j.hasSample r c ch) : j.inOutput (j.outAddr r c ch) = true := by
  have := Job.index_lt_len h
  exact decide_eq_true (by unfold Job.outAddr; omega)

/-- A sample's input address lies in the input buffer (20_memory R63). -/
theorem Job.inInput_inAddr {j : Job} {r c ch : Nat} (h : j.hasSample r c ch) : j.inInput (j.inAddr r c ch) = true := by
  have := Job.index_lt_len h
  exact decide_eq_true (by unfold Job.inAddr; omega)

/-- A sample's output address lies in the address space (20_memory R66). -/
theorem Job.Legal.outAddr_lt {j : Job} (hj : j.Legal) {r c ch : Nat} (h : j.hasSample r c ch) :
    j.outAddr r c ch < 2 ^ 32 := by
  have h1 := Job.index_lt_len h
  have h2 := hj.dst_fits
  unfold Job.outAddr; omega

/-- A touched pixel's four neighbours are pixels of the image (45_fixed_point_rotation R206). -/
theorem Source.touched_bounds {m : Source} {w h : Nat} (ht : m.touched w h = true) :
    m.ir.toNat + 1 < h ∧ m.ic.toNat + 1 < w := by
  simp only [Source.touched, decide_eq_true_eq] at ht; omega

theorem Job.mem_writePixels {j : Job} {r c : Nat} : (r, c) ∈ j.writePixels ↔ r < j.h ∧ c < j.w ∧ j.writes r c = true := by
  simp only [Job.writePixels, List.mem_filter, List.mem_flatMap, List.mem_map, List.mem_range, Prod.mk.injEq]
  constructor
  · rintro ⟨⟨_, hr, _, hc, rfl, rfl⟩, hw⟩; exact ⟨hr, hc, hw⟩
  · rintro ⟨hr, hc, hw⟩; exact ⟨⟨r, hr, c, hc, rfl, rfl⟩, hw⟩

/-- The write set: every sample of every pixel the command writes (41 R130, 45 R208). -/
theorem Job.mem_writeSet {j : Job} {r c ch : Nat} :
    (r, c, ch) ∈ j.writeSet ↔ j.hasSample r c ch ∧ j.writes r c = true := by
  simp only [Job.writeSet, List.mem_flatMap, List.mem_map, List.mem_range, Prod.mk.injEq, Job.hasSample]
  constructor
  · rintro ⟨⟨a, b⟩, hp, _, hch, rfl, rfl, rfl⟩
    have := Job.mem_writePixels.mp hp
    exact ⟨⟨this.1, this.2.1, hch⟩, this.2.2⟩
  · rintro ⟨⟨hr, hc, hch⟩, hw⟩
    exact ⟨(r, c), Job.mem_writePixels.mpr ⟨hr, hc, hw⟩, ch, hch, rfl, rfl, rfl⟩

/-- An address holds a sample of the write set exactly when it is that sample's output address. -/
theorem Job.writesAddr_iff {j : Job} {a : Nat} :
    j.writesAddr a = true ↔ ∃ r c ch, (r, c, ch) ∈ j.writeSet ∧ j.outAddr r c ch = a := by
  constructor
  · intro h
    simp only [Job.writesAddr, Bool.and_eq_true] at h
    obtain ⟨h1, h2⟩ := Job.sampleAt_hasSample h.1
    exact ⟨_, _, _, Job.mem_writeSet.mpr ⟨h1, h.2⟩, h2⟩
  · rintro ⟨r, c, ch, hm, rfl⟩
    obtain ⟨hs, hw⟩ := Job.mem_writeSet.mp hm
    simp only [Job.writesAddr, Bool.and_eq_true, Job.inOutput_outAddr hs, Job.sampleAt_outAddr hs.2.1 hs.2.2, hw, and_self]

/-- What settling an output does to memory, said once (60_exceptions R313, 70 R403): the canonical form stays, no byte outside the
write set changes, each sample of the write set is old or new, and old where it must be. -/
theorem Job.settle_spec {j : Job} (hj : j.Legal) {m : Memory} (hm : m.wf) (keep : Sample → Bool) (draw : Nat) :
    (j.settle keep draw m).wf ∧
      (∀ a, j.writesAddr a = false → (j.settle keep draw m).read a = m.read a) ∧
      ∀ r c ch, (r, c, ch) ∈ j.writeSet →
        (j.settle keep draw m).read (j.outAddr r c ch) = j.mem0.read (j.outAddr r c ch) ∨
          keep (r, c, ch) = false ∧ (j.settle keep draw m).read (j.outAddr r c ch) = j.newValue r c ch := by
  have hs : ∀ q ∈ j.writeSet, j.outAddr q.1 q.2.1 q.2.2 < 2 ^ 32 := fun q hq =>
    hj.outAddr_lt (Job.mem_writeSet.mp hq).1
  refine ⟨settleSamples_wf hs hm, fun a ha => settleSamples_read_other fun p hp he => ?_, fun r c ch hp => ?_⟩
  · have : j.writesAddr a = true := Job.writesAddr_iff.mpr ⟨p.1, p.2.1, p.2.2, hp, he.symm⟩
    simp [this] at ha
  · refine settleSamples_read (p := (r, c, ch)) hs (fun q hq he => ?_) hp hm
    obtain ⟨h1, h2, h3⟩ := Job.outAddr_inj (Job.mem_writeSet.mp hq).1 (Job.mem_writeSet.mp hp).1 he
    exact Prod.ext h1 (Prod.ext h2 h3)

end Sys2Proof.Machine
end

