-- ==== Sys2Proof/Laws/Histogram.lean ====
section
/-! SUPPORT. What the histogram window's operations can do, said once for each (40_histogram_window R100 to R104). -/

namespace Sys2Proof.Machine

/-! ## The counters -/

/-- HIST_INIT's clearing (R100): the used channels hold 0, the others what they held. -/
theorem Hist.count_cleared (h : Hist) (c ch : Nat) (p : Byte) :
    (h.cleared c).count ch p = if ch < c then 0 else h.count ch p := by
  unfold Hist.count Hist.cleared
  by_cases hc : ch < 3
  · rw [dif_pos hc, dif_pos hc, Vector.getElem_ofFn]
    by_cases hu : ch < c
    · rw [if_pos hu, if_pos hu, Vector.getElem_replicate]
    · rw [if_neg hu, if_neg hu]; rfl
  · rw [dif_neg hc, dif_neg hc, ite_self]

/-- A counter after one counter is set. -/
theorem Hist.count_setCount (h : Hist) {ch : Nat} (hc : ch < 3) (x : Byte) (n ch' : Nat) (p : Byte) :
    (h.setCount ch x n).count ch' p = if ch' = ch ∧ p = x then n else h.count ch' p := by
  unfold Hist.setCount Hist.count
  rw [dif_pos hc]
  by_cases hc' : ch' < 3
  · rw [dif_pos hc', dif_pos hc']
    by_cases he : ch' = ch
    · subst he
      rw [Vector.getElem_set_self, Vector.getElem_set]
      simp only [true_and, ← BitVec.toNat_inj, eq_comm]
    · rw [Vector.getElem_set_ne _ _ (fun h => he h.symm), if_neg (fun h => he h.1)]
  · rw [dif_neg hc', dif_neg hc', if_neg]
    rintro ⟨rfl, -⟩
    exact hc' hc

/-- A counter after one increment (R103). -/
theorem Hist.count_inc (h : Hist) {ch : Nat} (hc : ch < 3) (x : Byte) (ch' : Nat) (p : Byte) :
    (h.inc ch x).count ch' p = h.count ch' p + if ch' = ch ∧ p = x then 1 else 0 := by
  rw [Hist.inc, Hist.count_setCount h hc]
  split
  · rename_i e; rw [e.1, e.2]
  · rfl

/-- A decrement (R102, R104): ERR_INVARIANT on a counter at 0, and one less on any other. -/
theorem Hist.dec_cases (h : Hist) {ch : Nat} (hc : ch < 3) (x : Byte) :
    (h.count ch x = 0 ∧ h.dec ch x = .error (.invariant ch x)) ∨
      ∃ h', h.dec ch x = .ok h' ∧ ∀ ch' p, h.count ch' p = h'.count ch' p + if ch' = ch ∧ p = x then 1 else 0 := by
  unfold Hist.dec
  split
  · exact .inl ⟨‹_›, rfl⟩
  · refine .inr ⟨_, rfl, fun ch' p => ?_⟩
    rw [Hist.count_setCount h hc]
    split
    · rename_i h0 e; rw [e.1, e.2]; omega
    · rfl

/-! ## The loops over samples -/

/-- How often a list of samples holds the value `p` in channel `ch`. -/
def Job.countIn (j : Job) (l : List Sample) (ch : Nat) (p : Byte) : Nat :=
  (l.filter fun q => q.2.2 = ch ∧ j.input q.1 q.2.1 q.2.2 = p).length

@[simp] theorem Job.countIn_nil (j : Job) (ch : Nat) (p : Byte) : j.countIn [] ch p = 0 := rfl

theorem Job.countIn_cons (j : Job) (q : Sample) (l : List Sample) (ch : Nat) (p : Byte) :
    j.countIn (q :: l) ch p = j.countIn l ch p + if ch = q.2.2 ∧ p = j.input q.1 q.2.1 q.2.2 then 1 else 0 := by
  unfold Job.countIn
  rw [List.filter_cons]
  by_cases hq : q.2.2 = ch ∧ j.input q.1 q.2.1 q.2.2 = p
  · rw [if_pos (by simpa using hq), if_pos ⟨hq.1.symm, hq.2.symm⟩, List.length_cons]
  · rw [if_neg (by simpa using hq), if_neg (fun h => hq ⟨h.1.symm, h.2.symm⟩), Nat.add_zero]

theorem Job.countIn_append (j : Job) (l m : List Sample) (ch : Nat) (p : Byte) :
    j.countIn (l ++ m) ch p = j.countIn l ch p + j.countIn m ch p := by
  simp [Job.countIn]

/-- The bus answers every read of a list of samples. -/
def Job.readsOk (j : Job) (cfg : Config) (l : List Sample) : Prop :=
  ∀ q ∈ l, cfg.busErrAt (j.inAddr q.1 q.2.1 q.2.2) = false

/-- What a sample read can do: answer the sample, or report the address the bus answered with an error. -/
theorem readSample_cases (cfg : Config) (j : Job) (r c ch : Nat) :
    (cfg.busErrAt (j.inAddr r c ch) = false ∧ readSample cfg j r c ch = .ok (j.input r c ch)) ∨
      (cfg.busErrAt (j.inAddr r c ch) = true ∧ readSample cfg j r c ch = .error (.bus (j.inAddr r c ch))) := by
  unfold readSample
  cases h : cfg.busErrAt (j.inAddr r c ch) with
  | false => exact .inl ⟨rfl, rfl⟩
  | true => exact .inr ⟨rfl, rfl⟩

/-- What counting a list in can do (R100, R103): every counter goes up by the list's count, or a read failed on the bus. -/
theorem addSamples_cases (cfg : Config) (j : Job) (l : List Sample) (hl : ∀ q ∈ l, q.2.2 < 3) (h : Hist) :
    (j.readsOk cfg l ∧ ∃ h', addSamples cfg j l h = .ok h' ∧ ∀ ch p, h'.count ch p = h.count ch p + j.countIn l ch p) ∨
      ∃ q ∈ l, cfg.busErrAt (j.inAddr q.1 q.2.1 q.2.2) = true ∧
        addSamples cfg j l h = .error (.bus (j.inAddr q.1 q.2.1 q.2.2)) := by
  induction l generalizing h with
  | nil => exact .inl ⟨by simp [Job.readsOk], h, rfl, by simp⟩
  | cons q l ih =>
    obtain ⟨r, c, ch⟩ := q
    rcases readSample_cases cfg j r c ch with ⟨hb, hr⟩ | ⟨hb, hr⟩
    · have e : addSamples cfg j ((r, c, ch) :: l) h = addSamples cfg j l (h.inc ch (j.input r c ch)) := by
        rw [addSamples, hr]
      rw [e]
      rcases ih (fun q hq => hl q (List.mem_cons_of_mem _ hq)) (h.inc ch (j.input r c ch)) with ⟨hok, h', he, hc⟩ | ⟨q, hq, hx⟩
      · refine .inl ⟨?_, h', he, fun ch' p => ?_⟩
        · intro q hq
          rcases List.mem_cons.mp hq with rfl | hq
          · exact hb
          · exact hok q hq
        · rw [hc, Hist.count_inc h (hl (r, c, ch) List.mem_cons_self), Job.countIn_cons]
          dsimp only
          omega
      · exact .inr ⟨q, List.mem_cons_of_mem _ hq, hx⟩
    · refine .inr ⟨(r, c, ch), List.mem_cons_self, hb, ?_⟩
      rw [addSamples, hr]

/-- What taking a list out can do where every counter holds at least the list's count (R102): every counter goes down by it, or a
read failed on the bus. ERR_INVARIANT is not among them. -/
theorem removeSamples_cases (cfg : Config) (j : Job) (l : List Sample) (hl : ∀ q ∈ l, q.2.2 < 3) (h : Hist)
    (hn : ∀ ch p, j.countIn l ch p ≤ h.count ch p) :
    (j.readsOk cfg l ∧ ∃ h', removeSamples cfg j l h = .ok h' ∧ ∀ ch p, h.count ch p = h'.count ch p + j.countIn l ch p) ∨
      ∃ q ∈ l, cfg.busErrAt (j.inAddr q.1 q.2.1 q.2.2) = true ∧
        removeSamples cfg j l h = .error (.bus (j.inAddr q.1 q.2.1 q.2.2)) := by
  induction l generalizing h with
  | nil => exact .inl ⟨by simp [Job.readsOk], h, rfl, by simp⟩
  | cons q l ih =>
    obtain ⟨r, c, ch⟩ := q
    have hch : ch < 3 := hl (r, c, ch) List.mem_cons_self
    rcases readSample_cases cfg j r c ch with ⟨hb, hr⟩ | ⟨hb, hr⟩
    · have h0 := hn ch (j.input r c ch)
      rw [Job.countIn_cons, if_pos ⟨rfl, rfl⟩] at h0
      rcases Hist.dec_cases h hch (j.input r c ch) with ⟨hz, -⟩ | ⟨h1, hd, h1c⟩
      · omega
      have e : removeSamples cfg j ((r, c, ch) :: l) h = removeSamples cfg j l h1 := by
        rw [removeSamples, hr]; simp only [hd]
      rw [e]
      have hn' : ∀ ch p, j.countIn l ch p ≤ h1.count ch p := by
        intro ch' p
        have h2 := hn ch' p
        rw [Job.countIn_cons, h1c ch' p] at h2
        dsimp only at h2
        omega
      rcases ih (fun q hq => hl q (List.mem_cons_of_mem _ hq)) h1 hn' with ⟨hok, h', he, hc⟩ | ⟨q, hq, hx⟩
      · refine .inl ⟨?_, h', he, fun ch' p => ?_⟩
        · intro q hq
          rcases List.mem_cons.mp hq with rfl | hq
          · exact hb
          · exact hok q hq
        · rw [h1c, hc, Job.countIn_cons]
          dsimp only
          omega
      · exact .inr ⟨q, List.mem_cons_of_mem _ hq, hx⟩
    · refine .inr ⟨(r, c, ch), List.mem_cons_self, hb, ?_⟩
      rw [removeSamples, hr]

/-! ## The sums over bins (41_sigma_filter R122) -/

/-- The bins `lo..hi` of a channel, as the counters of the values in that range. -/
theorem Hist.bins_eq (h : Hist) {ch : Nat} (hc : ch < 3) (lo hi : Nat) :
    h.bins ch lo hi =
      ((List.range 256).filter fun p => decide (lo ≤ p ∧ p ≤ hi)).map fun p => (h.count ch (BitVec.ofNat 8 p), p) := by
  have e : (h[ch]).toList.zipIdx = (List.range 256).map fun p => (h.count ch (BitVec.ofNat 8 p), p) := by
    apply List.ext_getElem
    · simp
    · intro n h1 h2
      have hn : n < 256 := by simpa using h2
      simp only [List.getElem_zipIdx, Nat.zero_add, List.getElem_map, List.getElem_range, Prod.mk.injEq, and_true]
      unfold Hist.count
      rw [dif_pos hc]
      simp [Nat.mod_eq_of_lt hn]
  rw [Hist.bins, dif_pos hc, e, List.filter_map]
  rfl

end Sys2Proof.Machine
end

