-- ==== Sys2Proof/Laws/PerInstr.lean ====
section
/-! SUPPORT. The family EncodesToWord: the bytes of an instruction are the lanes of its command word. -/

namespace Sys2Proof

/-- The lanes of a word make the word again (20_memory R61). -/
theorem wordOfBytes_lanes (w : Word) :
    wordOfBytes (w.extractLsb' 0 8) (w.extractLsb' 8 8) (w.extractLsb' 16 8) (w.extractLsb' 24 8) = w := by
  apply BitVec.eq_of_getLsbD_eq
  intro i hi
  simp only [wordOfBytes, BitVec.getLsbD_append, BitVec.getLsbD_extractLsb']
  split
  · simp [*]
  · split
    · rename_i h1 h2
      simp [h2, show 8 + (i - 8) = i by omega]
    · split
      · rename_i h1 h2 h3
        simp [show i - 8 - 8 < 8 by omega, show 16 + (i - 8 - 8) = i by omega]
      · rename_i h1 h2 h3
        simp [show i - 8 - 8 - 8 < 8 by omega, show 24 + (i - 8 - 8 - 8) = i by omega]

end Sys2Proof

namespace Sys2Proof.Laws.EncodesToWord

/-- The bytes of an instruction are the four lanes of its command word (30_encoding R80, 20_memory R61). -/
def Statement (i : Instr) : Prop :=
  ∃ b0 b1 b2 b3, encode i = [b0, b1, b2, b3] ∧ wordOfBytes b0 b1 b2 b3 = i.word

/-- The statement holds whatever the instruction's word is. -/
theorem of_word (i : Instr) : Statement i :=
  ⟨_, _, _, _, rfl, wordOfBytes_lanes i.word⟩

theorem sigma : Statement .sigma := of_word _
theorem rotfx : Statement .rotfx := of_word _
theorem trig : Statement .trig := of_word _
theorem bilerp : Statement .bilerp := of_word _
theorem reserved (op : BitVec 4) (rsvd : BitVec 28) : Statement (.reserved op rsvd) := of_word _

end Sys2Proof.Laws.EncodesToWord
end

