-- ==== Sys2Proof/Laws/Run.lean ====
section
/-! SUPPORT. What the block's run and the start of a command can do, said once for each shared operation. -/

namespace Sys2Proof.Machine

open Host

/-- An idle block does nothing (60_exceptions R335). -/
theorem runBlock_idle {s : State} (h : s.phase = .idle) (n : Nat) : runBlock n s = .next s := by
  cases n with
  | zero => rfl
  | succ n => unfold runBlock; rw [h]

theorem runOn_idle {s : State} (h : s.phase = .idle) : runOn s = .next s := runBlock_idle h _

/-- A running block takes a step and runs on. -/
theorem runBlock_succ {s : State} (h : s.phase ≠ .idle) (n : Nat) :
    runBlock (n + 1) s =
      match blockStep s with
      | .next t => runBlock n t
      | .fault f => .fault f
      | .refused r => .refused r := by
  rw [runBlock]
  split
  · exact absurd ‹_› h
  · rfl

/-- What every block step keeps, a run keeps. -/
theorem runBlock_keeps (P : State → Prop) (hstep : ∀ s t, P s → blockStep s = .next t → P t) :
    ∀ n s t, P s → runBlock n s = .next t → P t := by
  intro n
  induction n with
  | zero => intro s t hs h; cases h; exact hs
  | succ n ih =>
    intro s t hs h
    by_cases hp : s.phase = .idle
    · rw [runBlock_idle hp] at h; cases h; exact hs
    · rw [runBlock_succ hp] at h
      split at h
      · exact ih _ _ (hstep _ _ hs ‹_›) h
      · cases h
      · cases h

/-- What every block step keeps, the run up to the next host move keeps. -/
theorem runOn_keeps (P : State → Prop) (hstep : ∀ s t, P s → blockStep s = .next t → P t) {s t : State} (hs : P s)
    (h : runOn s = .next t) : P t :=
  runBlock_keeps P hstep _ s t hs h

/-- A run does not fault where no step of it does. -/
theorem runBlock_noFault (P : State → Prop) (hstep : ∀ s, P s → ∃ t, blockStep s = .next t ∧ P t) :
    ∀ n s, P s → ∃ t, runBlock n s = .next t ∧ P t := by
  intro n
  induction n with
  | zero => intro s hs; exact ⟨s, rfl, hs⟩
  | succ n ih =>
    intro s hs
    by_cases hp : s.phase = .idle
    · exact ⟨s, runBlock_idle hp _, hs⟩
    · obtain ⟨t, ht, hPt⟩ := hstep s hs
      rw [runBlock_succ hp, ht]
      exact ih t hPt

/-- A CMD write while a command runs (60_exceptions R301). -/
theorem issue_busy {w : Word} {b : State → Outcome State Fault Refusal} {s : State} (h : s.busy = true) :
    issue w b s = runOn { s with regs := { s.regs with cmdOvr := true } } := by
  rw [issue, if_pos h]

/-- A CMD write while no command runs (60_exceptions R300). -/
theorem issue_idle {w : Word} {b : State → Outcome State Fault Refusal} {s : State} (h : s.busy = false) :
    issue w b s =
      match b { s with regs := s.regs.started w } with
      | .next t => runOn t
      | .fault f => .fault f
      | .refused r => .refused r :=
  if_neg (by simp [h])

/-- What the start of a command leaves: an idle block after a failed check, or a running one. -/
theorem startImage_cases {k : Kernel} {s t : State} (h : startImage k s = .next t) :
    (s.jobOf k).onDevice s.cfg = false ∧
      t = { s with phase := .image (s.jobOf k) { row := 0, col := 0, ch := 0, r0 := 0, r1 := 0 },
                   watch := s.jobOf k :: s.watch } := by
  simp only [startImage] at h
  split at h
  · cases h
  · cases h; exact ⟨Bool.eq_false_of_not_eq_true ‹_›, rfl⟩

/-- What a step of an image command can do: end normally, take a sample of SIGMA, or take one of ROTFX. -/
theorem imageStep_cases {j : Job} {p : Pos} {s t : State} (h : imageStep j p s = .next t) :
    j.Legal ∧
      ((j.h ≤ p.row ∧ t = s.endRun .ok 0) ∨
        (p.row < j.h ∧ p.col < j.w ∧ p.ch < j.c ∧
          ((∃ sigma k, j.kernel = .sigma sigma k ∧ t = sigmaStep j sigma k p s) ∨
            ∃ cq sq b, j.kernel = .rotfx cq sq b ∧ t = rotfxStep j cq sq p s))) := by
  unfold imageStep at h
  split at h
  · cases h
  refine ⟨Classical.not_not.mp ‹_›, ?_⟩
  split at h
  · cases h; exact .inl ⟨‹_›, rfl⟩
  split at h
  · cases h
  refine .inr ⟨by omega, by omega, by omega, ?_⟩
  split at h
  · cases h; exact .inl ⟨_, _, ‹_›, rfl⟩
  · cases h; exact .inr ⟨_, _, _, ‹_›, rfl⟩

/-- What a block step can do. -/
theorem blockStep_cases {s t : State} (h : blockStep s = .next t) :
    (s.phase = .idle ∧ t = s) ∨ (s.phase = .trig ∧ t = trigStep s) ∨ (s.phase = .bilerp ∧ t = bilerpStep s) ∨
      ∃ j p, s.phase = .image j p ∧ imageStep j p s = .next t := by
  unfold blockStep at h
  split at h
  · cases h; exact .inl ⟨‹_›, rfl⟩
  · cases h; exact .inr (.inl ⟨‹_›, rfl⟩)
  · cases h; exact .inr (.inr (.inl ⟨‹_›, rfl⟩))
  · exact .inr (.inr (.inr ⟨_, _, ‹_›, h⟩))

/-- What a sample of SIGMA can do: fail with a run-time error, or count the window, write the sample and advance. -/
theorem sigmaStep_cases (j : Job) (sigma k : Nat) (p : Pos) (s : State) :
    (∃ e, sigmaStep j sigma k p s = failRun j e s) ∨
      ∃ hist p' v mem, prepareWindow s.cfg j k p s.hist = .ok (hist, p') ∧ readSample s.cfg j p.row p.col p.ch = .ok v ∧
        writeSample s.cfg j p.row p.col p.ch (sigmaValue hist p.ch sigma v) s.mem = .ok mem ∧
        sigmaStep j sigma k p s = advance j p' { s with hist := hist, mem := mem } := by
  unfold sigmaStep
  split
  · exact .inl ⟨_, rfl⟩
  · split
    · exact .inl ⟨_, rfl⟩
    · split
      · exact .inl ⟨_, rfl⟩
      · exact .inr ⟨_, _, _, _, ‹_›, ‹_›, ‹_›, rfl⟩

/-- What a sample of ROTFX can do: pass an untouched pixel, fail with a run-time error, or write the sample and advance. -/
theorem rotfxStep_cases (j : Job) (cq sq : Int) (p : Pos) (s : State) :
    ((mapSource cq sq j.w j.h p.row p.col).touched j.w j.h = false ∧
        rotfxStep j cq sq p s = { s with phase := .image j (p.nextPixel j) }) ∨
      (mapSource cq sq j.w j.h p.row p.col).touched j.w j.h = true ∧
        ((∃ e, rotfxStep j cq sq p s = failRun j e s) ∨
          ∃ s00 s01 s10 s11 mem,
            readNeighbours s.cfg j (mapSource cq sq j.w j.h p.row p.col).ir.toNat
                (mapSource cq sq j.w j.h p.row p.col).ic.toNat p.ch = .ok (s00, s01, s10, s11) ∧
              writeSample s.cfg j p.row p.col p.ch
                  (bilerpFX s00 s01 s10 s11 (mapSource cq sq j.w j.h p.row p.col).fr
                    (mapSource cq sq j.w j.h p.row p.col).fc) s.mem = .ok mem ∧
              rotfxStep j cq sq p s = advance j p { s with mem := mem }) := by
  unfold rotfxStep
  dsimp only
  split
  · refine .inr ⟨‹_›, ?_⟩
    split
    · exact .inl ⟨_, rfl⟩
    · split
      · exact .inl ⟨_, rfl⟩
      · exact .inr ⟨_, _, _, _, _, ‹_›, ‹_›, rfl⟩
  · exact .inl ⟨Bool.eq_false_of_not_eq_true ‹_›, rfl⟩

/-- A sample read without a bus error is the sample in the memory at the command's start (20_memory R70). -/
theorem readSample_ok {cfg : Config} {j : Job} {r c ch : Nat} {v : Byte} (h : readSample cfg j r c ch = .ok v) :
    cfg.busErrAt (j.inAddr r c ch) = false ∧ v = j.input r c ch := by
  unfold readSample at h
  split at h
  · cases h
  · cases h; exact ⟨Bool.eq_false_of_not_eq_true ‹_›, rfl⟩

/-- A sample written without a bus error is in memory. -/
theorem writeSample_ok {cfg : Config} {j : Job} {r c ch : Nat} {v : Byte} {m m' : Memory}
    (h : writeSample cfg j r c ch v m = .ok m') :
    cfg.busErrAt (j.outAddr r c ch) = false ∧ m' = m.write (j.outAddr r c ch) v := by
  unfold writeSample at h
  split at h
  · cases h
  · cases h; exact ⟨Bool.eq_false_of_not_eq_true ‹_›, rfl⟩

/-- A step of the block never changes the platform, the pending moves or the answers. -/
theorem blockStep_keeps_surroundings {s t : State} (h : blockStep s = .next t) :
    t.cfg = s.cfg ∧ t.inbox = s.inbox ∧ t.outbox = s.outbox ∧ t.watch = s.watch := by
  rcases blockStep_cases h with ⟨-, rfl⟩ | ⟨-, rfl⟩ | ⟨-, rfl⟩ | ⟨j, p, -, hi⟩
  · simp
  · simp [trigStep]
  · simp [bilerpStep]
  · obtain ⟨-, ⟨-, rfl⟩ | ⟨-, -, -, ⟨sigma, k, -, rfl⟩ | ⟨cq, sq, -, -, rfl⟩⟩⟩ := imageStep_cases hi
    · simp
    · rcases sigmaStep_cases j sigma k p s with ⟨e, he⟩ | ⟨_, _, _, _, -, -, -, he⟩ <;> rw [he] <;> simp
    · rcases rotfxStep_cases j cq sq p s with ⟨-, he⟩ | ⟨-, ⟨e, he⟩ | ⟨_, _, _, _, _, -, -, he⟩⟩ <;> rw [he] <;> simp

end Sys2Proof.Machine
end

