-- ==== Sys2Proof/Laws/Separation.lean ====
section
/-! SUPPORT. No ANGLE but 0 brings 256 cos theta or 256 sin theta within 2^-149 of a multiple of 1/2, where a quantiser of
43_trig_lut R161 could change its answer; so the LUT's values are R160's for every ANGLE (R164).

Such an ANGLE n would lie near x + j * beta, with beta = 2^16 * pi/2, x = 2^16 * arccos (m/512), and |j| bounded by the angle's
range. `sepDen * beta` is nearly the integer `sepNum`, so `sepDen * x` would be nearly an integer, and Laws/Arcs.lean shows that it
is not. Left are x = 0 and x = beta, where n = 0 follows. -/

namespace Sys2Proof.Machine

/-! ## No angle of the block is near an arc -/

/-- No n / 2^16 with 0 < |n| <= 2^31 is within 2^-77 of arccos (m/512) + j * pi/2, for m = 0 to 512 and any integer j. -/
theorem angle_off_arcs {n : ℤ} (hn0 : n ≠ 0) (hn : |n| ≤ 2 ^ 31) (m : Nat) (hm : m ≤ 512) (j : ℤ) :
    1 / 2 ^ 77 < |(n : ℝ) / 2 ^ 16 - Real.arccos (m / 512) - j * (Real.pi / 2)| := by
  by_contra hc
  have hc := not_lt.mp hc
  have hnR : |(n : ℝ)| ≤ 2 ^ 31 := by exact_mod_cast hn
  -- the multiple of pi/2 is bounded
  have hjb : ∀ (j : ℤ) (x : ℝ), 0 ≤ x → x ≤ 2 → |(n : ℝ) / 2 ^ 16 - x - j * (Real.pi / 2)| ≤ 1 / 2 ^ 77 → |(j : ℝ)| ≤ 21850 := by
    intro j x hx0 hx2 h
    have h1 := abs_le.mp h
    have h2 := abs_le.mp hnR
    have h3 : |(j : ℝ)| * (3 / 2) ≤ |(j : ℝ) * (Real.pi / 2)| := by
      rw [abs_mul, abs_of_pos (by positivity : (0 : ℝ) < Real.pi / 2)]
      have := Real.pi_gt_three
      gcongr
    have h4 : |(j : ℝ) * (Real.pi / 2)| ≤ 2 ^ 15 + 2 + 1 := by
      rw [abs_le]; constructor <;> · norm_num at h1 h2 ⊢; linarith [h1.1, h1.2, h2.1, h2.2]
    linarith
  -- times sepDen: an integer combination stays near sepDen * 2^16 * arc
  have hkey : ∀ (j : ℤ) (x : ℝ), |(j : ℝ)| ≤ 21850 → |(n : ℝ) / 2 ^ 16 - x - j * (Real.pi / 2)| ≤ 1 / 2 ^ 77 →
      |((sepDen * n - j * sepNum : ℤ) : ℝ) - sepDen * 2 ^ 16 * x| < 1 / 2 ^ 10 := by
    intro j x hj h
    have hp := sepDen_pi
    have e : ((sepDen * n - j * sepNum : ℤ) : ℝ) - sepDen * 2 ^ 16 * x =
        sepDen * 2 ^ 16 * ((n : ℝ) / 2 ^ 16 - x - j * (Real.pi / 2)) + j * (sepDen * 2 ^ 16 * (Real.pi / 2) - sepNum) := by
      push_cast; ring
    rw [e]
    calc _ ≤ |sepDen * 2 ^ 16 * ((n : ℝ) / 2 ^ 16 - x - j * (Real.pi / 2))| +
          |j * (sepDen * 2 ^ 16 * (Real.pi / 2) - sepNum)| := abs_add_le _ _
      _ ≤ (sepDen : ℝ) * 2 ^ 16 * (1 / 2 ^ 77) + 21850 * (1 / 2 ^ 30) := by
        rw [abs_mul (sepDen * 2 ^ 16 : ℝ), abs_mul (j : ℝ), abs_of_nonneg (by positivity : (0 : ℝ) ≤ (sepDen : ℝ) * 2 ^ 16)]
        gcongr
      _ < 1 / 2 ^ 10 := by norm_num [sepDen]
  -- at the arc 0 the angle itself is 0
  have hzero : ∀ j : ℤ, |(n : ℝ) / 2 ^ 16 - j * (Real.pi / 2)| ≤ 1 / 2 ^ 77 → False := by
    intro j h
    have h0 : |(n : ℝ) / 2 ^ 16 - 0 - j * (Real.pi / 2)| ≤ 1 / 2 ^ 77 := by rwa [sub_zero]
    have hj := hjb j 0 le_rfl (by norm_num) h0
    have hk := hkey j 0 hj h0
    rw [mul_zero, sub_zero] at hk
    have hint : (sepDen * n - j * sepNum : ℤ) = 0 := by
      have : |(sepDen * n - j * sepNum : ℤ)| < 1 := by
        have : |((sepDen * n - j * sepNum : ℤ) : ℝ)| < 1 := hk.trans (by norm_num)
        exact_mod_cast this
      exact Int.abs_lt_one_iff.mp this
    have hj' : |j| ≤ 21850 := by exact_mod_cast hj
    have hdvd : (sepDen : ℤ) ∣ j := by
      have hco : IsCoprime (sepDen : ℤ) (sepNum : ℤ) := by
        rw [Nat.isCoprime_iff_coprime]; decide +kernel
      exact hco.dvd_of_dvd_mul_right ⟨n, by linarith⟩
    have hj0 : j = 0 := by
      by_contra hne
      have := Int.le_of_dvd (abs_pos.mpr hne) ((dvd_abs _ _).mpr hdvd)
      have hq : (sepDen : ℤ) = 1264246053 := by norm_num [sepDen]
      omega
    subst hj0
    have hq : (sepDen : ℤ) ≠ 0 := by norm_num [sepDen]
    simp only [zero_mul, sub_zero, mul_eq_zero, hq, false_or] at hint
    exact hn0 hint
  rcases Nat.eq_zero_or_pos m with rfl | hm0
  · rw [Nat.cast_zero, zero_div, Real.arccos_zero] at hc
    refine hzero (j + 1) ?_
    rw [show (n : ℝ) / 2 ^ 16 - ((j + 1 : ℤ) : ℝ) * (Real.pi / 2) = n / 2 ^ 16 - Real.pi / 2 - j * (Real.pi / 2) by
      push_cast; ring]
    exact hc
  rcases Nat.lt_or_ge m 512 with hm1 | hm1
  · have hx0 := Real.arccos_nonneg ((m : ℝ) / 512)
    have hx2 : Real.arccos ((m : ℝ) / 512) ≤ 2 := by
      have : Real.arccos ((m : ℝ) / 512) ≤ Real.pi / 2 := Real.arccos_le_pi_div_two.mpr (by positivity)
      linarith [Real.pi_le_four]
    have hk := hkey j _ (hjb j _ hx0 hx2 hc) hc
    obtain ⟨N, h1, h2⟩ := arc_off_integers hm0 (by omega)
    generalize (sepDen : ℝ) * 2 ^ 16 * Real.arccos (m / 512) = y at *
    rw [abs_lt] at hk
    have g1 : ((N : ℤ) : ℝ) < ((sepDen * n - j * sepNum : ℤ) : ℝ) := by
      rw [Int.cast_natCast]; linarith [hk.1]
    have g2 : ((sepDen * n - j * sepNum : ℤ) : ℝ) < (((N : ℤ) + 1 : ℤ) : ℝ) := by
      rw [Int.cast_add, Int.cast_natCast, Int.cast_one]; linarith [hk.2]
    have g1 := Int.cast_lt.mp g1
    have g2 := Int.cast_lt.mp g2
    omega
  · obtain rfl : m = 512 := by omega
    rw [show ((512 : ℕ) : ℝ) / 512 = 1 by norm_num, Real.arccos_one, sub_zero] at hc
    exact hzero j hc

/-! ## From a value of cos to its arc -/

/-- Two angles of the half circle are near where their cosines are. -/
theorem cos_near {a b : ℝ} (ha : 0 ≤ a) (ha' : a ≤ Real.pi) (hb : 0 ≤ b) (hb' : b ≤ Real.pi)
    (h : |Real.cos a - Real.cos b| ≤ 1 / 2 ^ 157) : |a - b| ≤ 1 / 2 ^ 77 := by
  wlog hab : b ≤ a generalizing a b
  · rw [abs_sub_comm]
    exact this hb hb' ha ha' (by rwa [abs_sub_comm]) (not_le.mp hab).le
  rw [abs_of_nonneg (by linarith)]
  have hd0 : 0 ≤ (a - b) / 2 := by linarith
  have hd1 : (a - b) / 2 ≤ Real.pi / 2 := by linarith
  have hs : 2 / Real.pi * ((a - b) / 2) ≤ Real.sin ((a - b) / 2) := Real.mul_le_sin hd0 hd1
  have hs0 : 0 ≤ 2 / Real.pi * ((a - b) / 2) := by have := Real.pi_pos; positivity
  have hs' : Real.sin ((a - b) / 2) ≤ Real.sin ((a + b) / 2) := by
    rcases le_total ((a + b) / 2) (Real.pi / 2) with hle | hle
    · exact Real.sin_le_sin_of_le_of_le_pi_div_two (by linarith [Real.pi_pos]) hle (by linarith)
    · rw [← Real.sin_pi_sub ((a + b) / 2)]
      exact Real.sin_le_sin_of_le_of_le_pi_div_two (by linarith [Real.pi_pos]) (by linarith) (by linarith)
  have hc : |Real.cos a - Real.cos b| = 2 * (Real.sin ((a + b) / 2) * Real.sin ((a - b) / 2)) := by
    rw [Real.cos_sub_cos, abs_of_nonpos (by nlinarith [mul_nonneg (hs0.trans (hs.trans hs')) (hs0.trans hs)])]; ring
  have hq : 1 / 2 * ((a - b) / 2) ≤ 2 / Real.pi * ((a - b) / 2) := by
    have : (1 : ℝ) / 2 ≤ 2 / Real.pi := by
      rw [div_le_div_iff₀ (by norm_num) Real.pi_pos]; linarith [Real.pi_le_four]
    gcongr
  have h2 : 2 * (((a - b) / 4) * ((a - b) / 4)) ≤ 1 / 2 ^ 157 := by
    refine le_trans ?_ (hc ▸ h)
    have : (a - b) / 4 ≤ Real.sin ((a - b) / 2) := by linarith
    have h0 : 0 ≤ (a - b) / 4 := by linarith
    nlinarith [mul_le_mul (this.trans hs') this h0 (h0.trans (this.trans hs'))]
  refine abs_le_of_sq_le_sq' ?_ (by positivity) |>.2
  norm_num at h2 ⊢
  nlinarith

/-- An angle whose cosine is near m/512 is near a multiple of pi/2 beside plus or minus the arc of |m|/512. -/
theorem near_arc {t : ℝ} {m : ℤ} (hm : |m| ≤ 512) (h : |Real.cos t - m / 512| ≤ 1 / 2 ^ 157) :
    ∃ (s j : ℤ), (s = 1 ∨ s = -1) ∧ |t - s * Real.arccos ((m.natAbs : ℝ) / 512) - j * (Real.pi / 2)| ≤ 1 / 2 ^ 77 := by
  have hmR : |(m : ℝ)| ≤ 512 := by exact_mod_cast hm
  obtain ⟨m1, m2⟩ := abs_le.mp hmR
  have c1 : (-1 : ℝ) ≤ m / 512 := by rw [le_div_iff₀ (by norm_num)]; linarith
  have c2 : (m : ℝ) / 512 ≤ 1 := by rw [div_le_one (by norm_num)]; exact m2
  have hnear := cos_near (Real.arccos_nonneg (Real.cos t)) (Real.arccos_le_pi _) (Real.arccos_nonneg ((m : ℝ) / 512))
    (Real.arccos_le_pi _) (by rwa [Real.cos_arccos (Real.neg_one_le_cos t) (Real.cos_le_one t), Real.cos_arccos c1 c2])
  obtain ⟨s, k, hs, ht⟩ : ∃ (s k : ℤ), (s = 1 ∨ s = -1) ∧ t = s * Real.arccos (Real.cos t) + 2 * k * Real.pi := by
    obtain ⟨k, hk | hk⟩ := Real.cos_eq_cos_iff.mp (Real.cos_arccos (Real.neg_one_le_cos t) (Real.cos_le_one t))
    · exact ⟨1, k, .inl rfl, by push_cast; linarith⟩
    · exact ⟨-1, k, .inr rfl, by push_cast; linarith⟩
  generalize Real.arccos (Real.cos t) = a at *
  have hsR : |(s : ℝ)| = 1 := by rcases hs with rfl | rfl <;> norm_num
  rcases le_total 0 m with hm0 | hm0
  · refine ⟨s, 4 * k, hs, ?_⟩
    have e : ((m.natAbs : ℕ) : ℝ) = m := by rw [Nat.cast_natAbs, abs_of_nonneg hm0]
    rw [e, ht, show (s * a + 2 * k * Real.pi) - s * Real.arccos ((m : ℝ) / 512) - ((4 * k : ℤ) : ℝ) * (Real.pi / 2) =
      s * (a - Real.arccos ((m : ℝ) / 512)) by push_cast; ring, abs_mul, hsR, one_mul]
    exact hnear
  · refine ⟨-s, 4 * k + 2 * s, by omega, ?_⟩
    have e : ((m.natAbs : ℕ) : ℝ) = -m := by rw [Nat.cast_natAbs, abs_of_nonpos hm0, Int.cast_neg]
    rw [e, neg_div, Real.arccos_neg, ht,
      show (s * a + 2 * k * Real.pi) - ((-s : ℤ) : ℝ) * (Real.pi - Real.arccos ((m : ℝ) / 512)) -
        ((4 * k + 2 * s : ℤ) : ℝ) * (Real.pi / 2) = s * (a - Real.arccos ((m : ℝ) / 512)) by push_cast; ring,
      abs_mul, hsR, one_mul]
    exact hnear

/-- For every ANGLE but 0, 256 cos theta and 256 sin theta are more than 2^-149 away from every multiple of 1/2
(43_trig_lut R161, R164). -/
theorem trig_separated {n : ℤ} (hn0 : n ≠ 0) (hn : |n| ≤ 2 ^ 31) (m : ℤ) :
    1 / 2 ^ 149 < |256 * Real.cos ((n : ℝ) / 2 ^ 16) - m / 2| ∧ 1 / 2 ^ 149 < |256 * Real.sin ((n : ℝ) / 2 ^ 16) - m / 2| := by
  -- an angle t whose cosine is near m/512 is impossible where t is plus or minus the ANGLE up to multiples of pi/2
  have main : ∀ (t : ℝ) (u i : ℤ), (u = 1 ∨ u = -1) → t = u * ((n : ℝ) / 2 ^ 16) + i * (Real.pi / 2) →
      1 / 2 ^ 149 < |256 * Real.cos t - m / 2| := by
    intro t u i hu ht
    by_contra hc
    have hc := not_lt.mp hc
    have h256 : |256 * Real.cos t - m / 2| = 256 * |Real.cos t - m / 512| := by
      rw [show 256 * Real.cos t - (m : ℝ) / 2 = 256 * (Real.cos t - m / 512) by ring, abs_mul, abs_of_pos (by norm_num)]
    rw [h256] at hc
    have hclose : |Real.cos t - m / 512| ≤ 1 / 2 ^ 157 := by norm_num at hc ⊢; linarith
    have hm : |m| ≤ 512 := by
      have h1 : |(m : ℝ) / 512| ≤ 1 + 1 / 2 ^ 157 := by
        calc |(m : ℝ) / 512| = |Real.cos t - (Real.cos t - m / 512)| := by congr 1; ring
          _ ≤ |Real.cos t| + |Real.cos t - m / 512| := abs_sub _ _
          _ ≤ 1 + 1 / 2 ^ 157 := add_le_add (Real.abs_cos_le_one t) hclose
      have h2 : |(m : ℝ)| < 513 := by
        rw [abs_div, abs_of_pos (by norm_num : (0 : ℝ) < 512), div_le_iff₀ (by norm_num)] at h1
        exact h1.trans_lt (by norm_num)
      have : |m| < 513 := by exact_mod_cast h2
      omega
    obtain ⟨s, j, hs, hj⟩ := near_arc hm hclose
    have hsu : (s : ℝ) * s = 1 := by rcases hs with rfl | rfl <;> norm_num
    have hsR : |(s : ℝ)| = 1 := by rcases hs with rfl | rfl <;> norm_num
    have hoff := angle_off_arcs (n := s * u * n) (by rcases hs with rfl | rfl <;> rcases hu with rfl | rfl <;> simpa using hn0)
      (by rcases hs with rfl | rfl <;> rcases hu with rfl | rfl <;> simpa using hn) m.natAbs (by rw [← Int.ofNat_le, Int.natCast_natAbs]; exact hm) (s * (j - i))
    refine absurd hj (not_le.mpr ?_)
    have e : ((s * u * n : ℤ) : ℝ) / 2 ^ 16 - Real.arccos ((m.natAbs : ℝ) / 512) - ((s * (j - i) : ℤ) : ℝ) * (Real.pi / 2) =
        s * (t - s * Real.arccos ((m.natAbs : ℝ) / 512) - j * (Real.pi / 2)) := by
      rw [ht]; push_cast; linear_combination (-Real.arccos ((m.natAbs : ℝ) / 512)) * (-hsu)
    rwa [e, abs_mul, hsR, one_mul] at hoff
  refine ⟨main _ 1 0 (.inl rfl) (by push_cast; ring), ?_⟩
  rw [← Real.cos_pi_div_two_sub]
  exact main _ (-1) 1 (.inr rfl) (by push_cast; ring)

/-! ## The quantisers on a computed value (43_trig_lut R161) -/

/-- Integer division by `d` is the floor of a number near a / d that has no integer near. -/
theorem ediv_eq_floor {a : Int} {d : Nat} (hd : 0 < d) {y e : ℝ} (ha : |(a : ℝ) / d - y| ≤ e)
    (hy : ∀ k : ℤ, e < |y - k|) : a / d = ⌊y⌋ := by
  have hd' : (0 : ℝ) < d := by exact_mod_cast hd
  have hdi : (0 : ℤ) < d := by exact_mod_cast hd
  obtain ⟨h1, h2⟩ := abs_le.mp ha
  have l1 := hy ⌊y⌋
  have l2 := hy (⌊y⌋ + 1)
  rw [abs_of_nonneg (sub_nonneg.mpr (Int.floor_le y))] at l1
  rw [abs_of_nonpos (by push_cast; linarith [Int.lt_floor_add_one y])] at l2
  push_cast at l2
  apply le_antisymm
  · rw [← Int.lt_add_one_iff, Int.ediv_lt_iff_lt_mul hdi]
    have : (a : ℝ) < (⌊y⌋ + 1) * d := by rw [← div_lt_iff₀ hd']; linarith
    exact_mod_cast this
  · rw [Int.le_ediv_iff_mul_le hdi]
    have : (⌊y⌋ : ℝ) * d ≤ a := by rw [← le_div_iff₀ hd']; linarith
    exact_mod_cast this

/-- The quantiser on a computed value is Q of the exact one, where the exact one is not near a multiple of 1/2. -/
theorem quantise_eq_ideal (q : TrigQuant) {v : Int} {x : ℝ} (hv : |(v : ℝ) - trigScale * x| ≤ (trigError : ℝ))
    (hx : ∀ m : ℤ, 1 / 2 ^ 149 < |256 * x - m / 2|) : quantise q (256 * v) = idealQuantise q (256 * x) := by
  have hS := trigScale_pos
  have hSn : 0 < trigScale := by exact_mod_cast hS
  have hnear : |((256 * v : Int) : ℝ) / trigScale - 256 * x| ≤ 1 / 2 ^ 149 := by
    have e : ((256 * v : Int) : ℝ) / trigScale - 256 * x = 256 / trigScale * (v - trigScale * x) := by
      push_cast; field_simp
    rw [e, abs_mul, abs_of_pos (by positivity)]
    calc _ ≤ 256 / (trigScale : ℝ) * trigError := by gcongr
      _ ≤ 1 / 2 ^ 149 := by norm_num [trigScale, trigError]
  have hint : ∀ k : ℤ, 1 / 2 ^ 149 < |256 * x - k| := fun k => by
    have := hx (2 * k)
    rwa [show ((2 * k : ℤ) : ℝ) / 2 = k by push_cast; ring] at this
  have hfloor := ediv_eq_floor hSn hnear hint
  cases q with
  | floor => exact hfloor
  | nearest =>
    have h := ediv_eq_floor (a := 2 * (256 * v) + trigScale) (d := 2 * trigScale) (y := 256 * x + 1 / 2) (e := 1 / 2 ^ 149)
      (by omega)
      (by
        rw [show ((2 * (256 * v) + trigScale : Int) : ℝ) / ((2 * trigScale : ℕ) : ℝ) - (256 * x + 1 / 2) =
          ((256 * v : Int) : ℝ) / trigScale - 256 * x by push_cast; field_simp; ring]
        exact hnear)
      (fun k => by
        have := hx (2 * k - 1)
        rwa [show 256 * x - ((2 * k - 1 : ℤ) : ℝ) / 2 = 256 * x + 1 / 2 - k by push_cast; ring] at this)
    rw [Nat.cast_mul, Nat.cast_ofNat] at h
    exact h
  | trunc =>
    obtain ⟨n1, n2⟩ := abs_le.mp hnear
    have h0 := hint 0
    rw [Int.cast_zero, sub_zero] at h0
    simp only [quantise, idealQuantise, truncate]
    by_cases hpos : 0 ≤ 256 * x
    · rw [abs_of_nonneg hpos] at h0
      have hvp : 0 ≤ 256 * v := by
        have : (0 : ℝ) ≤ ((256 * v : Int) : ℝ) / trigScale := by linarith
        rw [le_div_iff₀ hS, zero_mul] at this
        exact_mod_cast this
      rw [if_pos hvp, if_pos hpos, hfloor]
    · rw [abs_of_neg (not_le.mp hpos)] at h0
      have hvn : ¬ 0 ≤ 256 * v := by
        have : ((256 * v : Int) : ℝ) / trigScale < 0 := by linarith
        rw [div_lt_iff₀ hS, zero_mul] at this
        exact not_le.mpr (by exact_mod_cast this)
      rw [if_neg hvn, if_neg hpos, ediv_eq_floor (y := -(256 * x)) (e := 1 / 2 ^ 149) hSn
        (by rw [Int.cast_neg, neg_div, show -(((256 * v : Int) : ℝ) / trigScale) - -(256 * x) =
          -(((256 * v : Int) : ℝ) / trigScale - 256 * x) by ring, abs_neg]; exact hnear)
        (fun k => by
          have := hint (-k)
          rwa [show 256 * x - ((-k : ℤ) : ℝ) = -(-(256 * x) - k) by push_cast; ring, abs_neg] at this),
        Int.floor_neg, neg_neg]

end Sys2Proof.Machine
end

