-- ==== Sys2Proof/Laws/Step.lean ====
section
/-! SUPPORT. What a step of the machine can do, said once. -/

namespace Sys2Proof.Machine

open Host

/-- What the landing of a host move other than a command leaves, before the block runs on. -/
inductive Lands (u : State) : State → Prop where
  /-- An access outside the window, to a reserved offset, or not an aligned 32-bit one. -/
  | ignored : Lands u u
  /-- A word written to a register other than CMD. -/
  | regWrite (r : Reg) (w : Word) (h : r ≠ .cmd) : Lands u (hostWriteReg r w u)
  /-- A read of the window. -/
  | regRead (off : BitVec 8) (width : Nat) : Lands u ((hostRead off width u).2.answer (.window (hostRead off width u).1))
  /-- A memory write outside the buffers of an open command. -/
  | memWrite (addr : Word) (v : Byte) (h : u.inOpenBuffer addr.toNat = false) :
      Lands u { u with mem := u.mem.write addr.toNat v }
  /-- A memory read. -/
  | memRead (addr : Word) : Lands u ((hostMemRead addr u).2.answer (.memory (hostMemRead addr u).1))
  /-- A look at the interrupt line. -/
  | senseIrq : Lands u ((if u.irq then u.observed else u).answer (.irq u.irq))
  /-- The reset input. -/
  | hardReset : Lands u (resetBlock u)

/-- A write of the window is a command, or it lands. -/
theorem hostWrite_cases {off : BitVec 8} {data : List Byte} {u t : State} (h : hostWrite off data u = .next t) :
    (∃ i rest, decode data = .ok (i, rest) ∧ exec i u = .next t) ∨ ∃ v, Lands u v ∧ runOn v = .next t := by
  unfold hostWrite at h
  split at h
  · split at h
    · split at h
      · split at h
        · exact .inl ⟨_, _, ‹_›, h⟩
        · exact .inr ⟨_, .ignored, h⟩
      · rename_i r hne _
        exact .inr ⟨_, .regWrite r _ hne, h⟩
      · exact .inr ⟨_, .ignored, h⟩
    · exact .inr ⟨_, .ignored, h⟩
  · exact .inr ⟨_, .ignored, h⟩

/-- A host move is a command, or it lands and the block runs on. -/
theorem hostMove_cases {m : Move} {u t : State} (h : hostMove m u = .next t) :
    (∃ i, exec i u = .next t) ∨ ∃ v, Lands u v ∧ runOn v = .next t := by
  unfold hostMove at h
  split at h
  · split at h
    · rcases hostWrite_cases h with ⟨i, -, -, he⟩ | hv
      · exact .inl ⟨i, he⟩
      · exact .inr hv
    · exact .inr ⟨_, .ignored, h⟩
  · split at h
    · exact .inr ⟨_, .regRead _ _, h⟩
    · exact .inr ⟨_, .ignored, h⟩
  · unfold hostMemWrite at h
    split at h
    · cases h
    · split at h
      · cases h
      · exact .inr ⟨_, .memWrite _ _ (Bool.eq_false_of_not_eq_true ‹_›), h⟩
  · split at h
    · cases h
    · exact .inr ⟨_, .memRead _, h⟩
  · exact .inr ⟨_, .senseIrq, h⟩
  · exact .inr ⟨_, .hardReset, h⟩

/-- What a step can do: with no move pending the block runs on; else the first pending move leaves the list and is a command, or
lands and the block runs on. -/
theorem step_cases {s t : State} (h : step s = .next t) :
    (s.inbox = [] ∧ runOn s = .next t) ∨
      ∃ p rest, s.inbox = p :: rest ∧
        ((∃ i, exec i { s with inbox := rest } = .next t) ∨ ∃ v, Lands { s with inbox := rest } v ∧ runOn v = .next t) := by
  unfold step nextMove at h
  split at h
  · exact .inl ⟨‹_›, h⟩
  · exact .inr ⟨_, _, ‹_›, hostMove_cases h⟩

/-- What a read of a register answers: its word, or the other word where the running command races with the read; and what it does
to the state. -/
theorem hostReadReg_cases (r : Reg) (u : State) :
    (u.racingWord r = none ∧
        hostReadReg r u = (Reg.value u.regs u.busy r, if r = .status ∧ u.regs.done = true then u.observed else u)) ∨
      ∃ w v, u.racingWord r = some w ∧ (v = w ∨ v = Reg.value u.regs u.busy r) ∧
        hostReadReg r u = (v, { u with draws := u.draws + 1 }) := by
  unfold hostReadReg
  cases h : u.racingWord r with
  | none => exact .inl ⟨rfl, rfl⟩
  | some w =>
    refine .inr ⟨w, _, rfl, ?_, rfl⟩
    cases Config.freeBit u.draws with
    | true => exact .inl rfl
    | false => exact .inr rfl

/-- A read of STATUS never races. -/
theorem racingWord_status (u : State) : u.racingWord .status = none := by
  unfold State.racingWord; split <;> rfl

/-- What a read of a register does to the state: it uses a free value, observes DONE, or does nothing. -/
theorem hostReadReg_state (r : Reg) (u : State) :
    (hostReadReg r u).2 = u ∨ (hostReadReg r u).2 = { u with draws := u.draws + 1 } ∨
      (u.regs.done = true ∧ (hostReadReg r u).2 = u.observed) := by
  rcases hostReadReg_cases r u with ⟨-, h⟩ | ⟨w, v, -, -, h⟩
  · rw [h]
    by_cases hd : r = .status ∧ u.regs.done = true
    · exact .inr (.inr ⟨hd.2, if_pos hd⟩)
    · exact .inl (if_neg hd)
  · exact .inr (.inl (by rw [h]))

/-- What a read of the window does to the state: it uses a free value, observes DONE, or does nothing. -/
theorem hostRead_state (off : BitVec 8) (width : Nat) (u : State) :
    (hostRead off width u).2 = u ∨ (hostRead off width u).2 = { u with draws := u.draws + 1 } ∨
      (u.regs.done = true ∧ (hostRead off width u).2 = u.observed) := by
  unfold hostRead
  split
  · split
    · exact hostReadReg_state _ u
    · exact .inl rfl
  · exact .inl rfl

/-- What a read of a memory byte answers: the byte, or one of those the open commands admit (20_memory R71). -/
theorem hostMemRead_cases (addr : Word) (u : State) :
    (u.openBytes addr.toNat = [] ∧ hostMemRead addr u = (u.mem.read addr.toNat, u)) ∨
      ∃ v ∈ u.openBytes addr.toNat, hostMemRead addr u = (v, { u with draws := u.draws + 1 }) := by
  unfold hostMemRead
  split
  · exact .inl ⟨‹_›, rfl⟩
  · rename_i v rest h
    refine .inr ⟨_, ?_, rfl⟩
    rw [h]
    have hlt : Config.freeNat u.draws % (rest.length + 1) < (v :: rest).length := Nat.mod_lt _ (Nat.succ_pos _)
    rw [List.getD_eq_getElem _ _ hlt]
    exact List.getElem_mem hlt

/-- The bytes the open commands admit at an address: for each that writes it the old and the new one. -/
theorem mem_openBytes {u : State} {a : Nat} {v : Byte} :
    v ∈ u.openBytes a ↔ ∃ j ∈ u.watch, j.writesAddr a = true ∧ (v = j.mem0.read a ∨ v = j.newValueAt a) := by
  simp [State.openBytes, and_assoc]

/-- What a read of a memory byte does to the state: it may use a free value. -/
theorem hostMemRead_state (addr : Word) (u : State) :
    (hostMemRead addr u).2 = u ∨ (hostMemRead addr u).2 = { u with draws := u.draws + 1 } := by
  unfold hostMemRead
  split
  · exact .inl rfl
  · exact .inr rfl

/-- The platform's parameters stand through the landing of a move. -/
theorem Lands.cfg_eq {u v : State} (h : Lands u v) : v.cfg = u.cfg := by
  cases h with
  | ignored => rfl
  | regWrite r w _ =>
    cases r <;> simp only [hostWriteReg, writeCtrl] <;> (try split) <;> simp
  | regRead off width => rcases hostRead_state off width u with h | h | ⟨-, h⟩ <;> rw [h] <;> rfl
  | memWrite => rfl
  | memRead addr => rcases hostMemRead_state addr u with h | h <;> rw [h] <;> rfl
  | senseIrq => split <;> rfl
  | hardReset => simp

/-! ## exec of each constructor: the shared operation of a CMD write (60_exceptions R300, R301) -/

theorem exec_sigma (s : State) : exec .sigma s = issue Instr.sigma.word beginSigma s := by rw [exec, execSigma]

theorem exec_rotfx (s : State) : exec .rotfx s = issue Instr.rotfx.word beginRotfx s := by rw [exec, execRotfx]

theorem exec_trig (s : State) : exec .trig s = issue Instr.trig.word beginTrig s := by rw [exec, execTrig]

theorem exec_bilerp (s : State) : exec .bilerp s = issue Instr.bilerp.word beginBilerp s := by rw [exec, execBilerp]

theorem exec_reserved (op : BitVec 4) (rsvd : BitVec 28) (s : State) :
    exec (.reserved op rsvd) s = issue (Instr.reserved op rsvd).word beginReserved s := by rw [exec, execReserved]

/-- A block that is not busy is idle (10_state R47). -/
theorem State.phase_of_not_busy {s : State} (h : s.busy = false) : s.phase = .idle := by
  cases hp : s.phase <;> simp_all [State.busy, Phase.busy]

/-- Where a host move lands at once, the block takes no step before it (log 6). -/
theorem runOn_at_once {s : State} {p : Pending} {rest : List Pending} (hi : s.inbox = p :: rest) (h0 : p.after = 0) :
    runOn s = .next s := by
  unfold runOn State.stepsBeforeNextMove
  rw [hi]
  simp only [h0]
  rfl

end Sys2Proof.Machine
end

