-- ==== Sys2Proof/Tests/Slice0.lean ====
section
/-! SUPPORT. Tests: words written out from the spec's encoding, small cases of the spec's own vectors (95_test_vectors), and for every
statement with hypotheses a state that meets them. -/

namespace Sys2Proof.Machine

set_option Elab.async false

/-! ## Helpers -/

/-- Bytes laid out from an address. -/
def testMem (base : Nat) (bytes : List Byte) : Memory :=
  Memory.withImage [] base bytes

/-- An idle block on a `w` by `h` image of `c` channels at 0x1000, with the output at 0x2000 and everything else as after reset. -/
def testState (w h : BitVec 16) (c : BitVec 8) (bytes : List Byte) : State :=
  { State.reset with
    regs := { Regs.reset with srcAddr := 0x1000, dstAddr := 0x2000, width := w, height := h, channels := c }
    mem := testMem 0x1000 bytes }

/-- A 2 by 2 gray image. -/
def testSmall : State := testState 2 2 1 [1, 2, 3, 4]

/-- A state with its platform changed. -/
def State.onPlatform (s : State) (cfg : Config) : State := { s with cfg := cfg }

/-- A state with one move pending. -/
def State.pend (s : State) (after : Nat) (m : Move) : State := { s with inbox := [{ after := after, move := m }] }

/-- A state with its buffers at other addresses. -/
def State.at (s : State) (src dst : Word) : State :=
  { s with regs := { s.regs with srcAddr := src, dstAddr := dst } }

/-- A state with the coefficients in TRIG_Q and TRIG_SRC = 1. -/
def State.withCoefficients (s : State) (cq sq : Int) : State :=
  { s with regs := { s.regs.setTrigQ cq sq with trigSrc := true } }

/-- The state an outcome holds, or the reset state. -/
def nextOr (o : Host.Outcome State Fault Refusal) : State :=
  match o with
  | .next t => t
  | .fault _ => State.reset
  | .refused _ => State.reset

/-- Whether an outcome is a next state. -/
def isNext (o : Host.Outcome State Fault Refusal) : Bool :=
  match o with
  | .next _ => true
  | .fault _ => false
  | .refused _ => false

/-- An outcome that is a next state holds one. -/
theorem exists_of_isNext {o : Host.Outcome State Fault Refusal} (h : isNext o = true) : ∃ t, o = .next t := by
  cases o with
  | next t => exact ⟨t, rfl⟩
  | fault f => cases h
  | refused r => cases h

/-- What an outcome shows: the code of STATUS.ERR, WCOUNT, and `n` bytes from an address. None where there is no next state. -/
def shows (o : Host.Outcome State Fault Refusal) (base n : Nat) : Option (Nat × Nat × List Nat) :=
  match o with
  | .next t => some (t.regs.err.code.toNat, t.regs.wcount.toNat, (List.range n).map fun i => (t.mem.read (base + i)).toNat)
  | .fault _ => none
  | .refused _ => none

/-- A platform that answers address 0x1001 with a bus error. -/
def busErrPlatform : Config := { Config.default with busErr := [{ first := 0x1001, last := 0x1001 }] }

/-- A platform with a device at the last byte of the output buffer of `testSmall`. -/
def devicePlatform : Config := { Config.default with devices := [{ first := 0x2003, last := 0x2003 }] }

/-- A histogram store with every counter 0. -/
def testHist : Hist := Vector.replicate 3 (Vector.replicate 256 0)

@[simp] theorem testHist_count (ch : Nat) (p : Byte) : testHist.count ch p = 0 := by
  unfold Hist.count testHist
  split <;> simp

/-- The job of a SIGMA over a 2 by 1 image, radius 1. -/
def midJob : Job := (testState 2 1 1 [1, 5]).sigmaJob

/-- That SIGMA after its first sample: the window of pixel (0, 0) is counted, its output written. -/
def midSigma : State :=
  { (testState 2 1 1 [1, 5]).pend 1 .senseIrq with
    regs := { (testState 2 1 1 []).regs.started 1 with wcount := 1 }
    phase := .image midJob { row := 0, col := 1, ch := 0, r0 := 0, r1 := 0 }
    hist := (testHist.inc 0 1).inc 0 5
    mem := (testMem 0x1000 [1, 5]).write 0x2000 1
    watch := [midJob] }

/-- A ROTFX with the LUT's coefficients, just started. -/
def midRotfx : State :=
  nextOr (exec .rotfx (testSmall.pend 0 .senseIrq))

/-! ## Encoding (30_encoding R80 to R86) -/

/-- R85: a word with RSVD 0 and a legal OP is no reserved word. Each legal OP is refused. -/
theorem test_wellFormed_refuses_reserved_with_legal_op :
    (Instr.reserved 1 0).wellFormed = false ∧ (Instr.reserved 2 0).wellFormed = false ∧
      (Instr.reserved 4 0).wellFormed = false ∧ (Instr.reserved 5 0).wellFormed = false := by decide

/-- R85: OP = 3 with RSVD 0, and OP = 1 with RSVD 1, are reserved words. -/
theorem test_wellFormed_admits_reserved : (Instr.reserved 3 0).wellFormed = true ∧ (Instr.reserved 1 1).wellFormed = true := by
  decide

/-- R82: SIGMA is RSVD = 0, OP = 0001. -/
theorem test_decode_sigma : decode [0b00000001, 0, 0, 0] = .ok (.sigma, []) := by decide

/-- R82: ROTFX is RSVD = 0, OP = 0010. -/
theorem test_decode_rotfx : decode [0b00000010, 0, 0, 0] = .ok (.rotfx, []) := by decide

/-- R82: TRIG is RSVD = 0, OP = 0100. -/
theorem test_decode_trig : decode [0b00000100, 0, 0, 0] = .ok (.trig, []) := by decide

/-- R82: BILERP is RSVD = 0, OP = 0101. -/
theorem test_decode_bilerp : decode [0b00000101, 0, 0, 0] = .ok (.bilerp, []) := by decide

/-- R85: 0x00000003 and 0x0000000F are reserved, and so is 0x00000011: OP = 1 with bit 4 set. -/
theorem test_decode_reserved :
    decode [0b00000011, 0, 0, 0] = .ok (.reserved 3 0, []) ∧ decode [0b00001111, 0, 0, 0] = .ok (.reserved 15 0, []) ∧
      decode [0b00010001, 0, 0, 0] = .ok (.reserved 1 1, []) := by decide

/-- R80, R61: the highest bit of RSVD is bit 7 of the last byte. -/
theorem test_decode_top_bit : decode [0b00000001, 0, 0, 0b10000000] = .ok (.reserved 1 0x8000000, []) := by decide

/-- R86: three bytes are no command word. -/
theorem test_decode_too_short : decode [1, 0, 0] = .error (.tooShort 3) := by decide

/-- A placed word is decoded as the table numbers its bits. -/
theorem test_decodeTableWord : decodeTableWord 32 4 = some .trig ∧ decodeTableWord 8 0x105 = some .bilerp := by decide

/-! ## The commands -/

/-- V1: SIGMA with sigma 10 and radius 1 on IMG4, here its rows 0 and 1 and only row 0's output: the window of row 0 is rows 0..1. -/
theorem test_sigma_row0_of_V1 :
    (shows (execSigma
      { testState 4 2 1 [10, 12, 200, 210, 11, 13, 205, 215] with
        regs := { (testState 4 2 1 []).regs with sigma := 10, radius := 1 } }) 0x2000 4) =
      some (0, 8, [12, 12, 205, 208]) := by decide +kernel

/-- 95_test_vectors L2.1, rounding corners: [0, 3] with sigma 255 and radius 1 gives [2, 2]. -/
theorem test_sigma_rounds_half_up :
    (shows (execSigma
      { testState 2 1 1 [0, 3] with regs := { (testState 2 1 1 []).regs with sigma := 255, radius := 1 } }) 0x2000 2) =
      some (0, 2, [2, 2]) := by decide +kernel

/-- V45: a 2 by 2 image at angle 0: only pixel (0, 0) is interior. -/
theorem test_rotfx_V45 :
    (shows (execRotfx { testSmall with mem := Memory.withImage testSmall.mem 0x2000 [9, 9, 9, 9] }) 0x2000 4) =
      some (0, 1, [1, 9, 9, 9]) := by decide +kernel

/-- V31: IMG4 at 0.5 rad, TRUNC: ten pixels are touched. -/
theorem test_rotfx_V31 :
    (shows (execRotfx
      { testState 4 4 1 [10, 12, 200, 210, 11, 13, 205, 215, 9, 14, 198, 220, 8, 15, 190, 225] with
        regs := { (testState 4 4 1 []).regs with angle := 0x8000 } }) 0x2000 16) =
      some (0, 10, [0, 11, 21, 0, 0, 12, 113, 207, 9, 36, 198, 215, 0, 0, 206, 0]) := by decide +kernel

/-- V27: just below pi/2, under TRUNC and NEAREST. -/
theorem test_trig_V27 : trigLUT .trunc 0x0001921F = (0, 255) ∧ trigLUT .nearest 0x0001921F = (0, 256) := by decide +kernel

/-- V28: the most negative angle, under TRUNC: TRIG_Q is 0xFF13_005F. -/
theorem test_trig_V28 :
    (nextOr (execTrig { State.reset with regs := { Regs.reset with angle := 0x80000000 } })).regs.trigQ = 0xFF13005F := by
  decide +kernel

/-- V55: the four samples of 0xFA32_C864 at the fractions of 0x0000_C040, written through the register fields. -/
theorem test_bilerp_V55 :
    (nextOr (execBilerp { State.reset with
      regs := (Regs.reset.setParameter .blSamples 0xFA32C864).setParameter .blFrac 0x0000C040 })).regs.result = 181 := by
  decide +kernel

/-- V56: only S11 is 255 and both fractions are 255. -/
theorem test_bilerp_V56 : bilerpFX 0 0 0 255 255 255 = 253 := by decide +kernel

/-- V83: 0x0000_0011 ends with ERR_ILLEGAL_OP, DONE alone beside it in STATUS, and is read back from CMD. -/
theorem test_reserved_V83 :
    (nextOr (execReserved 1 1 State.reset)).regs.statusWord false = 0x00000102 ∧
      (nextOr (execReserved 1 1 State.reset)).regs.cmd = 0x00000011 := by decide +kernel

/-! ## The host's side -/

/-- V91, V92, V93: reserved bits of a written parameter read 0. -/
theorem test_reserved_fields_read_zero :
    Reg.value (Regs.reset.setParameter .channels 0xFFFFFF03) false .channels = 0x00000003 ∧
      Reg.value (Regs.reset.setParameter .sigmaCfg 0xFFFFFFFF) false .sigmaCfg = 0xFFFF00FF ∧
      Reg.value (Regs.reset.setParameter .blFrac 0xFFFFFFFF) false .blFrac = 0x0000FFFF := by decide +kernel

/-- V94: a write to CTRL with bit 0 clear is no reset and stores bits 1 and 2. -/
theorem test_ctrl_V94 : (writeCtrl 0xFFFFFFFE State.reset).regs.ctrlWord = 0x00000006 := by decide +kernel

/-- V97: a write of CMD_OVR's bit clears it alone. -/
theorem test_status_V97 :
    (({ Regs.reset with done := true, cmdOvr := true }).acked 0x00000004).statusWord false = 0x00000002 := by decide +kernel

/-- V47: sr = -2300: the shift gives -9 and the low byte is 4. -/
theorem test_negative_coordinate_V47 :
    ({ sr := -2300, sc := 0, hh := 0, hw := 0 : Source }).ir = -9 ∧ ({ sr := -2300, sc := 0, hh := 0, hw := 0 : Source }).fr = 4 := by
  decide +kernel

/-! ## Witnesses: a state and operands that meet a statement's hypotheses, all together -/

/-- With no move pending, nothing disturbs a command. -/
theorem undisturbed_of_empty {s : State} (h : s.inbox = []) (n : Nat) : s.undisturbed n := by
  intro p rest hp; rw [h] at hp; cases hp

/-- A move that lands late enough disturbs nothing. -/
theorem undisturbed_of_pend (s : State) (n : Nat) (m : Move) : (s.pend n m).undisturbed n := by
  intro p rest hp; cases hp; exact Nat.le_refl n

/-- DecodeGivesBackEncoded: a command, and reserved words at both ends of each field. -/
theorem test_witness_DecodeGivesBackEncoded :
    Instr.sigma.wellFormed = true ∧ (Instr.reserved 0 0).wellFormed = true ∧ (Instr.reserved 15 0xFFFFFFF).wellFormed = true := by
  decide +kernel

/-- DecodeFollowsFields: a word for each clause: RSVD 1, and RSVD 0 with OP 1, 2, 4, 5 and with OP at both ends of each gap. -/
theorem test_witness_DecodeFollowsFields :
    (0x00000011 : Word).toNat / 16 ≠ 0 ∧
      ((0x00000001 : Word).toNat / 16 = 0 ∧ (0x00000001 : Word).toNat % 16 = 1) ∧
      ((0x00000002 : Word).toNat / 16 = 0 ∧ (0x00000002 : Word).toNat % 16 = 2) ∧
      ((0x00000004 : Word).toNat / 16 = 0 ∧ (0x00000004 : Word).toNat % 16 = 4) ∧
      ((0x00000005 : Word).toNat / 16 = 0 ∧ (0x00000005 : Word).toNat % 16 = 5) ∧
      ((0x00000000 : Word).toNat / 16 = 0 ∧ (0x00000000 : Word).toNat % 16 ∉ [1, 2, 4, 5]) ∧
      ((0x00000003 : Word).toNat / 16 = 0 ∧ (0x00000003 : Word).toNat % 16 ∉ [1, 2, 4, 5]) ∧
      ((0x00000006 : Word).toNat / 16 = 0 ∧ (0x00000006 : Word).toNat % 16 ∉ [1, 2, 4, 5]) ∧
      ((0x0000000F : Word).toNat / 16 = 0 ∧ (0x0000000F : Word).toNat % 16 ∉ [1, 2, 4, 5]) := by decide +kernel

/-- StepRunsDecodedCommand: a pending write of 4 to CMD. -/
theorem test_witness_StepRunsDecodedCommand :
    (State.reset.pend 0 (.write (regAddr State.reset.cfg .cmd) [4, 0, 0, 0])).inbox =
        [{ after := 0, move := .write (regAddr (State.reset.pend 0 .senseIrq).cfg .cmd) [4, 0, 0, 0] }] ∧
      decode [4, 0, 0, 0] = .ok (.trig, []) := ⟨rfl, by decide +kernel⟩

/-- CommandWhileBusyOnlySetsOverrun: a block in the middle of a SIGMA. -/
theorem test_witness_CommandWhileBusyOnlySetsOverrun : midSigma.busy = true := by decide +kernel

/-- UnitCommandIsSeenRunning: an idle block with a move that lands at once. -/
theorem test_witness_UnitCommandIsSeenRunning :
    (State.reset.pend 0 .senseIrq).busy = false ∧ (State.reset.pend 0 .senseIrq).inbox = [{ after := 0, move := .senseIrq }] := by
  decide +kernel

/-- The image of `testSmall` is legal. -/
theorem test_legal_small : testSmall.regs.imageLegal := by unfold Regs.imageLegal; decide +kernel

/-- ImageCommandIsSeenRunning: both clauses, with the LUT's coefficients, and the second with -256 and 256 in TRIG_Q. -/
theorem test_witness_ImageCommandIsSeenRunning :
    ((testSmall.pend 0 .senseIrq).busy = false ∧ (testSmall.pend 0 .senseIrq).inbox = [{ after := 0, move := .senseIrq }] ∧
        (testSmall.pend 0 .senseIrq).regs.imageLegal ∧
        (testSmall.pend 0 .senseIrq).sigmaJob.onDevice (testSmall.pend 0 .senseIrq).cfg = false ∧
        (testSmall.pend 0 .senseIrq).rotfxJob.onDevice (testSmall.pend 0 .senseIrq).cfg = false ∧
        (testSmall.pend 0 .senseIrq).regs.trigSrc = false) ∧
      (((testSmall.withCoefficients (-256) 256).pend 0 .senseIrq).busy = false ∧
        ((testSmall.withCoefficients (-256) 256).pend 0 .senseIrq).regs.imageLegal ∧
        ((testSmall.withCoefficients (-256) 256).pend 0 .senseIrq).rotfxJob.onDevice testSmall.cfg = false ∧
        coefficientLegal ((testSmall.withCoefficients (-256) 256).pend 0 .senseIrq).regs.cq ∧
        coefficientLegal ((testSmall.withCoefficients (-256) 256).pend 0 .senseIrq).regs.sq) :=
  ⟨⟨rfl, rfl, test_legal_small, rfl, rfl, rfl⟩, ⟨rfl, test_legal_small, rfl, by decide +kernel, by decide +kernel⟩⟩

/-- ReservedWordEndsIllegal, TrigCompletesWithLut and BilerpCompletesWithResult: the block after reset, and one whose next move
lands right after the command's only step. -/
theorem test_witness_unit_commands :
    State.reset.busy = false ∧ State.reset.undisturbed 1 ∧ (State.reset.pend 1 .senseIrq).busy = false ∧
      (State.reset.pend 1 .senseIrq).undisturbed 1 :=
  ⟨rfl, undisturbed_of_empty rfl 1, rfl, undisturbed_of_pend _ 1 _⟩

/-- SigmaChecksInOrder: a block for each clause, and at each edge one that the clause just leaves out. -/
theorem test_witness_SigmaChecksInOrder :
    ((testState 2 2 2 []).busy = false ∧ ¬ ((testState 2 2 2 []).regs.c = 1 ∨ (testState 2 2 2 []).regs.c = 3)) ∧
      ((testState 0 2 3 []).busy = false ∧ (testState 0 2 3 []).regs.c = 3 ∧ (testState 0 2 3 []).regs.w = 0) ∧
      ((testState 2 0 1 []).busy = false ∧ (testState 2 0 1 []).regs.c = 1 ∧ (testState 2 0 1 []).regs.h = 0) ∧
      ((testSmall.at 0xFFFFFFFD 0x2000).busy = false ∧ (testSmall.at 0xFFFFFFFD 0x2000).regs.c = 1 ∧
        0 < (testSmall.at 0xFFFFFFFD 0x2000).regs.w ∧ 0 < (testSmall.at 0xFFFFFFFD 0x2000).regs.h ∧
        2 ^ 32 - 1 < (testSmall.at 0xFFFFFFFD 0x2000).regs.src + (testSmall.at 0xFFFFFFFD 0x2000).regs.len - 1) ∧
      2 ^ 32 - 1 < (testSmall.at 0x1000 0xFFFFFFFD).regs.dst + (testSmall.at 0x1000 0xFFFFFFFD).regs.len - 1 ∧
      ¬ 2 ^ 32 - 1 < (testSmall.at 0xFFFFFFFC 0x2000).regs.src + (testSmall.at 0xFFFFFFFC 0x2000).regs.len - 1 ∧
      ((testSmall.at 0x1000 0x1003).busy = false ∧ (testSmall.at 0x1000 0x1003).regs.c = 1 ∧
        0 < (testSmall.at 0x1000 0x1003).regs.w ∧ 0 < (testSmall.at 0x1000 0x1003).regs.h ∧
        (testSmall.at 0x1000 0x1003).regs.src + (testSmall.at 0x1000 0x1003).regs.len - 1 ≤ 2 ^ 32 - 1 ∧
        (testSmall.at 0x1000 0x1003).regs.dst + (testSmall.at 0x1000 0x1003).regs.len - 1 ≤ 2 ^ 32 - 1 ∧
        (testSmall.at 0x1000 0x1003).regs.src < (testSmall.at 0x1000 0x1003).regs.dst + (testSmall.at 0x1000 0x1003).regs.len ∧
        (testSmall.at 0x1000 0x1003).regs.dst < (testSmall.at 0x1000 0x1003).regs.src + (testSmall.at 0x1000 0x1003).regs.len) ∧
      ¬ (testSmall.at 0x1000 0x1004).regs.dst < (testSmall.at 0x1000 0x1004).regs.src + (testSmall.at 0x1000 0x1004).regs.len := by
  decide +kernel

/-- RotfxChecksInOrder: a block for each clause with TRIG_SRC = 1; 257 and -257 are out of range, 256 and -256 are not. -/
theorem test_witness_RotfxChecksInOrder :
    ¬ ((testState 2 2 2 []).regs.c = 1 ∨ (testState 2 2 2 []).regs.c = 3) ∧
      ((testState 0 2 3 []).regs.c = 3 ∧ (testState 0 2 3 []).regs.w = 0) ∧
      ((testSmall.withCoefficients 257 0).busy = false ∧ (testSmall.withCoefficients 257 0).regs.c = 1 ∧
        0 < (testSmall.withCoefficients 257 0).regs.w ∧ 0 < (testSmall.withCoefficients 257 0).regs.h ∧
        (testSmall.withCoefficients 257 0).regs.trigSrc = true ∧
        ¬ coefficientLegal (testSmall.withCoefficients 257 0).regs.cosq.toInt) ∧
      ¬ coefficientLegal (testSmall.withCoefficients 0 (-257)).regs.sinq.toInt ∧
      (((testSmall.at 0xFFFFFFFD 0x2000).withCoefficients 256 (-256)).regs.trigSrc = true ∧
        coefficientLegal ((testSmall.at 0xFFFFFFFD 0x2000).withCoefficients 256 (-256)).regs.cosq.toInt ∧
        coefficientLegal ((testSmall.at 0xFFFFFFFD 0x2000).withCoefficients 256 (-256)).regs.sinq.toInt ∧
        2 ^ 32 - 1 < ((testSmall.at 0xFFFFFFFD 0x2000).withCoefficients 256 (-256)).regs.src +
          ((testSmall.at 0xFFFFFFFD 0x2000).withCoefficients 256 (-256)).regs.len - 1) ∧
      (((testSmall.at 0x1000 0x1003).withCoefficients 256 (-256)).regs.trigSrc = true ∧
        coefficientLegal ((testSmall.at 0x1000 0x1003).withCoefficients 256 (-256)).regs.cosq.toInt ∧
        coefficientLegal ((testSmall.at 0x1000 0x1003).withCoefficients 256 (-256)).regs.sinq.toInt ∧
        ((testSmall.at 0x1000 0x1003).withCoefficients 256 (-256)).regs.dst <
          ((testSmall.at 0x1000 0x1003).withCoefficients 256 (-256)).regs.src +
            ((testSmall.at 0x1000 0x1003).withCoefficients 256 (-256)).regs.len) := by
  decide +kernel

/-- BufferOnDeviceIsRefused: a device at the last byte of the output buffer. -/
theorem test_witness_BufferOnDeviceIsRefused :
    (testSmall.onPlatform devicePlatform).busy = false ∧ (testSmall.onPlatform devicePlatform).regs.imageLegal ∧
      (testSmall.onPlatform devicePlatform).sigmaJob.onDevice devicePlatform = true ∧
      (testSmall.onPlatform devicePlatform).rotfxJob.onDevice devicePlatform = true ∧
      (testSmall.onPlatform devicePlatform).regs.trigSrc = false :=
  ⟨rfl, test_legal_small, by decide +kernel, rfl, rfl⟩

/-- TrigLutIsExact: the second clause at the most positive angle and at 0, and the angle it leaves out. -/
theorem test_witness_TrigLutIsExact :
    TrigQuant.trunc ≠ .floor ∧ TrigQuant.nearest ≠ .floor ∧ (0x7FFFFFFF : Word) ≠ 0x80000000 ∧ (0 : Word) ≠ 0x80000000 ∧
      -(0x80000000 : Word) = 0x80000000 := by decide +kernel

/-- BilerpTruncates: samples 0 and 255 with the result 255, where the 0-sample S01 weighs nothing at FC = 0. -/
theorem test_witness_BilerpTruncates :
    (∀ x ∈ ([255, 0, 255, 255] : List Byte), x = 0 ∨ x = 255) ∧ bilerpFX 255 0 255 255 128 0 = 255 := by
  constructor
  · simp
  · decide +kernel

/-- BilinearWeightsSum: the corners of the range. -/
theorem test_witness_BilinearWeightsSum : (0 : Nat) ≤ 255 ∧ (255 : Nat) ≤ 255 := by decide +kernel

/-- A job of `testSmall` is one the checks admit, and the default platform's bus answers all its accesses. -/
theorem test_small_job_legal : testSmall.sigmaJob.Legal ∧ testSmall.sigmaJob.busOk testSmall.cfg ∧
    testSmall.rotfxJob.busOk testSmall.cfg :=
  ⟨by decide +kernel, fun _ _ _ _ => ⟨fun _ _ => rfl, rfl⟩, fun _ _ _ _ => ⟨fun _ _ => rfl, rfl⟩⟩

/-- HistogramIsTheDirectCount: the last pixel of `testSmall`. -/
theorem test_witness_HistogramIsTheDirectCount :
    testSmall.sigmaJob.kernel = .sigma 0 1 ∧ testSmall.sigmaJob.Legal ∧ testSmall.sigmaJob.busOk testSmall.cfg ∧
      1 < testSmall.sigmaJob.h ∧ 1 < testSmall.sigmaJob.w :=
  ⟨rfl, test_small_job_legal.1, test_small_job_legal.2.1, by decide +kernel, by decide +kernel⟩

/-- A histogram that is the direct count of the window of pixel (0, 0) of a one-pixel image. -/
theorem test_matches_one_pixel :
    (testHist.inc 0 7).Matches (testState 1 1 1 [7]).sigmaJob 1 0 0 := by
  intro ch hch p
  obtain rfl : ch = 0 := Nat.lt_one_iff.mp hch
  have hw : (testState 1 1 1 [7]).sigmaJob.window 1 0 0 = [(0, 0)] := by decide +kernel
  have hv : (testState 1 1 1 [7]).sigmaJob.input 0 0 0 = 7 := by decide +kernel
  rw [Hist.count_inc _ (by decide), testHist_count, Job.windowCount, hw]
  simp only [List.filter_cons, List.filter_nil, hv]
  by_cases hp : p = 7
  · subst hp; rfl
  · rw [if_neg (fun h => hp h.2), if_neg (by simpa using fun h => hp h.symm)]; rfl

/-- CountersSumToWindowSize and SigmaValueHasClosedForm. -/
theorem test_witness_window_statements :
    (testState 1 1 1 [7]).sigmaJob.Legal ∧ (testState 1 1 1 [7]).sigmaJob.hasSample 0 0 0 ∧
      (testHist.inc 0 7).Matches (testState 1 1 1 [7]).sigmaJob 1 0 0 :=
  ⟨by decide +kernel, by unfold Job.hasSample; decide +kernel, test_matches_one_pixel⟩

/-- RoundedMeanRoundsHalfUp. -/
theorem test_witness_RoundedMeanRoundsHalfUp : (0 : Nat) < 1 := by decide +kernel

/-- SigmaIdentities, SigmaBoxMean, RotfxEqualsReference, AngleZeroCopiesTheInterior: a sample of a legal job; pixel (0, 0) of
`testSmall` is touched at angle 0, and pixel (1, 1) is not; and a job of one row. -/
theorem test_witness_sample_statements :
    testSmall.sigmaJob.Legal ∧ testSmall.sigmaJob.hasSample 1 1 0 ∧ testSmall.rotfxJob.hasSample 0 0 0 ∧
      (mapSource 256 0 testSmall.rotfxJob.w testSmall.rotfxJob.h 0 0).touched testSmall.rotfxJob.w testSmall.rotfxJob.h = true ∧
      (mapSource 256 0 testSmall.rotfxJob.w testSmall.rotfxJob.h 1 1).touched testSmall.rotfxJob.w testSmall.rotfxJob.h = false ∧
      (testSmall.jobOf (.rotfx (-256) 256 none)).kernel = .rotfx (-256) 256 none ∧ (testState 3 1 1 []).sigmaJob.h < 2 := by
  refine ⟨test_small_job_legal.1, ?_, ?_, by decide +kernel, by decide +kernel, rfl, by decide +kernel⟩
  all_goals unfold Job.hasSample; decide +kernel

/-- SigmaFiltersTheImage: with nothing pending, and with a move that lands right after the command's end. -/
theorem test_witness_SigmaFiltersTheImage :
    (testSmall.busy = false ∧ testSmall.mem.wf ∧ testSmall.regs.imageLegal ∧ testSmall.sigmaJob.onDevice testSmall.cfg = false ∧
        testSmall.sigmaJob.busOk testSmall.cfg ∧ testSmall.undisturbed (testSmall.regs.len + 1)) ∧
      ((testSmall.pend 5 .senseIrq).busy = false ∧ (testSmall.pend 5 .senseIrq).mem.wf ∧
        (testSmall.pend 5 .senseIrq).regs.imageLegal ∧ (testSmall.pend 5 .senseIrq).sigmaJob.onDevice testSmall.cfg = false ∧
        (testSmall.pend 5 .senseIrq).sigmaJob.busOk testSmall.cfg ∧ testSmall.regs.len + 1 = 5 ∧
        (testSmall.pend 5 .senseIrq).undisturbed 5) :=
  ⟨⟨rfl, by decide +kernel, test_legal_small, rfl, test_small_job_legal.2.1, undisturbed_of_empty rfl _⟩,
    ⟨rfl, by decide +kernel, test_legal_small, rfl, test_small_job_legal.2.1, by decide +kernel, undisturbed_of_pend _ _ _⟩⟩

/-- RotfxRotatesTheImage: with the LUT's coefficients, and with 256 and -256 in TRIG_Q. -/
theorem test_witness_RotfxRotatesTheImage :
    (testSmall.busy = false ∧ testSmall.mem.wf ∧ testSmall.regs.imageLegal ∧ testSmall.regs.trigSrc = false ∧
        testSmall.rotfxJob.onDevice testSmall.cfg = false ∧ testSmall.rotfxJob.busOk testSmall.cfg ∧
        testSmall.undisturbed (testSmall.regs.len + 1)) ∧
      ((testSmall.withCoefficients 256 (-256)).busy = false ∧ (testSmall.withCoefficients 256 (-256)).mem.wf ∧
        (testSmall.withCoefficients 256 (-256)).regs.imageLegal ∧
        coefficientLegal (testSmall.withCoefficients 256 (-256)).regs.cq ∧
        coefficientLegal (testSmall.withCoefficients 256 (-256)).regs.sq ∧
        (testSmall.withCoefficients 256 (-256)).rotfxJob.onDevice testSmall.cfg = false ∧
        (testSmall.withCoefficients 256 (-256)).rotfxJob.busOk testSmall.cfg ∧
        (testSmall.withCoefficients 256 (-256)).undisturbed 5) :=
  ⟨⟨rfl, by decide +kernel, test_legal_small, rfl, rfl, test_small_job_legal.2.2, undisturbed_of_empty rfl _⟩,
    ⟨rfl, by decide +kernel, test_legal_small, by decide +kernel, by decide +kernel, rfl,
      fun _ _ _ _ => ⟨fun _ _ => rfl, rfl⟩, undisturbed_of_empty rfl _⟩⟩

/-- RotfxOfOneRowOrColumnWritesNothing: one row, and one column. -/
theorem test_witness_RotfxOfOneRowOrColumnWritesNothing :
    ((testState 3 1 1 []).busy = false ∧ (testState 3 1 1 []).regs.imageLegal ∧ (testState 3 1 1 []).regs.h < 2 ∧
        (testState 3 1 1 []).regs.trigSrc = false ∧ (testState 3 1 1 []).rotfxJob.onDevice (testState 3 1 1 []).cfg = false ∧
        (testState 3 1 1 []).undisturbed ((testState 3 1 1 []).regs.len + 1)) ∧
      ((testState 1 3 1 []).busy = false ∧ (testState 1 3 1 []).regs.imageLegal ∧ (testState 1 3 1 []).regs.w < 2 ∧
        (testState 1 3 1 []).regs.trigSrc = false ∧ (testState 1 3 1 []).rotfxJob.onDevice (testState 1 3 1 []).cfg = false ∧
        (testState 1 3 1 []).undisturbed ((testState 1 3 1 []).regs.len + 1)) := by
  refine ⟨⟨rfl, ?_, by decide +kernel, rfl, rfl, undisturbed_of_empty rfl _⟩,
    ⟨rfl, ?_, by decide +kernel, rfl, rfl, undisturbed_of_empty rfl _⟩⟩
  all_goals unfold Regs.imageLegal; decide +kernel

/-- RotationFitsItsDatapath: the ends of every range. -/
theorem test_witness_RotationFitsItsDatapath :
    coefficientLegal (-256) ∧ coefficientLegal 256 ∧ (65535 : Nat) ≤ 65535 ∧ (0 : Nat) < 65535 ∧ (65534 : Nat) < 65535 := by decide +kernel

/-- TouchedPixelReadsInsideTheBuffer: the touched pixel of a 2 by 2 image at (256, 0), and an untouched one; its job also meets the
second clause of AngleZeroCopiesTheInterior. -/
theorem test_witness_TouchedPixelReadsInsideTheBuffer :
    (testSmall.jobOf (.rotfx 256 0 none)).kernel = .rotfx 256 0 none ∧
      (0, 0, 0) ∈ (testSmall.jobOf (.rotfx 256 0 none)).writeSet ∧ (testSmall.jobOf (.rotfx 256 0 none)).Legal ∧
      1 < (testSmall.jobOf (.rotfx 256 0 none)).h ∧ 1 < (testSmall.jobOf (.rotfx 256 0 none)).w ∧
      0 < (testSmall.jobOf (.rotfx 256 0 none)).c ∧ (testSmall.jobOf (.rotfx 256 0 none)).writes 1 1 = false := by decide +kernel

/-- SigmaBusErrorEndsTheCommand: the bus answers one input sample with an error. -/
theorem test_witness_SigmaBusErrorEndsTheCommand :
    (testSmall.onPlatform busErrPlatform).busy = false ∧ (testSmall.onPlatform busErrPlatform).mem.wf ∧
      (testSmall.onPlatform busErrPlatform).regs.imageLegal ∧
      (testSmall.onPlatform busErrPlatform).sigmaJob.onDevice busErrPlatform = false ∧
      ¬ (testSmall.onPlatform busErrPlatform).sigmaJob.busOk busErrPlatform ∧
      (testSmall.onPlatform busErrPlatform).undisturbed ((testSmall.onPlatform busErrPlatform).regs.len + 1) := by
  refine ⟨rfl, by decide +kernel, test_legal_small, by decide +kernel, fun h => ?_, undisturbed_of_empty rfl _⟩
  exact absurd ((h 0 0 0 (by decide +kernel)).1 0x1001 (by decide +kernel)) (by decide +kernel)

/-- RotfxBusErrorEndsTheCommand: the same platform, with 256 and 0 in TRIG_Q. -/
theorem test_witness_RotfxBusErrorEndsTheCommand :
    ((testSmall.onPlatform busErrPlatform).withCoefficients 256 0).busy = false ∧
      ((testSmall.onPlatform busErrPlatform).withCoefficients 256 0).mem.wf ∧
      ((testSmall.onPlatform busErrPlatform).withCoefficients 256 0).regs.imageLegal ∧
      (coefficientLegal ((testSmall.onPlatform busErrPlatform).withCoefficients 256 0).regs.cq ∧
        coefficientLegal ((testSmall.onPlatform busErrPlatform).withCoefficients 256 0).regs.sq) ∧
      ((testSmall.onPlatform busErrPlatform).withCoefficients 256 0).rotfxJob.onDevice busErrPlatform = false ∧
      ¬ ((testSmall.onPlatform busErrPlatform).withCoefficients 256 0).rotfxJob.busOk busErrPlatform ∧
      ((testSmall.onPlatform busErrPlatform).withCoefficients 256 0).undisturbed 5 := by
  refine ⟨rfl, by decide +kernel, ?_, by decide +kernel, by decide +kernel, fun h => ?_, undisturbed_of_empty rfl _⟩
  · unfold Regs.imageLegal; decide +kernel
  · exact absurd ((h 0 0 0 (by decide +kernel)).1 0x1001 (by decide +kernel)) (by decide +kernel)

/-- A running SIGMA meets the invariant whatever move is pending. -/
theorem midSigma_pend_inv (m : Move) : (midSigma.pend 0 m).Inv := by
  refine ⟨?_, fun _ => ⟨rfl, rfl, rfl⟩, ?_⟩
  · show midSigma.mem.wf
    decide +kernel
  exact ⟨by decide +kernel, by decide +kernel, .inl ⟨by decide +kernel, by decide +kernel, by decide +kernel⟩,
    ⟨rfl, rfl, rfl, rfl, rfl, rfl, rfl⟩, List.mem_singleton.mpr rfl⟩

/-- A TRIG and a BILERP in the middle of their run. -/
def midTrig : State := { testSmall with regs := testSmall.regs.started 4, phase := .trig }
def midBilerp : State := { testSmall with regs := testSmall.regs.started 5, phase := .bilerp }

/-- A running unit command meets the invariant whatever move is pending. -/
theorem midUnit_pend_inv (m : Move) : (midTrig.pend 0 m).Inv ∧ (midBilerp.pend 0 m).Inv := by
  have hm : testSmall.mem.wf := by decide +kernel
  exact ⟨⟨hm, fun _ => ⟨rfl, rfl, rfl⟩, trivial⟩, ⟨hm, fun _ => ⟨rfl, rfl, rfl⟩, trivial⟩⟩

/-- ResetFromEveryState: an idle block with the reset input asserted, a running SIGMA with a write to CTRL whose bit 0 is set, and a
running TRIG and BILERP, where no image command runs. -/
theorem test_witness_ResetFromEveryState :
    ((testSmall.pend 0 .hardReset).Inv ∧ (testSmall.pend 0 .hardReset).inbox = [{ after := 0, move := .hardReset }]) ∧
      ((midSigma.pend 0 (.write (regAddr midSigma.cfg .ctrl) (bytesOfWord 0x00000007))).Inv ∧
        (midSigma.pend 0 (.write (regAddr midSigma.cfg .ctrl) (bytesOfWord 0x00000007))).inbox =
          [{ after := 0, move := .write (regAddr midSigma.cfg .ctrl) (bytesOfWord 0x00000007) }] ∧
        (0x00000007 : Word).getLsbD 0 = true) ∧
      ((midTrig.pend 0 .hardReset).Inv ∧ (midTrig.pend 0 .hardReset).inbox = [{ after := 0, move := .hardReset }] ∧
        ∀ j p, (midTrig.pend 0 .hardReset).phase ≠ .image j p) ∧
      ((midBilerp.pend 0 .hardReset).Inv ∧ (midBilerp.pend 0 .hardReset).inbox = [{ after := 0, move := .hardReset }] ∧
        ∀ j p, (midBilerp.pend 0 .hardReset).phase ≠ .image j p) :=
  ⟨⟨⟨by decide +kernel, fun h => absurd h (by decide +kernel), trivial⟩, rfl⟩, ⟨midSigma_pend_inv _, rfl, by decide +kernel⟩,
    ⟨(midUnit_pend_inv _).1, rfl, fun _ _ h => by cases h⟩, ⟨(midUnit_pend_inv _).2, rfl, fun _ _ h => by cases h⟩⟩

/-- ResetValuesRead: the first and the last aligned offset, and the first reserved one. -/
theorem test_witness_ResetValuesRead : (0x00 : BitVec 8).toNat % 4 = 0 ∧ (0xFC : BitVec 8).toNat % 4 = 0 ∧
    (0x40 : BitVec 8).toNat % 4 = 0 := by decide +kernel

/-- A platform whose window starts at 0x100. -/
def basePlatform : Config := { Config.default with regPage := 1 }

/-- WindowLiesAtRegBase: a write and a read at the first address past the window, with REG_BASE = 0, and with REG_BASE = 0x100 an
access of four bytes from the address before the window, whose last three bytes reach into it (log 19). -/
theorem test_witness_WindowLiesAtRegBase :
    ¬ ((State.reset.pend 0 (.write 0x00000100 [1])).cfg.regBase.toNat ≤ (0x00000100 : Word).toNat ∧
        (0x00000100 : Word).toNat < (State.reset.pend 0 (.write 0x00000100 [1])).cfg.regBase.toNat + 256) ∧
      (State.reset.pend 0 (.write 0x00000100 [1])).inbox = [{ after := 0, move := .write 0x00000100 [1] }] ∧
      (State.reset.pend 0 (.read 0x00000100 4)).inbox = [{ after := 0, move := .read 0x00000100 4 }] ∧
      ¬ (basePlatform.regBase.toNat ≤ (0x000000FF : Word).toNat ∧ (0x000000FF : Word).toNat < basePlatform.regBase.toNat + 256) ∧
      ((State.resetOn basePlatform).pend 0 (.read 0x000000FF 4)).inbox = [{ after := 0, move := .read 0x000000FF 4 }] ∧
      ((State.resetOn basePlatform).pend 0 (.write 0x000000FF [1, 2, 3, 4])).inbox =
        [{ after := 0, move := .write 0x000000FF [1, 2, 3, 4] }] :=
  ⟨by decide +kernel, rfl, rfl, by decide +kernel, rfl, rfl⟩

/-- UndefinedAccessIsIgnored: a byte access, a misaligned one, and one at the first reserved offset. -/
theorem test_witness_UndefinedAccessIsIgnored :
    ([1] : List Byte).length ≠ 4 ∧ (0x19 : BitVec 8).toNat % 4 ≠ 0 ∧ 0x40 ≤ (0x40 : BitVec 8).toNat := by decide +kernel

/-- ReadOnlyRegistersKeepTheirValue: a pending write to ID. ParameterWriteIsReadBack: one to DIMS, and one to CTRL with bit 0 clear.
RegisterReadAnswersItsWord: a pending read of STATUS, and of TRIG_Q while a TRIG runs. StatusBitsClearByWritingOne and InterruptFollowsDoneAndEnable: a pending write of
2 to STATUS, and a look at irq. All in an idle block. -/
theorem test_witness_register_moves :
    (Reg.id ∈ [Reg.id, .blResult, .wcount, .errInfo] ∧
        (State.reset.pend 0 (.write (regAddr State.reset.cfg .id) (bytesOfWord 5))).inbox =
          [{ after := 0, move := .write (regAddr State.reset.cfg .id) (bytesOfWord 5) }]) ∧
      (Reg.dims ∈ parameterRegs ∧ (State.reset.pend 0 (.write (regAddr State.reset.cfg .dims) (bytesOfWord 5))).busy = false ∧
        (State.reset.pend 0 (.write (regAddr State.reset.cfg .dims) (bytesOfWord 5))).inbox =
          [{ after := 0, move := .write (regAddr State.reset.cfg .dims) (bytesOfWord 5) }]) ∧
      ((0xFFFFFFFE : Word).getLsbD 0 = false ∧
        (State.reset.pend 0 (.write (regAddr State.reset.cfg .ctrl) (bytesOfWord 0xFFFFFFFE))).inbox =
          [{ after := 0, move := .write (regAddr State.reset.cfg .ctrl) (bytesOfWord 0xFFFFFFFE) }]) ∧
      (State.reset.pend 0 (.read (regAddr State.reset.cfg .status) 4)).inbox =
        [{ after := 0, move := .read (regAddr State.reset.cfg .status) 4 }] ∧
      ((midTrig.pend 0 (.read (regAddr midTrig.cfg .trigQ) 4)).inbox =
          [{ after := 0, move := .read (regAddr midTrig.cfg .trigQ) 4 }] ∧
        (midTrig.pend 0 (.read (regAddr midTrig.cfg .trigQ) 4)).racingWord .trigQ = some (trigStep midTrig).regs.trigQ ∧
        (midSigma.pend 0 (.read (regAddr midSigma.cfg .wcount) 4)).busy = true ∧
        (midSigma.pend 0 (.read (regAddr midSigma.cfg .wcount) 4)).racingWord .wcount = none) ∧
      (State.reset.pend 0 (.write (regAddr State.reset.cfg .status) (bytesOfWord 0x00000002))).inbox =
        [{ after := 0, move := .write (regAddr State.reset.cfg .status) (bytesOfWord 0x00000002) }] ∧
      ((State.reset.pend 0 .senseIrq).busy = false ∧ (State.reset.pend 0 .senseIrq).inbox = [{ after := 0, move := .senseIrq }]) :=
  ⟨⟨by decide +kernel, rfl⟩, ⟨by decide +kernel, rfl, rfl⟩, ⟨by decide +kernel, rfl⟩, rfl, ⟨rfl, rfl, rfl, rfl⟩, rfl, rfl, rfl⟩

/-- ParametersStandWhileBusy: a running SIGMA, and a word with bit 0 clear. -/
theorem test_witness_ParametersStandWhileBusy : midSigma.busy = true ∧ (0xFFFFFFFE : Word).getLsbD 0 = false ∧ (0x00000001 : Word).getLsbD 0 = true ∧
      (0x00000006 : Word).getLsbD 1 = true ∧ (0x00000006 : Word).getLsbD 2 = true := by decide +kernel

/-- TrigQReadDuringRotation: a running ROTFX that has written TRIG_Q, and a running TRIG. -/
theorem test_witness_TrigQReadDuringRotation :
    (∃ j p, midRotfx.phase = .image j p ∧ j.kernel = .rotfx 256 0 (some 0x00000100)) ∧ midTrig.phase = .trig :=
  ⟨⟨testSmall.jobOf (.rotfx 256 0 (some 0x00000100)), { row := 0, col := 0, ch := 0, r0 := 0, r1 := 0 }, by decide +kernel, rfl⟩, rfl⟩

/-- OutputByteReadsOldOrNew: a running SIGMA, the last sample of its write set, and the address after it. -/
theorem test_witness_OutputByteReadsOldOrNew :
    midJob ∈ midSigma.watch ∧ (0, 1, 0) ∈ midJob.writeSet ∧ (0x00002001 : Word).toNat = midJob.outAddr 0 1 0 ∧
      midJob.writesAddr (0x00002002 : Word).toNat = false := by decide +kernel

/-- 20_memory R71: a reset in mid-run, or the start of a second command, leaves the buffers of the first open; reading STATUS with
DONE = 1 closes them all. -/
theorem test_window_stays_open :
    (resetBlock midSigma).watch = [midJob] ∧
      (nextOr (exec .sigma { testSmall with watch := [midJob] })).watch = [testSmall.sigmaJob, midJob] ∧
      (hostReadReg .status { midSigma with phase := .idle, regs := { midSigma.regs with done := true } }).2.watch = [] := by
  decide +kernel

/-- OpenBuffersAreNotWritten: a running SIGMA with a pending write to its last input byte, to its last output byte, and to the bytes
after them. -/
theorem test_witness_OpenBuffersAreNotWritten :
    ((midSigma.pend 0 (.memWrite 0x00001001 7)).inbox = [{ after := 0, move := .memWrite 0x00001001 7 }] ∧
        (midSigma.pend 0 (.memWrite 0x00001001 7)).cfg.deviceAt (0x00001001 : Word).toNat = false ∧
        (midSigma.pend 0 (.memWrite 0x00001001 7)).watch = [midJob] ∧ midJob.inInput (0x00001001 : Word).toNat = true) ∧
      ((midSigma.pend 0 (.memWrite 0x00002001 7)).watch = [midJob] ∧ midJob.inOutput (0x00002001 : Word).toNat = true) ∧
      (midJob.inInput (0x00001002 : Word).toNat = false ∧ midJob.inOutput (0x00001002 : Word).toNat = false) ∧
      (midJob.inInput (0x00002002 : Word).toNat = false ∧ midJob.inOutput (0x00002002 : Word).toNat = false) :=
  ⟨⟨rfl, rfl, rfl, by decide +kernel⟩, ⟨rfl, by decide +kernel⟩, by decide +kernel, by decide +kernel⟩

/-- Where `midSigma` stands: at the second pixel, with the row band of row 0. -/
theorem midSigma_phase : midSigma.phase = .image midJob { row := 0, col := 1, ch := 0, r0 := 0, r1 := 0 } := rfl

/-- EveryStepKeepsInvariant and NoStepFaults: a SIGMA after its first sample. -/
theorem test_witness_EveryStepKeepsInvariant : midSigma.Inv := by
  refine ⟨by decide +kernel, fun _ => by decide +kernel, ?_⟩
  unfold State.runLegal
  rw [midSigma_phase]
  refine ⟨by decide +kernel, by decide +kernel, .inl (by decide +kernel), ?_, by decide +kernel⟩
  exact ⟨rfl, rfl, rfl, rfl, rfl, rfl, rfl⟩

/-- The histogram of `midSigma` is the direct count of the window of pixel (0, 0). -/
theorem test_matches_mid : midSigma.hist.Matches midJob 1 0 0 := by
  intro ch hch p
  obtain rfl : ch = 0 := Nat.lt_one_iff.mp hch
  have hw : midJob.window 1 0 0 = [(0, 0), (0, 1)] := by decide +kernel
  have h0 : midJob.input 0 0 0 = 1 := by decide +kernel
  have h1 : midJob.input 0 1 0 = 5 := by decide +kernel
  rw [show midSigma.hist = (testHist.inc 0 1).inc 0 5 from rfl, Hist.count_inc _ (by decide), Hist.count_inc _ (by decide),
    testHist_count, Job.windowCount, hw]
  simp only [List.filter_cons, List.filter_nil, h0, h1]
  by_cases hp : p = 1
  · subst hp; rfl
  · by_cases hq : p = 5
    · subst hq; rfl
    · rw [if_neg (fun h => hp h.2), if_neg (fun h => hq h.2), if_neg (by simpa using fun h => hp h.symm),
        if_neg (by simpa using fun h => hq h.symm)]
      rfl

/-- EveryStepKeepsRunProgress and InvariantErrorNeverRaised: a SIGMA after its first sample has written it, counted it, and holds
its window. -/
theorem test_witness_EveryStepKeepsRunProgress :
    midSigma.RunInv ∧ midSigma.busy = true ∧ (∃ t, step midSigma = .next t) ∧ ∃ t, blockStep midSigma = .next t := by
  refine ⟨?_, by decide +kernel, exists_of_isNext (by decide +kernel), exists_of_isNext (by decide +kernel)⟩
  unfold State.RunInv
  rw [midSigma_phase]
  refine ⟨?_, ?_, by decide +kernel, ?_⟩
  · rintro r c ch ⟨hr, hc, hch⟩
    have : ∀ r < 1, ∀ c < 2, ∀ ch < 1, midSigma.mem.read (midJob.outAddr r c ch) =
        midJob.valueDuring { row := 0, col := 1, ch := 0, r0 := 0, r1 := 0 } r c ch := by
      unfold Job.valueDuring; decide +kernel
    exact this r hr c hc ch hch
  · intro a ha
    have h : 0x1000 ≤ a ∧ a < 0x1000 + 2 := of_decide_eq_true ha
    have : ∀ i < 2, midSigma.mem.read (0x1000 + i) = midJob.mem0.read (0x1000 + i) := by decide +kernel
    have e : a = 0x1000 + (a - 0x1000) := by omega
    rw [e]
    exact this _ (by omega)
  · exact fun _ => ⟨by decide +kernel, test_matches_mid⟩

/-- CommandsEnd: a SIGMA after its first sample with no move pending, and an idle block. -/
theorem test_witness_CommandsEnd :
    ({ midSigma with inbox := [] } : State).Inv ∧ State.reset.inbox = [] ∧ State.reset.busy = false := by
  refine ⟨?_, rfl, rfl⟩
  obtain ⟨h1, h2, h3⟩ := test_witness_EveryStepKeepsInvariant
  exact ⟨h1, h2, h3⟩

/-- PlatformStands: the step of an idle block with nothing pending. -/
theorem test_witness_PlatformStands : step State.reset = .next State.reset := rfl

/-- A command word placed in front of the reset state runs in the next step. -/
theorem test_placed_word_runs :
    (nextOr (step (State.reset.withFetchWord 32 4))).regs.cmd = 4 ∧ (nextOr (step (State.reset.withFetchWord 32 4))).regs.done = true := by
  decide +kernel

end Sys2Proof.Machine
end

section
/-! PROOFS. A step of the machine, taken apart once: a command's start, its run, and the landing of any other move. From these a
property that each of them keeps is kept by every step. -/

namespace Sys2Proof.Machine

open Host

/-- What a command word does after the first two lines of 60_exceptions R300. -/
def beginCommand : Instr → State → Outcome State Fault Refusal
  | .sigma => beginSigma
  | .rotfx => beginRotfx
  | .trig => beginTrig
  | .bilerp => beginBilerp
  | .reserved _ _ => beginReserved

/-- Every command is the shared write to CMD with its own start (60_exceptions R300, R301). -/
theorem exec_eq_issue (i : Instr) (s : State) : exec i s = issue i.word (beginCommand i) s := by
  cases i with
  | sigma => exact exec_sigma s
  | rotfx => exact exec_rotfx s
  | trig => exact exec_trig s
  | bilerp => exact exec_bilerp s
  | reserved op rsvd => exact exec_reserved op rsvd s

/-- What a write to CMD can do: set CMD_OVR while a command runs, or begin a command; then the block runs on. -/
theorem exec_cases {i : Instr} {s t : State} (h : exec i s = .next t) :
    (s.busy = true ∧ runOn { s with regs := { s.regs with cmdOvr := true } } = .next t) ∨
      (s.busy = false ∧
        ∃ u, beginCommand i { s with regs := s.regs.started i.word } = .next u ∧ runOn u = .next t) := by
  rw [exec_eq_issue] at h
  cases hb : s.busy with
  | true => rw [issue_busy hb] at h; exact .inl ⟨rfl, h⟩
  | false =>
    rw [issue_idle hb] at h
    split at h
    · exact .inr ⟨rfl, _, ‹_›, h⟩
    · cases h
    · cases h

/-- What the block's steps, the start of a command, CMD_OVR, and the landing of a move keep, every step of the machine keeps. -/
theorem step_keeps (P : State → Prop) (hinbox : ∀ s rest, P s → P { s with inbox := rest })
    (hblock : ∀ s t, P s → blockStep s = .next t → P t) (hlands : ∀ u v, P u → Lands u v → P v)
    (hovr : ∀ s, P s → s.busy = true → P { s with regs := { s.regs with cmdOvr := true } })
    (hbegin : ∀ i s t, P s → s.busy = false → beginCommand i { s with regs := s.regs.started i.word } = .next t → P t)
    {s t : State} (hs : P s) (h : step s = .next t) : P t := by
  rcases step_cases h with ⟨-, hr⟩ | ⟨p, rest, -, ⟨i, he⟩ | ⟨v, hl, hr⟩⟩
  · exact runOn_keeps P hblock hs hr
  · have hs' := hinbox s rest hs
    rcases exec_cases he with ⟨hb, hr⟩ | ⟨hb, u, hu, hr⟩
    · exact runOn_keeps P hblock (hovr _ hs' hb) hr
    · exact runOn_keeps P hblock (hbegin i _ u hs' hb hu) hr
  · exact runOn_keeps P hblock (hlands _ v (hinbox s rest hs) hl) hr

/-! ## The start of a command -/

/-- What passing the checks says (60_exceptions R305). -/
theorem checkImage_eq_none {rotation : Bool} {r : Regs} (h : checkImage rotation r = none) :
    (r.c = 1 ∨ r.c = 3) ∧ (r.w ≠ 0 ∧ r.h ≠ 0) ∧
      (rotation = true → r.trigSrc = true → coefficientLegal r.cq ∧ coefficientLegal r.sq) ∧
      (¬ wraps r.src r.len ∧ ¬ wraps r.dst r.len) ∧ ¬ overlap r.src r.dst r.len := by
  unfold checkImage at h
  split_ifs at h with hc hd ht ha ho
  exact ⟨hc, not_or.mp hd, fun h1 h2 => not_not.mp fun h3 => ht ⟨h1, h2, h3⟩, not_or.mp ha, ho⟩

/-- A job whose start passed the checks, with legal operands, is legal. -/
theorem Job.legal_of_checks {rotation : Bool} {s : State} {k : Kernel} (h : checkImage rotation s.regs = none)
    (hk : k.legal = true) : (s.jobOf k).Legal := by
  obtain ⟨hc, ⟨hw, hh⟩, -, ⟨hsrc, hdst⟩, ho⟩ := checkImage_eq_none h
  have hw' : s.regs.w < 2 ^ 16 := s.regs.width.isLt
  have hh' : s.regs.h < 2 ^ 16 := s.regs.height.isLt
  exact ⟨hc, ⟨Nat.pos_of_ne_zero hw, Nat.le_of_lt_succ hw'⟩, ⟨Nat.pos_of_ne_zero hh, Nat.le_of_lt_succ hh'⟩, hk, hsrc, hdst, ho⟩

/-- The operands of SIGMA's fields are legal (30_encoding R87). -/
theorem Kernel.sigma_legal (r : Regs) : (Kernel.sigma r.sigmaValue r.k).legal = true := by
  have h1 : r.sigmaValue < 2 ^ 8 := r.sigma.isLt
  have h2 : r.k < 2 ^ 16 := r.radius.isLt
  exact decide_eq_true ⟨Nat.le_of_lt_succ h1, Nat.le_of_lt_succ h2⟩

/-! ### The coefficients of the trig LUT lie in their range (43_trig_lut R162) -/

/-- A quantiser takes numbers of -256..256 to integers of that range. -/
theorem idealQuantise_legal (q : TrigQuant) {x : ℝ} (hx : |x| ≤ 256) : coefficientLegal (idealQuantise q x) := by
  obtain ⟨h1, h2⟩ := abs_le.mp hx
  have hfloor : coefficientLegal ⌊x⌋ :=
    ⟨Int.le_floor.mpr (by push_cast; exact h1), Int.floor_le_iff.mpr (by push_cast; linarith)⟩
  cases q with
  | floor => exact hfloor
  | nearest => exact ⟨Int.le_floor.mpr (by push_cast; linarith), Int.floor_le_iff.mpr (by push_cast; linarith)⟩
  | trunc =>
    change coefficientLegal (truncate x)
    unfold truncate
    split
    · exact hfloor
    · exact ⟨Int.le_ceil_iff.mpr (by push_cast; linarith), Int.ceil_le.mpr (by push_cast; exact h2)⟩

/-- At ANGLE 0 the LUT holds the coefficients of the identity (43_trig_lut R163). -/
theorem trigLUT_zero (q : TrigQuant) : trigLUT q 0 = (256, 0) := by
  cases q <;> decide +kernel

/-- At every other ANGLE the LUT holds the quantised cosine and sine (43_trig_lut R160, R164). -/
theorem trigLUT_eq_ideal (q : TrigQuant) {angle : Word} (h0 : angle ≠ 0) :
    trigLUT q angle =
      (idealQuantise q (256 * Real.cos ((angle.toInt : ℝ) / 2 ^ 16)),
        idealQuantise q (256 * Real.sin ((angle.toInt : ℝ) / 2 ^ 16))) := by
  have hn0 : angle.toInt ≠ 0 := fun h => h0 (BitVec.eq_of_toInt_eq h)
  have hn : |angle.toInt| ≤ 2 ^ 31 := by
    have h1 := angle.le_toInt
    have h2 := angle.toInt_lt
    exact abs_le.mpr ⟨h1, h2.le⟩
  obtain ⟨hcos, hsin⟩ := trigPoint_error _ hn
  exact Prod.ext (quantise_eq_ideal q hcos fun m => (trig_separated hn0 hn m).1)
    (quantise_eq_ideal q hsin fun m => (trig_separated hn0 hn m).2)

/-- R162: the LUT's coefficients lie in the range the rotation accepts. -/
theorem trigLUT_legal (q : TrigQuant) (angle : Word) :
    coefficientLegal (trigLUT q angle).1 ∧ coefficientLegal (trigLUT q angle).2 := by
  have hbound : ∀ x : ℝ, |x| ≤ 1 → |256 * x| ≤ 256 := fun x hx => by
    rw [abs_mul, abs_of_pos (by norm_num)]; linarith
  by_cases h0 : angle = 0
  · subst h0; rw [trigLUT_zero]; decide
  · rw [trigLUT_eq_ideal q h0]
    exact ⟨idealQuantise_legal q (hbound _ (Real.abs_cos_le_one _)), idealQuantise_legal q (hbound _ (Real.abs_sin_le_one _))⟩

/-- A legal coefficient survives a 16-bit field (10_state R31). -/
theorem coefficientLegal.toInt_ofInt {v : Int} (h : coefficientLegal v) : (BitVec.ofInt 16 v).toInt = v := by
  obtain ⟨h1, h2⟩ := h
  exact BitVec.toInt_ofInt_eq_self (by decide) (by norm_num; omega) (by norm_num; omega)

/-- TRIG_Q reads back the legal coefficients it was given (43_trig_lut R165). -/
theorem Regs.setTrigQ_coefficients (r : Regs) {cq sq : Int} (hc : coefficientLegal cq) (hs : coefficientLegal sq) :
    (r.setTrigQ cq sq).cq = cq ∧ (r.setTrigQ cq sq).sq = sq :=
  ⟨hc.toInt_ofInt, hs.toInt_ofInt⟩

/-- What the start of an image command settles before it runs: the registers are those of the write to CMD, or these with TRIG_Q
from the LUT (43_trig_lut R165), and they hold the parameters of a job the checks admit. -/
structure ImageStart (s : State) (k : Kernel) (u : State) : Prop where
  regs : u = s ∨ ∃ cq sq, u = { s with regs := s.regs.setTrigQ cq sq }
  legal : (u.jobOf k).Legal
  holds : u.regs.holds (u.jobOf k)

/-- What the start of a command can do: end at its check, or run one of the four commands. -/
theorem beginCommand_cases {i : Instr} {s t : State} (h : beginCommand i s = .next t) :
    (∃ code, t = s.endAtCheck code) ∨ t = { s with phase := .trig } ∨ t = { s with phase := .bilerp } ∨
      ∃ k u, ImageStart s k u ∧ startImage k u = .next t := by
  cases i with
  | reserved op rsvd => cases h; exact .inl ⟨_, rfl⟩
  | trig => cases h; exact .inr (.inl rfl)
  | bilerp => cases h; exact .inr (.inr (.inl rfl))
  | sigma =>
    replace h : beginSigma s = .next t := h
    unfold beginSigma at h
    split at h
    · cases h; exact .inl ⟨_, rfl⟩
    · exact .inr (.inr (.inr ⟨_, s, ⟨.inl rfl, Job.legal_of_checks ‹_› (Kernel.sigma_legal _), rfl, rfl, rfl, rfl, rfl, rfl, rfl⟩, h⟩))
  | rotfx =>
    replace h : beginRotfx s = .next t := h
    unfold beginRotfx at h
    split at h
    · cases h; exact .inl ⟨_, rfl⟩
    · rename_i hcheck
      refine .inr (.inr (.inr ?_))
      split at h
      · have hq := (checkImage_eq_none hcheck).2.2.1 rfl ‹_›
        have hl := Job.legal_of_checks (k := .rotfx _ _ none) hcheck (decide_eq_true hq)
        exact ⟨_, s, ⟨.inl rfl, hl, rfl, rfl, rfl, rfl, rfl, rfl, rfl⟩, h⟩
      · obtain ⟨hc, hs⟩ := trigLUT_legal s.cfg.trigQuant s.regs.angle
        have hq := s.regs.setTrigQ_coefficients hc hs
        have hl := Job.legal_of_checks (k := .rotfx _ _ (some s.regs.trigQ)) hcheck (decide_eq_true ⟨hc, hs⟩)
        exact ⟨_, _, ⟨.inr ⟨_, _, rfl⟩, hl, rfl, rfl, rfl, rfl, rfl, hq.1.symm, hq.2.symm⟩, h⟩

/-- The start of a command leaves the platform as it is. -/
theorem beginCommand_cfg {i : Instr} {s t : State} (h : beginCommand i s = .next t) : t.cfg = s.cfg := by
  rcases beginCommand_cases h with ⟨code, rfl⟩ | rfl | rfl | ⟨k, u, ⟨hu, -, -⟩, hi⟩
  · rfl
  · rfl
  · rfl
  · obtain ⟨-, rfl⟩ := startImage_cases hi
    rcases hu with rfl | ⟨cq, sq, rfl⟩ <;> rfl

/-- Settles O60: each part of a step leaves the platform's parameters as they are. -/
theorem platformStands : Obligations.PlatformStands := fun s _ h =>
  step_keeps (fun u => u.cfg = s.cfg) (fun _ _ hs => hs) (fun _ _ hs hb => (blockStep_keeps_surroundings hb).1.trans hs)
    (fun _ _ hs hl => hl.cfg_eq.trans hs) (fun _ hs _ => hs) (fun _ _ _ hs _ hb => (beginCommand_cfg hb).trans hs) rfl h

end Sys2Proof.Machine
end

section
/-! PROOFS. The machine's invariant, part by part: what an idle block needs, what the landing of a move leaves of a running command,
and what a block step and the start of a command keep. -/

namespace Sys2Proof.Machine

open Host

/-! ## What the invariants ask, by phase -/

/-- Of an idle block the invariant asks only that memory is in canonical form. -/
theorem State.inv_of_idle {s : State} (hp : s.phase = .idle) (hm : s.mem.wf) : s.Inv := by
  refine ⟨hm, fun hb => ?_, ?_⟩
  · rw [(s.busy_eq_false_iff).mpr hp] at hb; cases hb
  · unfold State.runLegal; rw [hp]; trivial

/-- Of an idle block nothing is asked about a run. -/
theorem State.runInv_of_idle {s : State} (hp : s.phase = .idle) : s.RunInv := by
  unfold State.RunInv; rw [hp]; trivial

/-- What a start leaves of the flags (60_exceptions R300). -/
def Regs.flagsClear (r : Regs) : Prop :=
  r.done = false ∧ r.err = .ok ∧ r.errInfo = 0

theorem Regs.started_flagsClear (r : Regs) (w : Word) : (r.started w).flagsClear := ⟨rfl, rfl, rfl⟩

/-- What the invariant asks of a running image command. -/
theorem State.inv_of_image {s : State} {j : Job} {p : Pos} (hp : s.phase = .image j p) (hm : s.mem.wf)
    (hf : s.regs.flagsClear) (hl : j.Legal) (hm0 : j.mem0.wf) (hb : p.inBounds j) (hh : s.regs.holds j) (hw : j ∈ s.watch) :
    s.Inv := by
  refine ⟨hm, fun _ => hf, ?_⟩
  unfold State.runLegal; rw [hp]; exact ⟨hl, hm0, hb, hh, hw⟩

/-- What the invariant asks of a running unit command. -/
theorem State.inv_of_unit {s : State} (hp : s.phase = .trig ∨ s.phase = .bilerp) (hm : s.mem.wf) (hf : s.regs.flagsClear) :
    s.Inv := by
  refine ⟨hm, fun _ => hf, ?_⟩
  unfold State.runLegal
  rcases hp with hp | hp <;> rw [hp] <;> trivial

/-- What the invariant says of a running image command. -/
theorem State.Inv.image {s : State} {j : Job} {p : Pos} (h : s.Inv) (hp : s.phase = .image j p) :
    s.regs.flagsClear ∧ j.Legal ∧ j.mem0.wf ∧ p.inBounds j ∧ s.regs.holds j ∧ j ∈ s.watch := by
  obtain ⟨-, hf, hl⟩ := h
  unfold State.runLegal at hl
  rw [hp] at hl
  exact ⟨hf (by unfold State.busy; rw [hp]; rfl), hl⟩

/-! ## The landing of a move -/

/-- What the landing of a move leaves of a running command: all but CMD_OVR, IRQ_EN, the model's own fields, and bytes of memory outside
the open buffers (10_state R40, 20_memory R71). -/
structure SameRun (u v : State) : Prop where
  phase : v.phase = u.phase
  hist : v.hist = u.hist
  watch : v.watch = u.watch
  wcount : v.regs.wcount = u.regs.wcount
  flags : u.regs.flagsClear → v.regs.flagsClear
  holds : ∀ j, u.regs.holds j → v.regs.holds j
  mem : ∀ j ∈ u.watch, ∀ a, (j.inInput a || j.inOutput a) = true → v.mem.read a = u.mem.read a

theorem SameRun.refl (u : State) : SameRun u u :=
  ⟨rfl, rfl, rfl, rfl, id, fun _ => id, fun _ _ _ _ => rfl⟩

/-- A use of a free value is no change of a run. -/
theorem SameRun.draws (u : State) (n : Nat) : SameRun u { u with draws := n } :=
  ⟨rfl, rfl, rfl, rfl, id, fun _ => id, fun _ _ _ _ => rfl⟩

/-- An answer to the host is no change of a run. -/
theorem SameRun.answer {u v : State} (h : SameRun u v) (a : Answer) : SameRun u (v.answer a) :=
  ⟨h.phase, h.hist, h.watch, h.wcount, h.flags, h.holds, h.mem⟩

/-- Nor is CMD_OVR (60_exceptions R301). -/
theorem SameRun.cmdOvr (u : State) : SameRun u { u with regs := { u.regs with cmdOvr := true } } :=
  ⟨rfl, rfl, rfl, rfl, id, fun _ => id, fun _ _ _ _ => rfl⟩

/-- The invariant does not see what a move leaves to it. -/
theorem SameRun.inv {u v : State} (h : SameRun u v) (hu : u.Inv) (hm : v.mem.wf) : v.Inv := by
  have hbusy : v.busy = u.busy := by unfold State.busy; rw [h.phase]
  obtain ⟨-, hf, hl⟩ := hu
  refine ⟨hm, fun hb => h.flags (hf (hbusy ▸ hb)), ?_⟩
  unfold State.runLegal at hl ⊢
  rw [h.phase]
  split at hl
  · obtain ⟨hlegal, hm0, hb, hh, hw⟩ := hl
    exact ⟨hlegal, hm0, hb, h.holds _ hh, h.watch ▸ hw⟩
  · trivial

/-- A reset keeps memory in canonical form (70_reset_and_hazards R403). -/
theorem State.Inv.resetBlock_mem_wf {s : State} (h : s.Inv) : (resetBlock s).mem.wf := by
  change (abortRun s).mem.wf
  unfold abortRun
  split
  · rename_i j p hp
    obtain ⟨-, hl, -⟩ := h.image hp
    exact (Job.settle_spec hl h.1 _ _).1
  · exact h.1

/-- DONE is 0 while a command runs, so the host that observes it finds an idle block (20_memory R71, 10_state R47). -/
theorem State.Inv.idle_of_done {s : State} (h : s.Inv) (hd : s.regs.done = true) : s.phase = .idle := by
  refine s.phase_of_not_busy (Bool.eq_false_of_not_eq_true fun hb => ?_)
  rw [(h.2.1 hb).1] at hd
  cases hd

/-- A write to a register resets the block, finds it idle, or leaves a running command as it was (10_state R40). -/
theorem hostWriteReg_cases (r : Reg) (w : Word) (u : State) :
    hostWriteReg r w u = resetBlock u ∨ (hostWriteReg r w u).mem = u.mem ∧
      (u.phase = .idle ∧ (hostWriteReg r w u).phase = .idle ∨ SameRun u (hostWriteReg r w u)) := by
  have hparameter : ∀ x : State, x = (if u.busy then u else { u with regs := u.regs.setParameter r w }) →
      x = resetBlock u ∨ x.mem = u.mem ∧ (u.phase = .idle ∧ x.phase = .idle ∨ SameRun u x) := by
    rintro x rfl
    split
    · exact .inr ⟨rfl, .inr (SameRun.refl u)⟩
    · have hp := u.phase_of_not_busy (Bool.eq_false_of_not_eq_true ‹_›)
      exact .inr ⟨rfl, .inl ⟨hp, hp⟩⟩
  cases r with
  | ctrl =>
    simp only [hostWriteReg, writeCtrl]
    split
    · exact .inl rfl
    · exact .inr ⟨rfl, .inr ⟨rfl, rfl, rfl, rfl, id, fun _ => id, fun _ _ _ _ => rfl⟩⟩
  | status =>
    refine .inr ⟨rfl, .inr ⟨rfl, rfl, rfl, rfl, fun ⟨hd, he, hi⟩ => ⟨?_, he, hi⟩, fun _ => id, fun _ _ _ _ => rfl⟩⟩
    simp [hostWriteReg, hd]
  | _ => exact hparameter _ rfl

/-- What the landing of a move can do: memory stays in canonical form, and the block is idle after it or its command runs on as it
was. -/
theorem Lands.cases_of_inv {u v : State} (h : Lands u v) (hu : u.Inv) : v.mem.wf ∧ (v.phase = .idle ∨ SameRun u v) := by
  cases h with
  | ignored => exact ⟨hu.1, .inr (SameRun.refl u)⟩
  | regWrite r w _ =>
    rcases hostWriteReg_cases r w u with h | ⟨hm, h⟩
    · rw [h]; exact ⟨hu.resetBlock_mem_wf, .inl rfl⟩
    · exact ⟨hm ▸ hu.1, h.imp_left And.right⟩
  | regRead off width =>
    rcases hostRead_state off width u with h | h | ⟨hd, h⟩ <;> rw [h]
    · exact ⟨hu.1, .inr ((SameRun.refl u).answer _)⟩
    · exact ⟨hu.1, .inr ((SameRun.draws u _).answer _)⟩
    · exact ⟨hu.1, .inl (hu.idle_of_done hd)⟩
  | memWrite addr b ho =>
    refine ⟨Memory.write_wf hu.1 addr.isLt b, .inr ⟨rfl, rfl, rfl, rfl, id, fun _ => id, fun j hj a ha => ?_⟩⟩
    refine Memory.read_write_other (fun he => ?_) b
    have hopen : u.inOpenBuffer a = true := List.any_eq_true.mpr ⟨j, hj, ha⟩
    rw [he, ho] at hopen
    cases hopen
  | memRead addr =>
    rcases hostMemRead_state addr u with h | h <;> rw [h]
    · exact ⟨hu.1, .inr ((SameRun.refl u).answer _)⟩
    · exact ⟨hu.1, .inr ((SameRun.draws u _).answer _)⟩
  | senseIrq =>
    split
    · rename_i hirq
      have hd : u.regs.done = true := (Bool.and_eq_true_iff.mp hirq).1
      exact ⟨hu.1, .inl (hu.idle_of_done hd)⟩
    · exact ⟨hu.1, .inr ((SameRun.refl u).answer _)⟩
  | hardReset => exact ⟨hu.resetBlock_mem_wf, .inl rfl⟩

/-- The landing of a move keeps the invariant. -/
theorem Lands.keeps_inv {u v : State} (h : Lands u v) (hu : u.Inv) : v.Inv := by
  obtain ⟨hm, hp | hs⟩ := h.cases_of_inv hu
  · exact State.inv_of_idle hp hm
  · exact hs.inv hu hm

/-! ## The start of a command -/

/-- The start of an image command meets the invariant. -/
theorem ImageStart.inv {s u t : State} {k : Kernel} (h : ImageStart s k u) (hm : s.mem.wf) (hf : s.regs.flagsClear)
    (ht : startImage k u = .next t) : t.Inv := by
  obtain ⟨-, rfl⟩ := startImage_cases ht
  have hu : u.mem.wf ∧ u.regs.flagsClear := by
    rcases h.regs with rfl | ⟨cq, sq, rfl⟩ <;> exact ⟨hm, hf⟩
  exact State.inv_of_image rfl hu.1 hu.2 h.legal hu.1 (.inl ⟨h.legal.h_pos, h.legal.w_pos, h.legal.c_pos⟩) h.holds
    List.mem_cons_self

/-- The start of a command on an idle block keeps the invariant. -/
theorem beginCommand_keeps_inv {i : Instr} {s t : State} (hs : s.Inv) (hb : s.busy = false)
    (h : beginCommand i { s with regs := s.regs.started i.word } = .next t) : t.Inv := by
  have hf := s.regs.started_flagsClear i.word
  rcases beginCommand_cases h with ⟨code, rfl⟩ | rfl | rfl | ⟨k, u, hu, hi⟩
  · exact State.inv_of_idle (s.phase_of_not_busy hb) hs.1
  · exact State.inv_of_unit (.inl rfl) hs.1 hf
  · exact State.inv_of_unit (.inr rfl) hs.1 hf
  · exact hu.inv hs.1 hf hi

/-! ## A step of the block -/

/-- The position after a sample: the next channel, or the next pixel (00_scope R15). -/
def Pos.nextSample (p : Pos) (j : Job) : Pos :=
  if p.ch + 1 < j.c then { p with ch := p.ch + 1 } else p.nextPixel j

/-- After a sample the sequencer moves on, and WCOUNT goes up at a pixel's last channel (10_state R35). -/
theorem advance_eq (j : Job) (p : Pos) (s : State) :
    advance j p s = { s with
      phase := .image j (p.nextSample j)
      regs := { s.regs with wcount := s.regs.wcount + if p.ch + 1 < j.c then 0 else 1 } } := by
  unfold advance Pos.nextSample
  split
  · simp
  · rfl

/-- The pixel after one of the image is one of the image, or the end. -/
theorem Pos.nextPixel_inBounds {p : Pos} {j : Job} (hl : j.Legal) (hr : p.row < j.h) : (p.nextPixel j).inBounds j := by
  unfold Pos.nextPixel Pos.inBounds
  split
  · exact .inl ⟨hr, ‹_›, hl.c_pos⟩
  · by_cases h : p.row + 1 < j.h
    · exact .inl ⟨h, hl.w_pos, hl.c_pos⟩
    · exact .inr ⟨by dsimp only; omega, rfl, rfl⟩

/-- The sample after one of the image is one of the image, or the end. -/
theorem Pos.nextSample_inBounds {p : Pos} {j : Job} (hl : j.Legal) (hr : p.row < j.h) (hc : p.col < j.w) :
    (p.nextSample j).inBounds j := by
  unfold Pos.nextSample
  split
  · exact .inl ⟨hr, hc, ‹_›⟩
  · exact Pos.nextPixel_inBounds hl hr

/-- The window work sets the row band and leaves the sequencer's place. -/
theorem prepareWindow_place {cfg : Config} {j : Job} {k : Nat} {p p' : Pos} {h h' : Hist}
    (he : prepareWindow cfg j k p h = .ok (h', p')) : p'.row = p.row ∧ p'.col = p.col ∧ p'.ch = p.ch := by
  unfold prepareWindow at he
  split at he
  · cases he; exact ⟨rfl, rfl, rfl⟩
  split at he
  · unfold histInit at he
    dsimp only at he
    split at he
    · cases he
    · cases he; exact ⟨rfl, rfl, rfl⟩
  · split at he
    · cases he
    · cases he; exact ⟨rfl, rfl, rfl⟩

/-- A run-time error leaves memory in canonical form (60_exceptions R313). -/
theorem failRun_mem_wf {j : Job} {s : State} (hl : j.Legal) (hm : s.mem.wf) (e : RunError) : (failRun j e s).mem.wf :=
  (Job.settle_spec hl hm _ _).1

/-- What a step of an image command keeps of the invariant when the command runs on: the sample's write stays inside the output
buffer. -/
theorem State.Inv.advance {s : State} {j : Job} {p p' : Pos} {hist : Hist} {m : Memory} (h : s.Inv) (hp : s.phase = .image j p)
    (hr : p'.row < j.h) (hc : p'.col < j.w) (hm : m.wf) : (advance j p' { s with hist := hist, mem := m }).Inv := by
  obtain ⟨hf, hl, hm0, -, hh, hw⟩ := h.image hp
  rw [advance_eq]
  exact State.inv_of_image rfl hm hf hl hm0 (Pos.nextSample_inBounds hl hr hc) hh hw

/-- A written sample keeps memory in canonical form. -/
theorem writeSample_wf {cfg : Config} {j : Job} {r c ch : Nat} {v : Byte} {m m' : Memory} (hl : j.Legal)
    (hs : j.hasSample r c ch) (hm : m.wf) (h : writeSample cfg j r c ch v m = .ok m') : m'.wf := by
  obtain ⟨-, rfl⟩ := writeSample_ok h
  exact Memory.write_wf hm (hl.outAddr_lt hs) v

/-- A step of an image command keeps the invariant. -/
theorem imageStep_keeps_inv {j : Job} {p : Pos} {s t : State} (hs : s.Inv) (hp : s.phase = .image j p)
    (h : imageStep j p s = .next t) : t.Inv := by
  obtain ⟨hl, ⟨-, rfl⟩ | ⟨hr, hc, hch, ⟨sigma, k, -, rfl⟩ | ⟨cq, sq, -, -, rfl⟩⟩⟩ := imageStep_cases h
  · exact State.inv_of_idle rfl hs.1
  · rcases sigmaStep_cases j sigma k p s with ⟨e, he⟩ | ⟨hist, p', v, mem, hprep, -, hwr, he⟩ <;> rw [he]
    · exact State.inv_of_idle rfl (failRun_mem_wf hl hs.1 e)
    · obtain ⟨er, ec, -⟩ := prepareWindow_place hprep
      exact hs.advance hp (er ▸ hr) (ec ▸ hc) (writeSample_wf hl ⟨hr, hc, hch⟩ hs.1 hwr)
  · rcases rotfxStep_cases j cq sq p s with ⟨-, he⟩ | ⟨-, ⟨e, he⟩ | ⟨_, _, _, _, mem, -, hwr, he⟩⟩ <;> rw [he]
    · obtain ⟨hf, -, hm0, -, hh, hw⟩ := hs.image hp
      exact State.inv_of_image rfl hs.1 hf hl hm0 (Pos.nextPixel_inBounds hl hr) hh hw
    · exact State.inv_of_idle rfl (failRun_mem_wf hl hs.1 e)
    · exact hs.advance hp hr hc (writeSample_wf hl ⟨hr, hc, hch⟩ hs.1 hwr)

/-- A step of the block keeps the invariant. -/
theorem blockStep_keeps_inv {s t : State} (hs : s.Inv) (h : blockStep s = .next t) : t.Inv := by
  rcases blockStep_cases h with ⟨-, rfl⟩ | ⟨-, rfl⟩ | ⟨-, rfl⟩ | ⟨j, p, hp, hi⟩
  · exact hs
  · exact State.inv_of_idle rfl hs.1
  · exact State.inv_of_idle rfl hs.1
  · exact imageStep_keeps_inv hs hp hi

end Sys2Proof.Machine
end

section
/-! PROOFS. How far a run has come, in the reference order (00_scope R15): the index of a position, the pixels before it, and what the
output holds there. -/

namespace Sys2Proof.Machine

/-- A position's place in the reference order: the index of the sample it stands at. -/
abbrev Pos.index (p : Pos) (j : Job) : Nat := j.index p.row p.col p.ch

/-- The next pixel's first sample comes right after the last channel of this one. -/
theorem Pos.index_nextPixel {p : Pos} {j : Job} (hc : p.col < j.w) :
    (p.nextPixel j).index j = (p.row * j.w + p.col + 1) * j.c := by
  unfold Pos.index Pos.nextPixel Job.index
  split
  · rfl
  · rw [show j.w = p.col + 1 by omega]
    ring

/-- The next sample's index is one higher. -/
theorem Pos.index_nextSample {p : Pos} {j : Job} (hc : p.col < j.w) (hch : p.ch < j.c) :
    (p.nextSample j).index j = p.index j + 1 := by
  unfold Pos.nextSample
  split
  · rfl
  · rw [Pos.index_nextPixel hc, Nat.add_one_mul]
    unfold Pos.index Job.index
    omega

/-! ## The pixels before a position -/

/-- The next pixel comes right after this one. -/
theorem Pos.pixel_nextPixel {p : Pos} {j : Job} (hc : p.col < j.w) :
    (p.nextPixel j).row * j.w + (p.nextPixel j).col = p.row * j.w + p.col + 1 := by
  unfold Pos.nextPixel
  split
  · rfl
  · dsimp only
    rw [Nat.add_one_mul]
    omega

/-- Row and column are told by a pixel's number. -/
theorem pixel_inj {w r c r' c' : Nat} (hc : c < w) (hc' : c' < w) (h : r * w + c = r' * w + c') : r = r' ∧ c = c' := by
  have hcol : c = c' := by
    simpa [Nat.mul_add_mod_self_right, Nat.mod_eq_of_lt hc, Nat.mod_eq_of_lt hc'] using congrArg (· % w) h
  subst hcol
  exact ⟨Nat.eq_of_mul_eq_mul_right (by omega) (Nat.add_right_cancel h), rfl⟩

theorem Job.writePixels_nodup (j : Job) : j.writePixels.Nodup := by
  refine List.Nodup.filter _ ?_
  exact List.Nodup.product (l₁ := List.range j.h) (l₂ := List.range j.w) List.nodup_range List.nodup_range

/-- A pixel of the write set stands in its list once, and any other not at all. -/
theorem Job.count_writePixels {j : Job} {r c : Nat} (hr : r < j.h) (hc : c < j.w) :
    j.writePixels.count (r, c) = if j.writes r c = true then 1 else 0 := by
  rw [j.writePixels_nodup.count]
  simp only [Job.mem_writePixels, hr, hc, true_and]

/-- Among the elements up to `a` by a key are those before it, and `a` as often as the list has it. -/
theorem length_filter_lt_succ {α : Type} [BEq α] [LawfulBEq α] (key : α → Nat) (a : α) (l : List α)
    (h : ∀ q ∈ l, key q = key a → q = a) :
    (l.filter fun q => key q < key a + 1).length = (l.filter fun q => key q < key a).length + l.count a := by
  induction l with
  | nil => rfl
  | cons q l ih =>
    have ih := ih fun x hx => h x (List.mem_cons_of_mem _ hx)
    rw [List.filter_cons, List.filter_cons, List.count_cons]
    rcases Nat.lt_trichotomy (key q) (key a) with hlt | heq | hgt
    · rw [if_pos (decide_eq_true (by omega)), if_pos (decide_eq_true hlt), if_neg (fun he => by simp_all),
        List.length_cons, List.length_cons]
      omega
    · obtain rfl := h q List.mem_cons_self heq
      rw [if_pos (decide_eq_true (by omega)), if_neg (by simp), if_pos (beq_self_eq_true q), List.length_cons]
      omega
    · rw [if_neg (by simpa using hgt), if_neg (by simpa using hgt.le), if_neg (fun he => by simp_all), Nat.add_zero]
      exact ih

/-- Passing a pixel counts it where the command writes it (10_state R35). -/
theorem Job.pixelsBefore_nextPixel {j : Job} {p : Pos} (hr : p.row < j.h) (hc : p.col < j.w) :
    j.pixelsBefore (p.nextPixel j) = j.pixelsBefore p + if j.writes p.row p.col = true then 1 else 0 := by
  unfold Job.pixelsBefore
  rw [Pos.pixel_nextPixel hc, ← Job.count_writePixels hr hc]
  refine length_filter_lt_succ (fun q : Nat × Nat => q.1 * j.w + q.2) (p.row, p.col) _ fun q hq h => ?_
  exact Prod.ext_iff.mpr (pixel_inj (Job.mem_writePixels.mp hq).2.1 hc h)

/-- Passing a sample of the write set counts its pixel at the last channel (10_state R35). -/
theorem Job.pixelsBefore_nextSample {j : Job} {p : Pos} (hr : p.row < j.h) (hc : p.col < j.w)
    (hw : j.writes p.row p.col = true) :
    j.pixelsBefore (p.nextSample j) = j.pixelsBefore p + if p.ch + 1 < j.c then 0 else 1 := by
  unfold Pos.nextSample
  split
  · rfl
  · rw [Job.pixelsBefore_nextPixel hr hc, if_pos hw]

/-! ## The output up to a position -/

/-- A position of the write set passed: its sample gets its new value, and every other sample is as before. -/
theorem Job.valueDuring_nextSample {j : Job} {p : Pos} (hp : j.hasSample p.row p.col p.ch)
    (hw : j.writes p.row p.col = true) {r c ch : Nat} (hs : j.hasSample r c ch) :
    j.valueDuring (p.nextSample j) r c ch =
      if j.outAddr r c ch = j.outAddr p.row p.col p.ch then j.newValue p.row p.col p.ch else j.valueDuring p r c ch := by
  have hidx := Pos.index_nextSample hp.2.1 hp.2.2
  unfold Pos.index at hidx
  unfold Job.valueDuring
  rw [hidx]
  by_cases he : j.outAddr r c ch = j.outAddr p.row p.col p.ch
  · rw [if_pos he]
    obtain ⟨rfl, rfl, rfl⟩ := Job.outAddr_inj hs hp he
    rw [if_pos ⟨hw, Nat.lt_succ_self _⟩]
  · have hne : j.index r c ch ≠ j.index p.row p.col p.ch := fun h => he (by unfold Job.outAddr; rw [h])
    have hlt : j.index r c ch < j.index p.row p.col p.ch + 1 ↔ j.index r c ch < j.index p.row p.col p.ch := by omega
    rw [if_neg he]
    simp only [hlt]

/-- A pixel outside the write set passed: every sample is as before. -/
theorem Job.valueDuring_nextPixel {j : Job} {p : Pos} (hp : j.hasSample p.row p.col p.ch)
    (hw : j.writes p.row p.col = false) {r c ch : Nat} (hs : j.hasSample r c ch) :
    j.valueDuring (p.nextPixel j) r c ch = j.valueDuring p r c ch := by
  have hidx := Pos.index_nextPixel hp.2.1
  unfold Pos.index at hidx
  unfold Job.valueDuring
  rw [hidx]
  by_cases hwr : j.writes r c = true
  · have hne : r * j.w + c ≠ p.row * j.w + p.col := fun h => by
      obtain ⟨rfl, rfl⟩ := pixel_inj hs.2.1 hp.2.1 h
      rw [hw] at hwr; cases hwr
    have hlt : j.index r c ch < (p.row * j.w + p.col + 1) * j.c ↔ j.index r c ch < j.index p.row p.col p.ch := by
      have hch := hs.2.2
      have hpch := hp.2.2
      unfold Job.index
      rcases Nat.lt_or_gt_of_ne hne with h | h
      · have h1 : (r * j.w + c + 1) * j.c ≤ (p.row * j.w + p.col) * j.c := Nat.mul_le_mul_right _ h
        rw [Nat.add_one_mul] at h1 ⊢
        constructor <;> intro <;> omega
      · have h1 : (p.row * j.w + p.col + 1) * j.c ≤ (r * j.w + c) * j.c := Nat.mul_le_mul_right _ h
        rw [Nat.add_one_mul] at h1 ⊢
        constructor <;> intro <;> omega
    simp only [hlt]
  · rw [if_neg fun h => hwr h.1, if_neg fun h => hwr h.1]

end Sys2Proof.Machine
end

section
/-! PROOFS. The histogram window: how its operations move the direct count from pixel to pixel (40_histogram_window R100 to R105). -/

namespace Sys2Proof.Machine

open Finset

/-! ## Counts over rows and columns -/

/-- A sum over the loop `a..b` of 00_scope R15. -/
theorem sum_upTo (f : Nat → Nat) (a b : Nat) : ((upTo a b).map f).sum = ∑ x ∈ Icc a b, f x := rfl

/-- A count over the loop `a..b`. -/
theorem countP_upTo (q : Nat → Prop) [DecidablePred q] (a b : Nat) :
    (upTo a b).countP q = ∑ x ∈ Icc a b, if q x then 1 else 0 := by
  rw [← card_filter, List.countP_eq_length_filter]
  rfl

/-- A sample's share in the count of the value `v`. -/
def Job.countAt (j : Job) (ch : Nat) (v : Byte) (r c : Nat) : Nat :=
  if j.input r c ch = v then 1 else 0

/-- The direct count over the window, by rows and columns. -/
theorem Job.windowCount_eq_sum (j : Job) (k r c ch : Nat) (v : Byte) :
    j.windowCount k r c ch v =
      ∑ x ∈ Icc (j.band k r).1 (j.band k r).2, ∑ y ∈ Icc (j.columns k c).1 (j.columns k c).2, j.countAt ch v x y := by
  unfold Job.windowCount Job.window
  rw [← List.countP_eq_length_filter, List.countP_flatMap, sum_upTo]
  refine sum_congr rfl fun x _ => ?_
  rw [Function.comp_apply, List.countP_map]
  exact countP_upTo (fun y => j.input x y ch = v) _ _

/-- Of the channels of a pixel only `ch` has a share in its count. -/
theorem Job.countP_channels {j : Job} {n ch : Nat} (hch : ch < n) (v : Byte) (r c : Nat) :
    ((List.range n).map fun i => (r, c, i)).countP (fun q : Sample => q.2.2 = ch ∧ j.input q.1 q.2.1 q.2.2 = v) =
      j.countAt ch v r c := by
  have h1 : (List.range n).countP (fun i => i = ch) = 1 :=
    List.count_eq_one_of_mem List.nodup_range (List.mem_range.mpr hch)
  rw [List.countP_map]
  unfold Job.countAt
  split
  next hv =>
    rw [← h1]
    exact List.countP_congr fun i _ => by simp +contextual [hv]
  next hv =>
    refine List.countP_eq_zero.mpr fun i _ => ?_
    simp only [Function.comp_apply, decide_eq_true_eq, not_and]
    rintro rfl
    exact hv

/-- How often a rectangle of samples holds a value in one of its channels, by rows and columns. -/
theorem Job.countIn_rectangle {j : Job} {r0 r1 c0 c1 n ch : Nat} (hch : ch < n) (v : Byte) :
    j.countIn (rectangle r0 r1 c0 c1 n) ch v = ∑ x ∈ Icc r0 r1, ∑ y ∈ Icc c0 c1, j.countAt ch v x y := by
  unfold Job.countIn rectangle
  rw [← List.countP_eq_length_filter, List.countP_flatMap, sum_upTo]
  refine sum_congr rfl fun x _ => ?_
  rw [Function.comp_apply, List.countP_flatMap, sum_upTo]
  exact sum_congr rfl fun y _ => Job.countP_channels hch v x y

/-- A rectangle holds nothing in a channel it does not have. -/
theorem Job.countIn_rectangle_other {j : Job} {r0 r1 c0 c1 n ch : Nat} (hch : n ≤ ch) (v : Byte) :
    j.countIn (rectangle r0 r1 c0 c1 n) ch v = 0 := by
  refine List.length_eq_zero_iff.mpr (List.filter_eq_nil_iff.mpr fun q hq => ?_)
  obtain ⟨r, c, i⟩ := q
  have := (mem_rectangle.mp hq).2.2
  simp only [decide_eq_true_eq, not_and]
  omega

/-- Every sample of a rectangle of a legal job's channels has a counter. -/
theorem Job.Legal.channels_of_rectangle {j : Job} (hl : j.Legal) {r0 r1 c0 c1 : Nat} :
    ∀ q ∈ rectangle r0 r1 c0 c1 j.c, q.2.2 < 3 := fun _ hq =>
  Nat.lt_of_lt_of_le (mem_rectangle.mp hq).2.2 hl.c_le

/-! ## The window slides one column (R101) -/

/-- The columns of the next window are those of this one, without the first where it is no longer clipped, and with one more where the
image has one. -/
theorem sum_columns_slide {w c : Nat} (k : Nat) (hc : c + 1 < w) (f : Nat → Nat) :
    ∑ y ∈ Icc (c + 1 - k) (min (w - 1) (c + 1 + k)), f y + (if k + 1 ≤ c + 1 then f (c - k) else 0) =
      ∑ y ∈ Icc (c - k) (min (w - 1) (c + k)), f y + (if c + 1 + k ≤ w - 1 then f (c + 1 + k) else 0) := by
  have hleft : ∀ b, c ≤ b →
      ∑ y ∈ Icc (c + 1 - k) b, f y + (if k + 1 ≤ c + 1 then f (c - k) else 0) = ∑ y ∈ Icc (c - k) b, f y := by
    intro b hb
    split
    · rw [show c + 1 - k = c - k + 1 by omega, Icc_add_one_left_eq_Ioc]
      exact sum_Ioc_add_eq_sum_Icc (by omega)
    · rw [show c + 1 - k = c - k by omega, Nat.add_zero]
  rw [hleft _ (by omega)]
  split
  · rw [show min (w - 1) (c + 1 + k) = c + k + 1 by omega, show min (w - 1) (c + k) = c + k by omega,
      sum_Icc_succ_top (by omega), show c + 1 + k = c + k + 1 by omega]
  · rw [show min (w - 1) (c + 1 + k) = w - 1 by omega, show min (w - 1) (c + k) = w - 1 by omega, Nat.add_zero]

/-- The samples HIST_SLIDE(r, c) takes out of the window (R101, R102): none where its column lies outside the image. -/
def Job.leaving (j : Job) (k r c : Nat) : List Sample :=
  if k + 1 ≤ c then rectangle (j.band k r).1 (j.band k r).2 (c - (k + 1)) (c - (k + 1)) j.c else []

/-- The samples HIST_SLIDE(r, c) counts in (R101, R103). -/
def Job.entering (j : Job) (k r c : Nat) : List Sample :=
  if c + k ≤ j.w - 1 then rectangle (j.band k r).1 (j.band k r).2 (c + k) (c + k) j.c else []

/-- The window of a pixel, from that of the pixel before it: what leaves taken out, what enters counted in. -/
theorem Job.windowCount_slide {j : Job} {k r c ch : Nat} (hc : c + 1 < j.w) (hch : ch < j.c) (v : Byte) :
    j.windowCount k r (c + 1) ch v + j.countIn (j.leaving k r (c + 1)) ch v =
      j.windowCount k r c ch v + j.countIn (j.entering k r (c + 1)) ch v := by
  have hout : j.countIn (j.leaving k r (c + 1)) ch v =
      ∑ x ∈ Icc (j.band k r).1 (j.band k r).2, if k + 1 ≤ c + 1 then j.countAt ch v x (c - k) else 0 := by
    unfold Job.leaving
    split
    · rw [Job.countIn_rectangle hch, show c + 1 - (k + 1) = c - k by omega]
      simp only [Icc_self, sum_singleton]
    · simp
  have hin : j.countIn (j.entering k r (c + 1)) ch v =
      ∑ x ∈ Icc (j.band k r).1 (j.band k r).2, if c + 1 + k ≤ j.w - 1 then j.countAt ch v x (c + 1 + k) else 0 := by
    unfold Job.entering
    split
    · rw [Job.countIn_rectangle hch]
      simp only [Icc_self, sum_singleton]
    · simp
  rw [Job.windowCount_eq_sum, Job.windowCount_eq_sum, hout, hin, ← sum_add_distrib, ← sum_add_distrib]
  exact sum_congr rfl fun x _ => sum_columns_slide k hc _

/-- What leaves a window was in it. -/
theorem Job.countIn_leaving_le {j : Job} {k r c : Nat} {h : Hist} (hc : c + 1 < j.w) (hm : h.Matches j k r c) (ch : Nat)
    (v : Byte) : j.countIn (j.leaving k r (c + 1)) ch v ≤ h.count ch v := by
  unfold Job.leaving
  split
  next hk =>
    by_cases hch : ch < j.c
    · rw [hm ch hch, Job.windowCount_eq_sum, Job.countIn_rectangle hch]
      refine sum_le_sum fun x _ => sum_le_sum_of_subset fun y hy => ?_
      simp only [Job.columns, mem_Icc] at hy ⊢
      omega
    · rw [Job.countIn_rectangle_other (Nat.not_lt.mp hch)]
      exact Nat.zero_le _
  next => exact Nat.zero_le _

/-! ## The window operations -/

/-- What HIST_INIT can do (R100): hold the window of the row's first pixel, or fail on the bus. -/
theorem histInit_cases {cfg : Config} {j : Job} (hl : j.Legal) (k : Nat) {p : Pos} (hp : p.col = 0)
    (h : Hist) :
    (∃ h', histInit cfg j k p h = .ok (h', { p with r0 := (j.band k p.row).1, r1 := (j.band k p.row).2 }) ∧
        h'.Matches j k p.row p.col) ∨
      ∃ a, histInit cfg j k p h = .error (.bus a) := by
  unfold histInit
  dsimp only
  rcases addSamples_cases cfg j _ hl.channels_of_rectangle (h.cleared j.c) with ⟨-, h', he, hc⟩ | ⟨q, -, -, he⟩
  · rw [he]
    refine .inl ⟨h', rfl, fun ch hch v => ?_⟩
    rw [hc, Hist.count_cleared, if_pos hch, Nat.zero_add, Job.countIn_rectangle hch, Job.windowCount_eq_sum, hp]
    simp only [Job.columns, Nat.zero_sub, Nat.zero_add]
  · rw [he]
    exact .inr ⟨_, rfl⟩

/-- The removal of a slide in the row's band takes out what leaves (R101, R102). -/
theorem slideOut_eq {cfg : Config} {j : Job} {k : Nat} {p : Pos} {h : Hist} (hb : (p.r0, p.r1) = j.band k p.row)
    (hc : p.col < j.w) : slideOut cfg j k p h = removeSamples cfg j (j.leaving k p.row p.col) h := by
  unfold slideOut histRemove Job.leaving
  rw [← hb]
  by_cases hk : k + 1 ≤ p.col
  · rw [if_pos ⟨hk, by omega⟩, if_pos hk]
  · rw [if_neg fun h => hk h.1, if_neg hk]
    rfl

/-- The addition of a slide in the row's band counts in what enters (R101, R103). -/
theorem slideIn_eq {cfg : Config} {j : Job} {k : Nat} {p : Pos} {h : Hist} (hb : (p.r0, p.r1) = j.band k p.row) :
    slideIn cfg j k p h = addSamples cfg j (j.entering k p.row p.col) h := by
  unfold slideIn histAdd Job.entering
  rw [← hb]
  split <;> rfl

/-- Every sample that leaves or enters a legal job's window has a counter. -/
theorem Job.Legal.channels_of_slide {j : Job} (hl : j.Legal) (k r c : Nat) :
    (∀ q ∈ j.leaving k r c, q.2.2 < 3) ∧ ∀ q ∈ j.entering k r c, q.2.2 < 3 := by
  unfold Job.leaving Job.entering
  constructor <;> split
  · exact hl.channels_of_rectangle
  · simp
  · exact hl.channels_of_rectangle
  · simp

/-- What HIST_SLIDE can do from the window of the pixel before (R101, R105): hold the window of its pixel, or fail on the bus. -/
theorem histSlide_cases {cfg : Config} {j : Job} (hl : j.Legal) {k c : Nat} {p : Pos} {h : Hist}
    (hb : (p.r0, p.r1) = j.band k p.row) (hp : p.col = c + 1) (hc : p.col < j.w) (hm : h.Matches j k p.row c) :
    (∃ h', histSlide cfg j k p h = .ok h' ∧ h'.Matches j k p.row p.col) ∨ ∃ a, histSlide cfg j k p h = .error (.bus a) := by
  obtain ⟨hout, hin⟩ := hl.channels_of_slide k p.row p.col
  have hle := Job.countIn_leaving_le (hp ▸ hc) hm
  rw [← hp] at hle
  unfold histSlide
  rw [slideOut_eq hb hc]
  rcases removeSamples_cases cfg j _ hout h hle with ⟨-, h1, he1, hc1⟩ | ⟨q, -, -, he⟩
  · rw [he1]
    dsimp only
    rw [slideIn_eq hb]
    rcases addSamples_cases cfg j _ hin h1 with ⟨-, h2, he2, hc2⟩ | ⟨q, -, -, he⟩
    · refine .inl ⟨h2, he2, fun ch hch v => ?_⟩
      have hslide := Job.windowCount_slide (k := k) (r := p.row) (hp ▸ hc) hch v
      have h1 := hc1 ch v
      rw [hm ch hch v] at h1
      rw [← hp] at hslide
      rw [hc2]
      omega
    · exact .inr ⟨_, he⟩
  · rw [he]
    exact .inr ⟨_, rfl⟩

/-- What the window work before a sample of SIGMA can do (41_sigma_filter R121), from a window in order: hold the window of the pixel
and its row band, or fail on the bus. ERR_INVARIANT is not among them (40_histogram_window R106). -/
theorem prepareWindow_cases {cfg : Config} {j : Job} (hl : j.Legal) {k : Nat} {p : Pos} {h : Hist} (hc : p.col < j.w)
    (hw : (p.ch ≠ 0 ∨ p.col ≠ 0) →
      (p.r0, p.r1) = j.band k p.row ∧ h.Matches j k p.row (if p.ch ≠ 0 then p.col else p.col - 1)) :
    (∃ h', prepareWindow cfg j k p h = .ok (h', { p with r0 := (j.band k p.row).1, r1 := (j.band k p.row).2 }) ∧
        h'.Matches j k p.row p.col) ∨
      ∃ a, prepareWindow cfg j k p h = .error (.bus a) := by
  have hself : (p.r0, p.r1) = j.band k p.row → p = { p with r0 := (j.band k p.row).1, r1 := (j.band k p.row).2 } :=
    fun hb => by rw [← hb]
  unfold prepareWindow
  by_cases hch : p.ch = 0
  · rw [if_neg (not_not.mpr hch)]
    by_cases hcol : p.col = 0
    · rw [if_pos hcol]
      exact histInit_cases hl k hcol h
    · obtain ⟨hb, hm⟩ := hw (.inr hcol)
      rw [if_neg hcol]
      rw [if_neg (not_not.mpr hch)] at hm
      rcases histSlide_cases (cfg := cfg) hl hb (by omega) hc hm with ⟨h', he, hm'⟩ | ⟨a, he⟩ <;> rw [he]
      · exact .inl ⟨h', congrArg (fun p => Except.ok (h', p)) (hself hb), hm'⟩
      · exact .inr ⟨a, rfl⟩
  · obtain ⟨hb, hm⟩ := hw (.inl hch)
    rw [if_pos hch] at hm ⊢
    exact .inl ⟨h, congrArg (fun p => Except.ok (h, p)) (hself hb), hm⟩

end Sys2Proof.Machine
end

section
/-! PROOFS. SigmaValue on the histogram of a window is the closed form over the window's samples (41_sigma_filter R122, R129). -/

namespace Sys2Proof.Machine

open Finset

/-- A sum over the chosen bins, each as often as a list has its value, is the sum over the chosen elements of the list. -/
theorem sum_bins {l : List Nat} {n : Nat} (hl : ∀ x ∈ l, x < n) (q : Nat → Bool) (f : Nat → Nat) :
    (((List.range n).filter q).map fun p => l.count p * f p).sum = ((l.filter q).map f).sum := by
  have hsub : (l.filter q).toFinset ⊆ (range n).filter fun p => q p = true := fun x hx => by
    obtain ⟨hx, hq⟩ := List.mem_filter.mp (List.mem_toFinset.mp hx)
    exact mem_filter.mpr ⟨mem_range.mpr (hl x hx), hq⟩
  have hbins : (((List.range n).filter q).map fun p => l.count p * f p).sum =
      ∑ p ∈ (range n).filter fun p => q p = true, l.count p * f p := by
    rw [← List.sum_toFinset _ (List.nodup_range.filter _), List.toFinset_filter, List.toFinset_range]
  have hlist : ((l.filter q).map f).sum = ∑ p ∈ (range n).filter fun p => q p = true, (l.filter q).count p * f p := by
    rw [sum_list_map_count]
    refine sum_subset hsub fun p _ hp => ?_
    rw [List.count_eq_zero_of_not_mem fun h => hp (List.mem_toFinset.mpr h), zero_smul]
  rw [hbins, hlist]
  exact sum_congr rfl fun p hp => by rw [List.count_filter (mem_filter.mp hp).2]

/-- The samples of a window in one channel, as numbers. -/
def Job.windowValues (j : Job) (k r c ch : Nat) : List Nat :=
  (j.window k r c).map fun p => (j.input p.1 p.2 ch).toNat

theorem Job.windowValues_lt (j : Job) (k r c ch : Nat) : ∀ x ∈ j.windowValues k r c ch, x < 256 := fun x hx => by
  obtain ⟨p, -, rfl⟩ := List.mem_map.mp hx
  exact (j.input p.1 p.2 ch).isLt

/-- The direct count of a value is how often the window has it. -/
theorem Job.count_windowValues (j : Job) (k r c ch : Nat) {p : Nat} (hp : p < 256) :
    (j.windowValues k r c ch).count p = j.windowCount k r c ch (BitVec.ofNat 8 p) := by
  unfold Job.windowValues Job.windowCount List.count
  rw [List.countP_map, ← List.countP_eq_length_filter]
  refine List.countP_congr fun q _ => ?_
  simp [← BitVec.toNat_inj, Nat.mod_eq_of_lt hp]

/-- A sum over the bins `lo..hi` of a window's histogram, as the sum over the window's samples in that range. -/
theorem Hist.Matches.sum_bins {h : Hist} {j : Job} {k r c ch : Nat} (hm : h.Matches j k r c) (hl : j.Legal) (hch : ch < j.c)
    (lo hi : Nat) (f : Nat → Nat) :
    ((h.bins ch lo hi).map fun b => b.1 * f b.2).sum =
      (((j.windowValues k r c ch).filter fun x => decide (lo ≤ x ∧ x ≤ hi)).map f).sum := by
  rw [Hist.bins_eq h (Nat.lt_of_lt_of_le hch hl.c_le), List.map_map, ← Machine.sum_bins (j.windowValues_lt k r c ch)]
  refine congrArg List.sum (List.map_congr_left fun p hp => ?_)
  rw [Function.comp_apply, j.count_windowValues k r c ch (List.mem_range.mp (List.mem_filter.mp hp).1), hm ch hch]

/-- A sample lies within `sigma` of itself, so it is near in its own window (41_sigma_filter R124). -/
theorem Job.nearSamples_ne_nil {j : Job} {sigma k r c ch : Nat} (hs : j.hasSample r c ch) :
    0 < (j.nearSamples sigma k r c ch).length := by
  obtain ⟨hr, hc, -⟩ := hs
  refine List.length_pos_of_mem (a := (j.input r c ch).toNat) (List.mem_filter.mpr ⟨List.mem_map.mpr ⟨(r, c), ?_, rfl⟩, ?_⟩)
  · rw [Job.mem_window]
    omega
  · have := (j.input r c ch).isLt
    unfold sigmaLo sigmaHi
    exact decide_eq_true (by omega)

/-- R129: on the histogram of a window SigmaValue is the closed form over its samples. -/
theorem sigmaValue_eq_sigmaResult {h : Hist} {j : Job} {sigma k r c ch : Nat} (hl : j.Legal) (hs : j.hasSample r c ch)
    (hm : h.Matches j k r c) : sigmaValue h ch sigma (j.input r c ch) = j.sigmaResult sigma k r c ch := by
  have htotal : ∀ lo hi, h.total ch lo hi =
      ((j.windowValues k r c ch).filter fun x => decide (lo ≤ x ∧ x ≤ hi)).length := fun lo hi => by
    simpa [Hist.total] using hm.sum_bins hl hs.2.2 lo hi fun _ => 1
  have hweighted : ∀ lo hi, h.weighted ch lo hi =
      ((j.windowValues k r c ch).filter fun x => decide (lo ≤ x ∧ x ≤ hi)).sum := fun lo hi => by
    simpa [Hist.weighted, Nat.mul_comm] using hm.sum_bins hl hs.2.2 lo hi id
  unfold sigmaValue
  dsimp only
  rw [htotal, hweighted]
  exact if_pos (Job.nearSamples_ne_nil hs)

end Sys2Proof.Machine
end

section
/-! PROOFS. What a running image command has done so far stands through every step (00_scope R15, 20_memory R64, R70). -/

namespace Sys2Proof.Machine

open Host

/-! ## What RunInv asks of a running image command -/

/-- What a running image command has done to memory and WCOUNT so far. -/
structure State.Progress (s : State) (j : Job) (p : Pos) : Prop where
  output : ∀ r c ch, j.hasSample r c ch → s.mem.read (j.outAddr r c ch) = j.valueDuring p r c ch
  input : ∀ a, j.inInput a = true → s.mem.read a = j.mem0.read a
  wcount : s.regs.wcount = BitVec.ofNat 32 (j.pixelsBefore p)

theorem State.RunInv.image {s : State} {j : Job} {p : Pos} (h : s.RunInv) (hp : s.phase = .image j p) :
    s.Progress j p ∧ s.windowInOrder j p := by
  unfold State.RunInv at h
  rw [hp] at h
  obtain ⟨hout, hin, hwc, hwin⟩ := h
  exact ⟨⟨hout, hin, hwc⟩, hwin⟩

theorem State.runInv_of_image {s : State} {j : Job} {p : Pos} (hp : s.phase = .image j p) (h : s.Progress j p)
    (hwin : s.windowInOrder j p) : s.RunInv := by
  unfold State.RunInv
  rw [hp]
  exact ⟨h.output, h.input, h.wcount, hwin⟩

/-- Of a running unit command nothing is asked. -/
theorem State.runInv_of_unit {s : State} (hp : s.phase = .trig ∨ s.phase = .bilerp) : s.RunInv := by
  unfold State.RunInv
  rcases hp with hp | hp <;> rw [hp] <;> trivial

/-- ROTFX has no window. -/
theorem State.windowInOrder_rotfx {s : State} {j : Job} {p : Pos} {cq sq : Int} {b : Option Word}
    (hk : j.kernel = .rotfx cq sq b) : s.windowInOrder j p := by
  unfold State.windowInOrder
  rw [hk]
  trivial

/-- What a window in order says for SIGMA. -/
theorem State.windowInOrder_sigma {s : State} {j : Job} {p : Pos} {sigma k : Nat} (hk : j.kernel = .sigma sigma k) :
    s.windowInOrder j p ↔ ((p.ch ≠ 0 ∨ p.col ≠ 0) →
      (p.r0, p.r1) = j.band k p.row ∧ s.hist.Matches j k p.row (if p.ch ≠ 0 then p.col else p.col - 1)) := by
  unfold State.windowInOrder
  rw [hk]

/-- At a row's first sample nothing is asked of the window. -/
theorem State.windowInOrder_of_row_start {s : State} {j : Job} {p : Pos} (hch : p.ch = 0) (hcol : p.col = 0) :
    s.windowInOrder j p := by
  unfold State.windowInOrder
  split
  · intro h
    omega
  · trivial

/-- The window of a sample's pixel is the one the next sample of SIGMA starts from (41_sigma_filter R121). -/
theorem State.windowInOrder_nextSample {s : State} {j : Job} {p : Pos} {sigma k : Nat} (hk : j.kernel = .sigma sigma k)
    (hb : (p.r0, p.r1) = j.band k p.row) (hm : s.hist.Matches j k p.row p.col) : s.windowInOrder j (p.nextSample j) := by
  unfold Pos.nextSample Pos.nextPixel
  split
  · exact (State.windowInOrder_sigma hk).mpr fun _ => ⟨hb, hm⟩
  · split
    · exact (State.windowInOrder_sigma hk).mpr fun _ => ⟨hb, hm⟩
    · exact State.windowInOrder_of_row_start rfl rfl

/-! ## The landing of a move -/

/-- RunInv does not see what the landing of a move leaves to it. -/
theorem SameRun.runInv {u v : State} (h : SameRun u v) (hu : u.Inv) (hr : u.RunInv) : v.RunInv := by
  cases hp : u.phase with
  | idle => exact State.runInv_of_idle (h.phase.trans hp)
  | trig => exact State.runInv_of_unit (.inl (h.phase.trans hp))
  | bilerp => exact State.runInv_of_unit (.inr (h.phase.trans hp))
  | image j p =>
    obtain ⟨-, -, -, -, -, hw⟩ := hu.image hp
    obtain ⟨hprog, hwin⟩ := hr.image hp
    refine State.runInv_of_image (h.phase.trans hp) ⟨fun r c ch hs => ?_, fun a ha => ?_, h.wcount.trans hprog.wcount⟩ ?_
    · rw [h.mem j hw _ (by simp [Job.inOutput_outAddr hs])]
      exact hprog.output r c ch hs
    · rw [h.mem j hw a (by simp [ha])]
      exact hprog.input a ha
    · unfold State.windowInOrder at hwin ⊢
      rw [h.hist]
      exact hwin

/-- The landing of a move keeps what a run has done. -/
theorem Lands.keeps_runInv {u v : State} (h : Lands u v) (hu : u.Inv) (hr : u.RunInv) : v.RunInv := by
  obtain ⟨-, hp | hs⟩ := h.cases_of_inv hu
  · exact State.runInv_of_idle hp
  · exact hs.runInv hu hr

/-! ## The start of a command -/

/-- An image command starts with nothing done: memory is its own start memory, and WCOUNT is 0 (60_exceptions R300). -/
theorem ImageStart.runInv {s u t : State} {k : Kernel} (h : ImageStart s k u) (hwc : s.regs.wcount = 0)
    (ht : startImage k u = .next t) : t.RunInv := by
  obtain ⟨-, rfl⟩ := startImage_cases ht
  have hu : u.regs.wcount = 0 := by
    rcases h.regs with rfl | ⟨cq, sq, rfl⟩ <;> exact hwc
  refine State.runInv_of_image rfl ⟨fun r c ch _ => ?_, fun _ _ => rfl, hu.trans ?_⟩ (State.windowInOrder_of_row_start rfl rfl)
  · simp [Job.valueDuring, Job.index, State.jobOf]
  · simp [Job.pixelsBefore]

/-- The start of a command meets RunInv. -/
theorem beginCommand_runInv {i : Instr} {s t : State} (hb : s.busy = false)
    (h : beginCommand i { s with regs := s.regs.started i.word } = .next t) : t.RunInv := by
  rcases beginCommand_cases h with ⟨code, rfl⟩ | rfl | rfl | ⟨k, u, hu, hi⟩
  · exact State.runInv_of_idle (s.phase_of_not_busy hb)
  · exact State.runInv_of_unit (.inl rfl)
  · exact State.runInv_of_unit (.inr rfl)
  · exact hu.runInv rfl hi

/-! ## A step of the block -/

/-- A sample's write reaches its own output byte only, and no byte of the input (20_memory R67). -/
theorem State.Progress.nextSample {s : State} {j : Job} {p : Pos} {hist : Hist} (h : s.Progress j p) (hl : j.Legal)
    (hm : s.mem.wf) (hs : j.hasSample p.row p.col p.ch) (hw : j.writes p.row p.col = true) :
    (advance j p { s with
      hist := hist
      mem := s.mem.write (j.outAddr p.row p.col p.ch) (j.newValue p.row p.col p.ch) }).Progress j (p.nextSample j) := by
  rw [advance_eq]
  refine ⟨fun r c ch hs' => ?_, fun a ha => ?_, ?_⟩
  · dsimp only
    rw [Memory.read_write hm, Job.valueDuring_nextSample hs hw hs', h.output r c ch hs']
  · refine (Memory.read_write_other (fun he => ?_) _).trans (h.input a ha)
    exact hl.disjoint ⟨ha, he ▸ Job.inOutput_outAddr hs⟩
  · dsimp only
    rw [h.wcount, Job.pixelsBefore_nextSample hs.1 hs.2.1 hw, BitVec.ofNat_add]
    congr 1
    split <;> rfl

/-- A pixel outside the write set is passed with nothing done (45_fixed_point_rotation R208). -/
theorem State.Progress.nextPixel {s : State} {j : Job} {p : Pos} (h : s.Progress j p) (hs : j.hasSample p.row p.col p.ch)
    (hw : j.writes p.row p.col = false) :
    ({ s with phase := .image j (p.nextPixel j) } : State).Progress j (p.nextPixel j) := by
  refine ⟨fun r c ch hs' => ?_, h.input, ?_⟩
  · rw [Job.valueDuring_nextPixel hs hw hs']
    exact h.output r c ch hs'
  · rw [Job.pixelsBefore_nextPixel hs.1 hs.2.1, if_neg (by simp [hw])]
    exact h.wcount

/-- Four neighbours read without a bus error are the samples in the memory at the command's start (20_memory R70). -/
theorem readNeighbours_ok {cfg : Config} {j : Job} {ir ic ch : Nat} {q : Byte × Byte × Byte × Byte}
    (h : readNeighbours cfg j ir ic ch = .ok q) :
    q = (j.input ir ic ch, j.input ir (ic + 1) ch, j.input (ir + 1) ic ch, j.input (ir + 1) (ic + 1) ch) := by
  unfold readNeighbours at h
  split at h
  next h00 h01 h10 h11 =>
    cases h
    rw [(readSample_ok h00).2, (readSample_ok h01).2, (readSample_ok h10).2, (readSample_ok h11).2]
  all_goals cases h

/-- A sample of SIGMA writes the closed form and holds its pixel's window (41_sigma_filter R129), or ends the command. -/
theorem sigmaStep_keeps_runInv {j : Job} {sigma k : Nat} {p : Pos} {s : State} (hm : s.mem.wf) (hl : j.Legal)
    (hk : j.kernel = .sigma sigma k) (hs : j.hasSample p.row p.col p.ch) (hprog : s.Progress j p) (hwin : s.windowInOrder j p) :
    (sigmaStep j sigma k p s).RunInv := by
  rcases sigmaStep_cases j sigma k p s with ⟨e, he⟩ | ⟨hist, p', v, mem, hprep, hread, hwrite, he⟩ <;> rw [he]
  · exact State.runInv_of_idle rfl
  · obtain ⟨-, rfl⟩ := readSample_ok hread
    obtain ⟨-, rfl⟩ := writeSample_ok hwrite
    rcases prepareWindow_cases (cfg := s.cfg) hl hs.2.1 ((State.windowInOrder_sigma hk).mp hwin) with
      ⟨h', hok, hmatch⟩ | ⟨a, herr⟩
    · rw [hok] at hprep
      cases hprep
      have hnew : sigmaValue hist p.ch sigma (j.input p.row p.col p.ch) = j.newValue p.row p.col p.ch := by
        rw [sigmaValue_eq_sigmaResult hl hs hmatch, Job.newValue, hk]
      have hw : j.writes p.row p.col = true := by rw [Job.writes, hk]
      rw [hnew]
      refine State.runInv_of_image (by rw [advance_eq])
        (State.Progress.nextSample ⟨hprog.output, hprog.input, hprog.wcount⟩ hl hm hs hw) ?_
      exact State.windowInOrder_nextSample hk rfl (by rw [advance_hist]; exact hmatch)
    · rw [herr] at hprep
      cases hprep

/-- A sample of ROTFX writes the interpolated value, passes an untouched pixel, or ends the command (45_fixed_point_rotation R200). -/
theorem rotfxStep_keeps_runInv {j : Job} {cq sq : Int} {b : Option Word} {p : Pos} {s : State} (hm : s.mem.wf) (hl : j.Legal)
    (hk : j.kernel = .rotfx cq sq b) (hs : j.hasSample p.row p.col p.ch) (hprog : s.Progress j p) :
    (rotfxStep j cq sq p s).RunInv := by
  have hw : j.writes p.row p.col = (mapSource cq sq j.w j.h p.row p.col).touched j.w j.h := by rw [Job.writes, hk]
  rcases rotfxStep_cases j cq sq p s with ⟨ht, he⟩ | ⟨ht, ⟨e, he⟩ | ⟨_, _, _, _, mem, hread, hwrite, he⟩⟩ <;> rw [he]
  · exact State.runInv_of_image rfl (hprog.nextPixel hs (hw.trans ht)) (State.windowInOrder_rotfx hk)
  · exact State.runInv_of_idle rfl
  · obtain ⟨-, rfl⟩ := writeSample_ok hwrite
    cases readNeighbours_ok hread
    have hnew : j.newValue p.row p.col p.ch = j.rotResult cq sq p.row p.col p.ch := by rw [Job.newValue, hk]
    have hnext := hprog.nextSample (hist := s.hist) hl hm hs (hw.trans ht)
    rw [hnew] at hnext
    exact State.runInv_of_image (by rw [advance_eq]) hnext (State.windowInOrder_rotfx hk)

/-- A step of the block keeps what a run has done. -/
theorem blockStep_keeps_runInv {s t : State} (hs : s.Inv) (hr : s.RunInv) (h : blockStep s = .next t) : t.RunInv := by
  rcases blockStep_cases h with ⟨-, rfl⟩ | ⟨-, rfl⟩ | ⟨-, rfl⟩ | ⟨j, p, hp, hi⟩
  · exact hr
  · exact State.runInv_of_idle rfl
  · exact State.runInv_of_idle rfl
  · obtain ⟨hprog, hwin⟩ := hr.image hp
    obtain ⟨hl, ⟨-, rfl⟩ | ⟨hrow, hcol, hch, ⟨sigma, k, hk, rfl⟩ | ⟨cq, sq, b, hk, rfl⟩⟩⟩ := imageStep_cases hi
    · exact State.runInv_of_idle rfl
    · exact sigmaStep_keeps_runInv hs.1 hl hk ⟨hrow, hcol, hch⟩ hprog hwin
    · exact rotfxStep_keeps_runInv hs.1 hl hk ⟨hrow, hcol, hch⟩ hprog

/-- Settles O56: the block's steps, the start of a command and the landing of a move each keep both invariants. -/
theorem everyStepKeepsRunProgress : Obligations.EveryStepKeepsRunProgress := fun _ _ hinv hrun h =>
  (step_keeps (fun u => u.Inv ∧ u.RunInv) (fun _ _ hs => hs)
    (fun _ _ ⟨hi, hr⟩ hb => ⟨blockStep_keeps_inv hi hb, blockStep_keeps_runInv hi hr hb⟩)
    (fun _ _ ⟨hi, hr⟩ hl => ⟨hl.keeps_inv hi, hl.keeps_runInv hi hr⟩)
    (fun u ⟨hi, hr⟩ _ => ⟨(SameRun.cmdOvr u).inv hi hi.1, (SameRun.cmdOvr u).runInv hi hr⟩)
    (fun _ _ _ ⟨hi, _⟩ hb hc => ⟨beginCommand_keeps_inv hi hb hc, beginCommand_runInv hb hc⟩) ⟨hinv, hrun⟩ h).2

end Sys2Proof.Machine
end

section
/-! PROOFS. Every step keeps the machine's invariant: the parts of a step that keep it, put together. -/

namespace Sys2Proof.Machine

/-- Settles O55: the block's steps, the start of a command, CMD_OVR and the landing of a move each keep the invariant. -/
theorem everyStepKeepsInvariant : Obligations.EveryStepKeepsInvariant := fun _ _ hinv h =>
  step_keeps State.Inv (fun _ _ hs => hs) (fun _ _ => blockStep_keeps_inv) (fun _ _ hs hl => hl.keeps_inv hs)
    (fun u hs _ => (SameRun.cmdOvr u).inv hs hs.1) (fun _ _ _ => beginCommand_keeps_inv) hinv h

end Sys2Proof.Machine
end

section
/-! PROOFS. A host write to a register: how its address reaches it, what the write stores in each kind of register, and what the
registers read afterwards (10_state R20 to R40). -/

namespace Sys2Proof.Machine

/-! ## The address of a register (10_state R20, 20_memory R60) -/

/-- REG_BASE ends in eight 0 bits, and the register's offset fills them. -/
theorem regAddr_eq_append (cfg : Config) (reg : Reg) : regAddr cfg reg = cfg.regPage ++ reg.offset := by
  have hoff : reg.offset.zeroExtend 32 = (0 : BitVec 24) ++ reg.offset := by cases reg <;> rfl
  rw [regAddr, hoff]
  exact BitVec.append_zero_add_zero_append

theorem windowOffset_regAddr (cfg : Config) (reg : Reg) : windowOffset cfg (regAddr cfg reg) = some reg.offset := by
  rw [regAddr_eq_append, windowOffset, BitVec.extractLsb'_append_eq_left, BitVec.extractLsb'_append_eq_right, if_pos rfl]

theorem Reg.atOffset_offset (reg : Reg) : Reg.atOffset reg.offset = some reg := by
  cases reg <;> rfl

theorem Reg.offset_aligned (reg : Reg) : reg.offset.toNat % 4 = 0 := by
  cases reg <;> rfl

/-- A word written at the offset of a register other than CMD lands in that register, and the block runs on. -/
theorem hostWrite_offset {reg : Reg} (h : reg ≠ .cmd) (w : Word) (s : State) :
    hostWrite reg.offset (bytesOfWord w) s = runOn (hostWriteReg reg w s) := by
  simp only [hostWrite, bytesOfWord, Reg.offset_aligned, Reg.atOffset_offset, wordOfBytes_lanes, if_true]

/-- A step whose next move is a write to a register other than CMD. -/
theorem step_regWrite {s : State} {d : Nat} {reg : Reg} {w : Word} {rest : List Pending} (h : reg ≠ .cmd)
    (hi : s.inbox = { after := d, move := .write (regAddr s.cfg reg) (bytesOfWord w) } :: rest) :
    step s = runOn (hostWriteReg reg w { s with inbox := rest }) := by
  simp only [step, nextMove, hi, hostMove, windowOffset_regAddr, hostWrite_offset h]

/-! ## What a write does, by the kind of register -/

/-- A write to CTRL with bit 0 clear: IRQ_EN at any time, TRIG_SRC only while no command runs (10_state R22, R40). -/
theorem hostWriteReg_ctrl {w : Word} (h : w.getLsbD 0 = false) (s : State) :
    hostWriteReg .ctrl w s = { s with regs := { s.regs with
      irqEn := w.getLsbD 1
      trigSrc := if s.busy then s.regs.trigSrc else w.getLsbD 2 } } :=
  if_neg (Bool.eq_false_iff.mp h)

/-- A write to CTRL with bit 0 set is the soft reset (70_reset_and_hazards R402). -/
theorem hostWriteReg_softReset {w : Word} (h : w.getLsbD 0 = true) (s : State) : hostWriteReg .ctrl w s = resetBlock s :=
  if_pos h

/-- A write to STATUS clears a W1C bit where it has a 1 (10_state R24). -/
theorem hostWriteReg_status (w : Word) (s : State) :
    hostWriteReg .status w s = { s with regs := { s.regs with
      done := if w.getLsbD 1 then false else s.regs.done
      cmdOvr := if w.getLsbD 2 then false else s.regs.cmdOvr } } := by
  unfold hostWriteReg Regs.acked
  cases w.getLsbD 1 <;> cases w.getLsbD 2 <;> simp

/-- A write to any other register stores its fields while no command runs (10_state R40). -/
theorem hostWriteReg_parameter {reg : Reg} (hctrl : reg ≠ .ctrl) (hstatus : reg ≠ .status) (w : Word) (s : State) :
    hostWriteReg reg w s = if s.busy then s else { s with regs := s.regs.setParameter reg w } := by
  unfold hostWriteReg
  split
  · exact absurd rfl hctrl
  · exact absurd rfl hstatus
  · rfl

/-- CMD, CTRL and STATUS are no parameter registers (10_state R40). -/
theorem ne_of_mem_parameterRegs {reg : Reg} (h : reg ∈ parameterRegs) : reg ≠ .cmd ∧ reg ≠ .ctrl ∧ reg ≠ .status := by
  refine ⟨?_, ?_, ?_⟩ <;> rintro rfl <;> exact absurd h (by decide)

/-! ## What the registers read after a write

A register's word is an append of fields of the written word and of reserved fields, which read 0. So it is the written word under
the append of the fields' masks. -/

/-- A stored field is masked with ones. -/
theorem masked_stored {k : Nat} (w : BitVec k) (o n : Nat) :
    w.extractLsb' o n = w.extractLsb' o n &&& BitVec.allOnes n :=
  BitVec.and_allOnes.symm

/-- A stored bit is masked with a one. -/
theorem masked_bit {k : Nat} (w : BitVec k) (o : Nat) :
    BitVec.ofBool (w.getLsbD o) = w.extractLsb' o 1 &&& BitVec.allOnes 1 := by
  rw [← masked_stored]
  ext i hi
  simp [Nat.lt_one_iff.mp hi]

/-- A reserved field is masked with zeros (10_state R37). -/
theorem masked_reserved {k : Nat} (w : BitVec k) (o n : Nat) : (0 : BitVec n) = w.extractLsb' o n &&& 0 :=
  BitVec.and_zero.symm

/-- Two fields side by side, each under its mask, are one field under both masks. -/
theorem masked_append {k p n o m : Nat} {w : BitVec k} {x a : BitVec n} {y b : BitVec m}
    (hx : x = w.extractLsb' p n &&& a) (hy : y = w.extractLsb' o m &&& b) (h : p = o + m) :
    x ++ y = w.extractLsb' o (n + m) &&& (a ++ b) := by
  rw [hx, hy, ← BitVec.and_append, BitVec.extractLsb'_append_extractLsb'_eq_extractLsb' h]

/-- The field of all bits is the word itself. -/
theorem masked_whole {k : Nat} {w x m : BitVec k} (h : x = w.extractLsb' 0 k &&& m) : x = w &&& m := by
  rwa [BitVec.extractLsb'_eq_self] at h

/-- A parameter register reads what was written less its reserved bits (10_state R25 to R33). -/
theorem Reg.value_setParameter {reg : Reg} (h : reg ∈ parameterRegs) (r : Regs) (w : Word) (busy : Bool) :
    Reg.value (r.setParameter reg w) busy reg = w &&& storedBits reg := by
  cases reg with
  | srcAddr | dstAddr | angle => exact BitVec.and_allOnes.symm
  | dims | trigQ => exact masked_whole (masked_append (masked_stored w 16 16) (masked_stored w 0 16) rfl)
  | channels => exact masked_whole (masked_append (masked_reserved w 8 24) (masked_stored w 0 8) rfl)
  | sigmaCfg =>
    have hupper := masked_append (masked_stored w 16 16) (masked_reserved w 8 8) rfl
    exact masked_whole (masked_append hupper (masked_stored w 0 8) rfl)
  | blSamples => exact (wordOfBytes_lanes w).trans BitVec.and_allOnes.symm
  | blFrac =>
    have hupper := masked_append (masked_reserved w 16 16) (masked_stored w 8 8) rfl
    exact masked_whole (masked_append hupper (masked_stored w 0 8) rfl)
  | id | ctrl | cmd | status | blResult | wcount | errInfo => exact absurd h (by decide)

/-- CTRL reads IRQ_EN and TRIG_SRC as written, and its other bits as 0 (10_state R22). -/
theorem Reg.value_ctrl_written (r : Regs) (w : Word) (busy : Bool) :
    Reg.value { r with irqEn := w.getLsbD 1, trigSrc := w.getLsbD 2 } busy .ctrl = w &&& storedBits .ctrl := by
  have hupper := masked_append (masked_append (masked_reserved w 3 29) (masked_bit w 2) rfl) (masked_bit w 1) rfl
  exact masked_whole (masked_append hupper (masked_reserved w 0 1) rfl)

/-- Every other register reads as before: no field stands in two registers. -/
theorem Reg.value_setParameter_other {reg other : Reg} (h : other ≠ reg) (r : Regs) (w : Word) (busy : Bool) :
    Reg.value (r.setParameter reg w) busy other = Reg.value r busy other := by
  cases reg <;> cases other <;> trivial

/-- The bits of CTRL stand in no other register. -/
theorem Reg.value_ctrl_other {other : Reg} (h : other ≠ .ctrl) (r : Regs) (irqEn trigSrc busy : Bool) :
    Reg.value { r with irqEn := irqEn, trigSrc := trigSrc } busy other = Reg.value r busy other := by
  cases other <;> trivial

/-- A read-only register stores nothing (10_state R21, R34 to R36). -/
theorem Regs.setParameter_readOnly {reg : Reg} (h : reg ∈ [Reg.id, .blResult, .wcount, .errInfo]) (r : Regs) (w : Word) :
    r.setParameter reg w = r := by
  fin_cases h <;> rfl

/-! ## The statements -/

/-- Settles O45: the block is idle, so the write stores the register's fields and nothing follows it. -/
theorem parameterWriteIsReadBack : Obligations.ParameterWriteIsReadBack := by
  intro s d reg w rest hb hreg hi
  have hidle : ∀ regs, runOn { s with inbox := rest, regs := regs } = .next { s with inbox := rest, regs := regs } :=
    fun _ => runOn_idle (s.phase_of_not_busy hb)
  have hbusy : ¬ ({ s with inbox := rest } : State).busy = true := Bool.eq_false_iff.mp hb
  rcases hreg with hreg | ⟨rfl, h0⟩
  · obtain ⟨hcmd, hctrl, hstatus⟩ := ne_of_mem_parameterRegs hreg
    refine ⟨s.regs.setParameter reg w, ?_, Reg.value_setParameter hreg _ _ _, fun _ h => Reg.value_setParameter_other h _ _ _⟩
    rw [step_regWrite hcmd hi, hostWriteReg_parameter hctrl hstatus, if_neg hbusy]
    exact hidle _
  · refine ⟨{ s.regs with irqEn := w.getLsbD 1, trigSrc := w.getLsbD 2 }, ?_, Reg.value_ctrl_written _ _ _,
      fun _ h => Reg.value_ctrl_other h _ _ _ _⟩
    rw [step_regWrite (by decide) hi, hostWriteReg_ctrl h0, if_neg hbusy]
    exact hidle _

/-- Settles O47: a busy block drops a parameter write, and takes IRQ_EN, the soft reset and the W1C bits. -/
theorem parametersStandWhileBusy : Obligations.ParametersStandWhileBusy := by
  intro s w hb
  refine ⟨fun reg hreg => ?_, fun h0 => ?_, fun h0 => ?_, fun h1 => ?_, fun h2 => ?_, hb⟩
  · obtain ⟨-, hctrl, hstatus⟩ := ne_of_mem_parameterRegs hreg
    rw [hostWriteReg_parameter hctrl hstatus, if_pos hb]
  · rw [hostWriteReg_ctrl h0, if_pos hb]
  · rw [hostWriteReg_softReset h0]
    exact ⟨rfl, rfl⟩
  · rw [hostWriteReg_status]
    exact if_pos h1
  · rw [hostWriteReg_status]
    exact if_pos h2

/-- Settles O48: the write reaches STATUS in every phase. -/
theorem statusBitsClearByWritingOne : Obligations.StatusBitsClearByWritingOne := by
  intro s d w rest hi
  rw [step_regWrite (by decide) hi, hostWriteReg_status]

/-- Settles O44: busy or not, a write to a read-only register leaves the state it lands in. -/
theorem readOnlyRegistersKeepTheirValue : Obligations.ReadOnlyRegistersKeepTheirValue := by
  intro s d reg w rest hreg hi
  obtain ⟨hcmd, hctrl, hstatus⟩ : reg ≠ .cmd ∧ reg ≠ .ctrl ∧ reg ≠ .status := by fin_cases hreg <;> decide
  rw [step_regWrite hcmd hi, hostWriteReg_parameter hctrl hstatus, Regs.setParameter_readOnly hreg, ite_self]

end Sys2Proof.Machine
end

section
/-! PROOFS. The host's side of the bus (20_memory): which address reaches the register window, what an access there does, what a
memory access does while the buffers of a command are open, and the refusal of a buffer on a device. -/

namespace Sys2Proof.Machine

/-! ## The bounds of the window (20_memory R60, R78) -/

/-- REG_BASE is 256 times its upper 24 bits (00_scope R9). -/
theorem Config.regBase_toNat (cfg : Config) : cfg.regBase.toNat = cfg.regPage.toNat * 256 := by
  rw [Config.regBase, BitVec.toNat_append, Nat.shiftLeft_eq]
  exact Nat.or_zero _

/-- A register's offset is added to REG_BASE without a carry out of its eight bits. -/
theorem regAddr_toNat (cfg : Config) (reg : Reg) : (regAddr cfg reg).toNat = cfg.regBase.toNat + reg.offset.toNat := by
  rw [regAddr_eq_append, Config.regBase_toNat, BitVec.toNat_append, ← Nat.shiftLeft_add_eq_or_of_lt reg.offset.isLt,
    Nat.shiftLeft_eq]

/-- An address outside the 256 bytes from REG_BASE has no offset in the window. -/
theorem windowOffset_eq_none {cfg : Config} {addr : Word}
    (h : ¬ (cfg.regBase.toNat ≤ addr.toNat ∧ addr.toNat < cfg.regBase.toNat + 256)) : windowOffset cfg addr = none := by
  refine if_neg fun hpage => h ?_
  have hdiv : addr.toNat / 256 = cfg.regPage.toNat := by
    have hlt := addr.isLt
    rw [← hpage, BitVec.extractLsb'_toNat, Nat.shiftRight_eq_div_pow, Nat.mod_eq_of_lt (by omega)]
  rw [Config.regBase_toNat]
  omega

/-! ## The next move of a step -/

/-- A step whose next move is a host move: the move lands in the state without it. -/
theorem step_move {s : State} {d : Nat} {m : Move} {rest : List Pending} (hi : s.inbox = { after := d, move := m } :: rest) :
    step s = hostMove m { s with inbox := rest } := by
  rw [step, nextMove, hi]

/-- Settles O42: an address in the window splits into REG_BASE's upper bits and an offset, and one outside it has no offset. -/
theorem windowLiesAtRegBase : Obligations.WindowLiesAtRegBase := by
  refine ⟨fun cfg reg => ⟨windowOffset_regAddr cfg reg, Reg.atOffset_offset reg, regAddr_toNat cfg reg⟩,
    fun s d addr data width rest hout => ⟨fun hi => ?_, fun hi => ?_⟩⟩
  · simp only [step_move hi, hostMove, windowOffset_eq_none hout]
  · simp only [step_move hi, hostMove, windowOffset_eq_none hout]

/-! ## Undefined accesses (20_memory R61, 10_state R37) -/

/-- No register lies past ERR_INFO. -/
theorem Reg.atOffset_reserved {off : BitVec 8} (h : 0x40 ≤ off.toNat) : Reg.atOffset off = none := by
  unfold Reg.atOffset
  split
  case h_17 => rfl
  all_goals omega

/-- A write that is not an aligned 32-bit one, or that reaches no register, is ignored. -/
theorem hostWrite_undefined {off : BitVec 8} {data : List Byte}
    (h : data.length ≠ 4 ∨ off.toNat % 4 ≠ 0 ∨ Reg.atOffset off = none) (s : State) : hostWrite off data s = runOn s := by
  unfold hostWrite
  split
  · split
    · have hnone : Reg.atOffset off = none := by simpa [‹off.toNat % 4 = 0›] using h
      rw [hnone]
    · rfl
  · rfl

/-- A read that is not an aligned 32-bit one, or that reaches no register, answers 0 in every byte. -/
theorem hostRead_undefined {off : BitVec 8} {width : Nat}
    (h : width ≠ 4 ∨ off.toNat % 4 ≠ 0 ∨ Reg.atOffset off = none) (s : State) :
    hostRead off width s = (List.replicate width 0, s) := by
  unfold hostRead
  by_cases hdef : width = 4 ∧ off.toNat % 4 = 0
  · have hnone : Reg.atOffset off = none := by simpa [hdef] using h
    rw [if_pos hdef, hnone, hdef.1]
    rfl
  · rw [if_neg hdef]

/-- Settles O43: an offset from 0x40 on reaches no register, so the access is undefined whichever of the three holds. -/
theorem undefinedAccessIsIgnored : Obligations.UndefinedAccessIsIgnored := fun s _ _ _ =>
  ⟨fun h => hostWrite_undefined (h.imp_right (.imp_right Reg.atOffset_reserved)) s,
    fun h => hostRead_undefined (h.imp_right (.imp_right Reg.atOffset_reserved)) s⟩

/-! ## Accesses at a register's address -/

/-- A word written at the offset of CMD is the command it decodes to (30_encoding R83). -/
theorem hostWrite_cmd (w : Word) (s : State) : hostWrite Reg.cmd.offset (bytesOfWord w) s = exec (decodeWord w) s := by
  simp only [hostWrite, bytesOfWord, Reg.offset_aligned, Reg.atOffset_offset, decode, wordOfBytes_lanes, if_true]

/-- Settles O6: the placed word lands at CMD, at once, in the state before it was placed. -/
theorem stepRunsPlacedWord : Obligations.StepRunsPlacedWord := by
  intro s w
  have hw : BitVec.ofNat 32 (w % 2 ^ 32) = BitVec.ofNat 32 w := BitVec.eq_of_toNat_eq (by simp)
  have hi : (s.withFetchWord 32 w).inbox =
      { after := 0, move := .write (regAddr s.cfg .cmd) (bytesOfWord (BitVec.ofNat 32 w)) } :: s.inbox := by rw [← hw]; rfl
  rw [step_move hi]
  calc hostMove (.write (regAddr s.cfg .cmd) (bytesOfWord (BitVec.ofNat 32 w))) s
      = hostWrite Reg.cmd.offset (bytesOfWord (BitVec.ofNat 32 w)) s := by simp only [hostMove, windowOffset_regAddr]
    _ = exec (decodeWord (BitVec.ofNat 32 w)) s := hostWrite_cmd _ _

/-- An aligned 32-bit read at a register's offset is a read of the register (20_memory R61). -/
theorem hostRead_offset (reg : Reg) (s : State) :
    hostRead reg.offset 4 s = (bytesOfWord (hostReadReg reg s).1, (hostReadReg reg s).2) := by
  rw [hostRead, if_pos ⟨rfl, reg.offset_aligned⟩, Reg.atOffset_offset]

/-- A step whose next move is an aligned 32-bit read of a register. -/
theorem step_regRead {s : State} {d : Nat} {reg : Reg} {rest : List Pending}
    (hi : s.inbox = { after := d, move := .read (regAddr s.cfg reg) 4 } :: rest) :
    step s = runOn ((hostReadReg reg { s with inbox := rest }).2.answer
      (.window (bytesOfWord (hostReadReg reg { s with inbox := rest }).1))) := by
  simp only [step_move hi, hostMove, windowOffset_regAddr, hostRead_offset]

/-- The pending moves have no part in what a read races with. -/
theorem State.racingWord_inbox (s : State) (rest : List Pending) (reg : Reg) :
    ({ s with inbox := rest } : State).racingWord reg = s.racingWord reg := rfl

/-- In an idle block nothing races with a read (70 R418). -/
theorem State.racingWord_idle {s : State} (h : s.busy = false) (reg : Reg) : s.racingWord reg = none := by
  rw [State.racingWord, s.phase_of_not_busy h]

/-- Only TRIG_Q and BL_RESULT change during a run in a way a read can race with (70 R418, log 14). -/
theorem State.racingWord_other {reg : Reg} (hq : reg ≠ .trigQ) (hb : reg ≠ .blResult) (s : State) :
    s.racingWord reg = none := by
  unfold State.racingWord
  split
  · rfl
  · exact if_neg hq
  · exact if_neg hb
  · exact if_neg hq

/-- A read that races with nothing answers the register's word, and one of STATUS with DONE = 1 observes the end. -/
theorem hostReadReg_of_not_racing {reg : Reg} {s : State} (h : s.racingWord reg = none) :
    hostReadReg reg s = (Reg.value s.regs s.busy reg,
      { s with watch := if reg = .status ∧ s.regs.done = true then [] else s.watch }) := by
  rw [hostReadReg, h]
  by_cases hd : reg = .status ∧ s.regs.done = true
  · simp only [if_pos hd, State.observed]
  · simp only [if_neg hd]

/-- A read that races with the running command answers one of the two words, by a free value (log 3). -/
theorem hostReadReg_of_racing {reg : Reg} {s : State} {w : Word} (h : s.racingWord reg = some w) :
    ∃ v, (v = w ∨ v = Reg.value s.regs s.busy reg) ∧ hostReadReg reg s = (v, { s with draws := s.draws + 1 }) := by
  rcases hostReadReg_cases reg s with ⟨hnone, -⟩ | ⟨w', v, hw', hv, hread⟩
  · simp [h] at hnone
  · obtain rfl : w = w' := Option.some.inj (h.symm.trans hw')
    exact ⟨v, hv, hread⟩

/-- Settles O46: a read answers the register's word, or races with the running command for it. -/
theorem registerReadAnswersItsWord : Obligations.RegisterReadAnswersItsWord := by
  intro s d reg rest hi
  refine ⟨fun hb => State.racingWord_idle hb reg, fun hq hb => State.racingWord_other hq hb s, fun hnone => ?_,
    fun w hw => ?_⟩
  · rw [step_regRead hi, hostReadReg_of_not_racing ((s.racingWord_inbox rest reg).trans hnone)]
    rfl
  · obtain ⟨v, hv, hread⟩ := hostReadReg_of_racing ((s.racingWord_inbox rest reg).trans hw)
    exact ⟨v, hv, by rw [step_regRead hi, hread]; rfl⟩

/-! ## Memory accesses while buffers are open (20_memory R71) -/

/-- The new value at a sample's output address is the sample's. -/
theorem Job.newValueAt_outAddr {j : Job} {r c ch : Nat} (h : j.hasSample r c ch) :
    j.newValueAt (j.outAddr r c ch) = j.newValue r c ch := by
  obtain ⟨-, hc, hch⟩ := h
  rw [Job.newValueAt, Job.sampleAt_outAddr hc hch]

/-- The bytes the open commands admit at an address, by the samples of their write sets. -/
theorem mem_openBytes_iff_sample {s : State} {a : Nat} {v : Byte} :
    v ∈ s.openBytes a ↔ ∃ j ∈ s.watch, ∃ r c ch, (r, c, ch) ∈ j.writeSet ∧ a = j.outAddr r c ch ∧
      (v = j.mem0.read a ∨ v = j.newValue r c ch) := by
  rw [mem_openBytes]
  refine exists_congr fun j => and_congr_right fun _ => ?_
  rw [Job.writesAddr_iff]
  constructor
  · rintro ⟨⟨r, c, ch, hm, rfl⟩, hv⟩
    rw [Job.newValueAt_outAddr (Job.mem_writeSet.mp hm).1] at hv
    exact ⟨r, c, ch, hm, rfl, hv⟩
  · rintro ⟨r, c, ch, hm, rfl, hv⟩
    rw [Job.newValueAt_outAddr (Job.mem_writeSet.mp hm).1]
    exact ⟨⟨r, c, ch, hm, rfl⟩, hv⟩

/-- Settles O52: a read answers one of the bytes the open commands admit, and memory's where they admit none. -/
theorem outputByteReadsOldOrNew : Obligations.OutputByteReadsOldOrNew := by
  intro s addr
  rcases hostMemRead_cases addr s with ⟨hnil, hread⟩ | ⟨v, hv, hread⟩
  · refine ⟨fun ⟨j, hj, r, c, ch, hm, ha⟩ => ?_, fun _ => hread⟩
    have hmem := mem_openBytes_iff_sample.mpr ⟨j, hj, r, c, ch, hm, ha, .inl rfl⟩
    rw [hnil] at hmem
    exact absurd hmem List.not_mem_nil
  · obtain ⟨j, hj, r, c, ch, hm, ha, hold⟩ := mem_openBytes_iff_sample.mp hv
    rw [hread]
    exact ⟨fun _ => ⟨⟨j, hj, r, c, ch, hm, ha, hold⟩, rfl⟩, fun hno => absurd ha (hno j hj r c ch hm)⟩

/-- An address lies in an open buffer where it lies in the input or the output of an open command. -/
theorem State.inOpenBuffer_iff {s : State} {a : Nat} :
    s.inOpenBuffer a = true ↔ ∃ j ∈ s.watch, j.inInput a = true ∨ j.inOutput a = true := by
  simp only [State.inOpenBuffer, List.any_eq_true, Bool.or_eq_true]

/-- Settles O53: the host's write is refused in an open buffer, and stores its byte elsewhere. -/
theorem openBuffersAreNotWritten : Obligations.OpenBuffersAreNotWritten := by
  intro s d addr v rest hi hdev
  have hstep : step s = if s.inOpenBuffer addr.toNat then .refused .hostWroteBuffer
      else runOn { s with inbox := rest, mem := s.mem.write addr.toNat v } :=
    (step_move hi).trans (if_neg (Bool.eq_false_iff.mp hdev))
  rw [hstep]
  refine ⟨fun hopen => if_pos (State.inOpenBuffer_iff.mpr hopen), fun hclosed => if_neg fun hopen => ?_⟩
  obtain ⟨j, hj, hin⟩ := State.inOpenBuffer_iff.mp hopen
  simp [hclosed j hj] at hin

/-! ## A buffer on a device (20_memory R65) -/

/-- A legal configuration passes every check (60_exceptions R305). -/
theorem checkImage_of_imageLegal {rotation : Bool} {r : Regs} (h : r.imageLegal)
    (hq : rotation = true → r.trigSrc = true → coefficientLegal r.cq ∧ coefficientLegal r.sq) :
    checkImage rotation r = none := by
  obtain ⟨hc, hw, hh, hsrc, hdst, hapart⟩ := h
  unfold checkImage
  rw [if_neg (not_not.mpr hc), if_neg (not_or.mpr ⟨hw, hh⟩), if_neg fun ⟨h1, h2, h3⟩ => h3 (hq h1 h2),
    if_neg (by unfold wraps; omega), if_neg (by unfold overlap; omega)]

/-- A command whose start is refused is refused at the write to CMD, before any pending move lands (log 16). -/
theorem exec_refused {i : Instr} {s : State} {r : Refusal} (hb : s.busy = false)
    (h : beginCommand i { s with regs := s.regs.started i.word } = .refused r) : exec i s = .refused r := by
  rw [exec_eq_issue, issue_idle hb, h]

/-- The start of an image command with a buffer on a device is refused. -/
theorem startImage_onDevice {k : Kernel} {s : State} (h : (s.jobOf k).onDevice s.cfg = true) :
    startImage k s = .refused .bufferOnDevice :=
  if_pos h

/-- SIGMA, once its checks pass, starts its image run, which refuses a buffer on a device. -/
theorem beginSigma_onDevice {s : State} (hchecks : checkImage false s.regs = none) (hdev : s.sigmaJob.onDevice s.cfg = true) :
    beginSigma s = .refused .bufferOnDevice := by
  rw [beginSigma, hchecks]
  exact startImage_onDevice hdev

/-- ROTFX, once its checks pass, starts its image run, with the coefficients of TRIG_Q or of the LUT; the run refuses a buffer on a
device with either. -/
theorem beginRotfx_onDevice {s : State} (hchecks : checkImage true s.regs = none) (hdev : s.rotfxJob.onDevice s.cfg = true) :
    beginRotfx s = .refused .bufferOnDevice := by
  unfold State.rotfxJob State.coefficients at hdev
  rw [beginRotfx, hchecks]
  by_cases ht : s.regs.trigSrc = true
  · simp only [if_pos ht] at hdev ⊢
    exact startImage_onDevice hdev
  · simp only [if_neg ht] at hdev ⊢
    exact startImage_onDevice hdev

/-- Settles O13: the checks pass, so the command comes to the start of its run, which refuses it. -/
theorem bufferOnDeviceIsRefused : Obligations.BufferOnDeviceIsRefused := by
  intro s hb hlegal
  refine ⟨fun hdev => exec_refused hb ?_, fun hdev hq => exec_refused hb ?_⟩
  · exact beginSigma_onDevice (s := { s with regs := s.regs.started 1 }) (checkImage_of_imageLegal hlegal (by simp)) hdev
  · exact beginRotfx_onDevice (s := { s with regs := s.regs.started 2 }) (checkImage_of_imageLegal hlegal fun _ => hq) hdev

end Sys2Proof.Machine
end

section
/-! PROOFS. Decode and encode agree (30_encoding R80 to R86), and how a reserved word ends (R81). Every word is the word of a
well-formed command, and such a word decodes to its command: both directions, and Decode by the two fields, follow. -/

namespace Sys2Proof

/-! ## The two fields of a command word (30_encoding R80) -/

/-- A word is its RSVD field above its OP field. -/
theorem rsvd_append_op (w : Word) : w.extractLsb' 4 28 ++ w.extractLsb' 0 4 = w :=
  (BitVec.extractLsb'_append_extractLsb'_eq_extractLsb' rfl).trans BitVec.extractLsb'_eq_self

/-- RSVD is the quotient of the word by 16. -/
theorem rsvd_toNat (w : Word) : (w.extractLsb' 4 28).toNat = w.toNat / 16 := by
  rw [BitVec.extractLsb'_toNat, Nat.shiftRight_eq_div_pow]
  exact Nat.mod_eq_of_lt (by have := w.isLt; omega)

/-- OP is the remainder of the word by 16. -/
theorem op_toNat (w : Word) : (w.extractLsb' 0 4).toNat = w.toNat % 16 := by
  rw [BitVec.extractLsb'_toNat, Nat.shiftRight_zero]

/-! ## Words and well-formed commands -/

/-- The four OP values that select a command (30_encoding R82). -/
theorem legalOp_iff {op : BitVec 4} : legalOp op = true ↔ op = 1 ∨ op = 2 ∨ op = 4 ∨ op = 5 := by
  simp [legalOp, or_assoc]

/-- A reserved term stands for a word where RSVD is not 0 or OP selects nothing (30_encoding R81, R85). -/
theorem Instr.reserved_wellFormed_iff {op : BitVec 4} {rsvd : BitVec 28} :
    (Instr.reserved op rsvd).wellFormed = true ↔ rsvd ≠ 0 ∨ legalOp op = false := by
  simp [Instr.wellFormed]

/-- The fields of a well-formed reserved term decode to it (30_encoding R83). -/
theorem decodeWord_append {op : BitVec 4} {rsvd : BitVec 28} (h : (Instr.reserved op rsvd).wellFormed = true) :
    decodeWord (rsvd ++ op) = .reserved op rsvd := by
  unfold decodeWord
  rw [BitVec.extractLsb'_append_eq_left, BitVec.extractLsb'_append_eq_right]
  by_cases hr : rsvd = 0
  · have hop : legalOp op = false := (Instr.reserved_wellFormed_iff.mp h).resolve_left (not_not.mpr hr)
    rw [← Bool.not_eq_true, legalOp_iff] at hop
    push Not at hop
    obtain ⟨h1, h2, h4, h5⟩ := hop
    rw [if_neg (not_not.mpr hr), if_neg h1, if_neg h2, if_neg h4, if_neg h5]
  · exact if_pos hr

/-- The word of a well-formed command decodes to it. -/
theorem decodeWord_word {i : Instr} (h : i.wellFormed = true) : decodeWord i.word = i := by
  cases i with
  | sigma => rfl
  | rotfx => rfl
  | trig => rfl
  | bilerp => rfl
  | reserved op rsvd => exact decodeWord_append h

/-- Every word is the word of a well-formed command: of one of the four where RSVD is 0 and OP selects it, else of the reserved
term with its fields. -/
theorem exists_wellFormed_word (w : Word) : ∃ i : Instr, i.wellFormed = true ∧ i.word = w := by
  by_cases h : (Instr.reserved (w.extractLsb' 0 4) (w.extractLsb' 4 28)).wellFormed = true
  · exact ⟨_, h, rsvd_append_op w⟩
  · rw [Instr.reserved_wellFormed_iff, not_or, not_not, Bool.not_eq_false, legalOp_iff] at h
    obtain ⟨hr, hop⟩ := h
    rw [← rsvd_append_op w, hr]
    rcases hop with hop | hop | hop | hop <;> rw [hop]
    · exact ⟨.sigma, rfl, rfl⟩
    · exact ⟨.rotfx, rfl, rfl⟩
    · exact ⟨.trig, rfl, rfl⟩
    · exact ⟨.bilerp, rfl, rfl⟩

/-- Four bytes are the lanes of the word they make (20_memory R61). -/
theorem bytesOfWord_wordOfBytes (b0 b1 b2 b3 : Byte) : bytesOfWord (wordOfBytes b0 b1 b2 b3) = [b0, b1, b2, b3] := by
  have h0 : (wordOfBytes b0 b1 b2 b3).extractLsb' 0 8 = b0 := BitVec.extractLsb'_append_eq_right
  have h1 : (wordOfBytes b0 b1 b2 b3).extractLsb' 8 8 = b1 :=
    (BitVec.extractLsb'_append_eq_of_le (by decide)).trans BitVec.extractLsb'_append_eq_right
  have h2 : (wordOfBytes b0 b1 b2 b3).extractLsb' 16 8 = b2 :=
    (BitVec.extractLsb'_append_eq_of_le (by decide)).trans <|
      (BitVec.extractLsb'_append_eq_of_le (by decide)).trans BitVec.extractLsb'_append_eq_right
  have h3 : (wordOfBytes b0 b1 b2 b3).extractLsb' 24 8 = b3 :=
    (BitVec.extractLsb'_append_eq_of_le (by decide)).trans <|
      (BitVec.extractLsb'_append_eq_of_le (by decide)).trans BitVec.extractLsb'_append_eq_left
  rw [bytesOfWord, h0, h1, h2, h3]

/-- Settles O1: the encoded bytes are the lanes of the command's word, which decodes to the command. -/
theorem decodeGivesBackEncoded : Obligations.DecodeGivesBackEncoded := by
  intro i rest hi
  obtain ⟨b0, b1, b2, b3, hbytes, hword⟩ := Laws.EncodesToWord.of_word i
  calc decode (encode i ++ rest) = .ok (decodeWord (wordOfBytes b0 b1 b2 b3), rest) := by rw [hbytes]; rfl
    _ = .ok (i, rest) := by rw [hword, decodeWord_word hi]

/-- Settles O2: the word the bytes make is the word of a well-formed command, so it decodes to that command. -/
theorem everyWordDecodesToItsCommand : Obligations.EveryWordDecodesToItsCommand := by
  intro b0 b1 b2 b3 rest
  obtain ⟨i, hi, hword⟩ := exists_wellFormed_word (wordOfBytes b0 b1 b2 b3)
  refine ⟨i, ?_, hi, ?_⟩
  · rw [decode, ← hword, decodeWord_word hi]
  · rw [encode, hword, bytesOfWord_wordOfBytes]

/-- Settles O3: the table's words are those of its commands, and the other four are reserved by RSVD or by OP. -/
theorem tableWordsDecode : Obligations.TableWordsDecode :=
  ⟨decodeWord_word (i := .sigma) rfl, decodeWord_word (i := .rotfx) rfl, decodeWord_word (i := .trig) rfl,
    decodeWord_word (i := .bilerp) rfl, decodeWord_word (i := .reserved 0 0) rfl, decodeWord_word (i := .reserved 3 0) rfl,
    decodeWord_word (i := .reserved 15 0) rfl, decodeWord_word (i := .reserved 1 1) rfl⟩

/-! ## Decode by the fields as numbers (30_encoding R83) -/

/-- A word whose RSVD is not 0, or whose OP selects nothing, decodes to a reserved word. -/
theorem decodeWord_reserved {w : Word} (h : w.toNat / 16 ≠ 0 ∨ w.toNat % 16 ∉ [1, 2, 4, 5]) :
    ∃ op rsvd, decodeWord w = .reserved op rsvd := by
  have hwf : (Instr.reserved (w.extractLsb' 0 4) (w.extractLsb' 4 28)).wellFormed = true := by
    rw [Instr.reserved_wellFormed_iff, ← Bool.not_eq_true, legalOp_iff]
    refine h.imp (fun hr h0 => hr ?_) fun hop hlegal => hop ?_
    · rw [← rsvd_toNat, h0]; rfl
    · rw [← op_toNat]
      rcases hlegal with hk | hk | hk | hk <;> rw [hk] <;> decide
  exact ⟨_, _, by simpa only [rsvd_append_op] using decodeWord_append hwf⟩

/-- A word with RSVD 0 whose OP is the number of a command's word decodes to that command. -/
theorem decodeWord_of_op {w : Word} {i : Instr} (hi : i.wellFormed = true) (hr : w.toNat / 16 = 0)
    (hop : w.toNat % 16 = i.word.toNat) : decodeWord w = i := by
  have hw : w = i.word := BitVec.eq_of_toNat_eq (by omega)
  rw [hw, decodeWord_word hi]

/-- Settles O4: RSVD not 0, the four OP values with RSVD 0, and the OP values that select nothing. -/
theorem decodeFollowsFields : Obligations.DecodeFollowsFields := fun _ =>
  ⟨fun hr => decodeWord_reserved (.inl hr), fun hr =>
    ⟨decodeWord_of_op (i := .sigma) rfl hr, decodeWord_of_op (i := .rotfx) rfl hr, decodeWord_of_op (i := .trig) rfl hr,
      decodeWord_of_op (i := .bilerp) rfl hr, fun hop => decodeWord_reserved (.inr hop)⟩⟩

end Sys2Proof

namespace Sys2Proof.Machine

/-! ## The end at a check (60_exceptions R311) -/

/-- A command that ends at its check leaves an idle block, so nothing follows it: CMD holds its word, the outcome registers tell
the end, and everything else stands (60_exceptions R308, R311). -/
theorem exec_endAtCheck {i : Instr} {s : State} {code : ErrCode} (hb : s.busy = false)
    (h : beginCommand i { s with regs := s.regs.started i.word } =
      .next ({ s with regs := s.regs.started i.word }.endAtCheck code)) :
    exec i s = .next { s with regs := { s.regs with
      cmd := i.word, done := true, err := code, wcount := 0, errInfo := 0 } } := by
  rw [exec_eq_issue, issue_idle hb, h]
  exact runOn_idle (s.phase_of_not_busy hb)

/-- Settles O10: the start of a reserved word is its end with ERR_ILLEGAL_OP. -/
theorem reservedWordEndsIllegal : Obligations.ReservedWordEndsIllegal :=
  fun op rsvd _ hb => exec_endAtCheck (i := .reserved op rsvd) hb rfl

end Sys2Proof.Machine
end

section
/-! PROOFS. The histogram window on a bus that answers every access, and its size (40_histogram_window R105, R107). -/

namespace Sys2Proof.Machine

/-! ## Which reads of the window work can fail -/

/-- The address is that of a sample of the image, and the bus answers its read with an error (60_exceptions R313). -/
def Job.FailedRead (j : Job) (cfg : Config) (a : Nat) : Prop :=
  ∃ r c ch, j.hasSample r c ch ∧ j.inAddr r c ch = a ∧ cfg.busErrAt a = true

/-- Every sample of a list is one of the image. -/
def Job.hasSamples (j : Job) (l : List Sample) : Prop :=
  ∀ q ∈ l, j.hasSample q.1 q.2.1 q.2.2

/-- A read that fails reports its own address. -/
theorem readSample_error {cfg : Config} {j : Job} {r c ch : Nat} {e : RunError} (h : readSample cfg j r c ch = .error e) :
    e = .bus (j.inAddr r c ch) ∧ cfg.busErrAt (j.inAddr r c ch) = true := by
  rcases readSample_cases cfg j r c ch with ⟨-, hr⟩ | ⟨hb, hr⟩ <;> rw [hr] at h <;> cases h
  exact ⟨rfl, hb⟩

/-- A read of a sample of the image that fails is a failed read. -/
theorem readSample_error_bus {cfg : Config} {j : Job} {r c ch a : Nat} (hs : j.hasSample r c ch)
    (h : readSample cfg j r c ch = .error (.bus a)) : j.FailedRead cfg a := by
  obtain ⟨heq, hb⟩ := readSample_error h
  cases heq
  exact ⟨r, c, ch, hs, rfl, hb⟩

/-- A decrement reports nothing but ERR_INVARIANT (40_histogram_window R104). -/
theorem Hist.dec_error {h : Hist} {ch : Nat} {x : Byte} {e : RunError} (he : h.dec ch x = .error e) :
    e = .invariant ch x := by
  unfold Hist.dec at he
  split at he <;> cases he
  rfl

/-- Counting samples of the image in fails on the bus only at one of them. -/
theorem addSamples_error_bus {cfg : Config} {j : Job} {l : List Sample} (hl : j.hasSamples l) {h : Hist} {a : Nat}
    (he : addSamples cfg j l h = .error (.bus a)) : j.FailedRead cfg a := by
  induction l generalizing h with
  | nil => cases he
  | cons q l ih =>
    obtain ⟨hq, hl⟩ := List.forall_mem_cons.mp hl
    rw [addSamples] at he
    split at he
    next hread =>
      cases he
      exact readSample_error_bus hq hread
    next => exact ih hl he

/-- Taking samples of the image out fails on the bus only at one of them. -/
theorem removeSamples_error_bus {cfg : Config} {j : Job} {l : List Sample} (hl : j.hasSamples l) {h : Hist} {a : Nat}
    (he : removeSamples cfg j l h = .error (.bus a)) : j.FailedRead cfg a := by
  induction l generalizing h with
  | nil => cases he
  | cons q l ih =>
    obtain ⟨hq, hl⟩ := List.forall_mem_cons.mp hl
    rw [removeSamples] at he
    split at he
    next hread =>
      cases he
      exact readSample_error_bus hq hread
    next =>
      split at he
      next hdec =>
        cases he
        cases Hist.dec_error hdec
      next => exact ih hl he

/-- The rectangles of a row's band and columns of the image hold samples of the image. -/
theorem Job.hasSamples_band {j : Job} {k r c0 c1 : Nat} (hr : r < j.h) (hc : c1 < j.w) :
    j.hasSamples (rectangle (j.band k r).1 (j.band k r).2 c0 c1 j.c) := fun q hq => by
  obtain ⟨⟨-, hrow⟩, ⟨-, hcol⟩, hch⟩ := mem_rectangle.mp hq
  unfold Job.band at hrow
  exact ⟨by dsimp only at hrow; omega, Nat.lt_of_le_of_lt hcol hc, hch⟩

/-- What leaves and what enters a window are samples of the image. -/
theorem Job.hasSamples_slide {j : Job} (k : Nat) {r c : Nat} (hr : r < j.h) (hc : c < j.w) :
    j.hasSamples (j.leaving k r c) ∧ j.hasSamples (j.entering k r c) := by
  unfold Job.leaving Job.entering
  constructor <;> split
  · exact Job.hasSamples_band hr (by omega)
  · exact List.forall_mem_nil _
  · exact Job.hasSamples_band hr (by omega)
  · exact List.forall_mem_nil _

/-- HIST_INIT fails on the bus only at a sample of the image. -/
theorem histInit_error_bus {cfg : Config} {j : Job} {k : Nat} {p : Pos} {h : Hist} {a : Nat} (hr : p.row < j.h)
    (hw : 0 < j.w) (he : histInit cfg j k p h = .error (.bus a)) : j.FailedRead cfg a := by
  unfold histInit at he
  dsimp only at he
  split at he
  next hadd =>
    cases he
    exact addSamples_error_bus (Job.hasSamples_band hr (by omega)) hadd
  next => cases he

/-- HIST_SLIDE in the row's band fails on the bus only at a sample of the image. -/
theorem histSlide_error_bus {cfg : Config} {j : Job} {k : Nat} {p : Pos} {h : Hist} {a : Nat}
    (hb : (p.r0, p.r1) = j.band k p.row) (hr : p.row < j.h) (hc : p.col < j.w)
    (he : histSlide cfg j k p h = .error (.bus a)) : j.FailedRead cfg a := by
  obtain ⟨hout, hin⟩ := Job.hasSamples_slide k hr hc
  unfold histSlide at he
  rw [slideOut_eq hb hc] at he
  split at he
  next hremove =>
    cases he
    exact removeSamples_error_bus hout hremove
  next => exact addSamples_error_bus hin (slideIn_eq hb ▸ he)

/-! ## The direct count (40_histogram_window R105) -/

/-- A window contains its own pixel (40_histogram_window R107). -/
theorem Job.self_mem_window {j : Job} (k : Nat) {r c : Nat} (hr : r < j.h) (hc : c < j.w) : (r, c) ∈ j.window k r c := by
  rw [Job.mem_window]
  omega

/-- Where the bus answers every access of a SIGMA, none of the image's samples fails to be read: each stands in its own window. -/
theorem Job.busOk.not_failedRead {cfg : Config} {j : Job} {sigma k a : Nat} (hbus : j.busOk cfg)
    (hk : j.kernel = .sigma sigma k) : ¬ j.FailedRead cfg a := by
  rintro ⟨r, c, ch, hs, rfl, hb⟩
  have hmem : (r, c, ch) ∈ j.writeSet := Job.mem_writeSet.mpr ⟨hs, by rw [Job.writes, hk]⟩
  have hneeds : j.inAddr r c ch ∈ j.needs r c ch := by
    rw [Job.needs, hk]
    exact List.mem_map.mpr ⟨(r, c), Job.self_mem_window k hs.1 hs.2.1, rfl⟩
  rw [(hbus r c ch hmem).1 _ hneeds] at hb
  cases hb

/-- HIST_INIT and the slides hold the band of their row and the direct count of each pixel they reach. -/
theorem windowAfter_matches {cfg : Config} {j : Job} {sigma k r : Nat} (h0 : Hist) (hk : j.kernel = .sigma sigma k)
    (hl : j.Legal) (hbus : j.busOk cfg) (hr : r < j.h) (c : Nat) (hc : c < j.w) :
    ∃ h p, windowAfter cfg j k h0 r c = .ok (h, p) ∧ p.row = r ∧ (p.r0, p.r1) = j.band k r ∧ h.Matches j k r c := by
  induction c with
  | zero =>
    rw [windowAfter]
    rcases histInit_cases (cfg := cfg) hl k (p := ⟨r, 0, 0, 0, 0⟩) rfl h0 with ⟨h, he, hm⟩ | ⟨a, he⟩
    · exact ⟨h, _, he, rfl, rfl, hm⟩
    · exact absurd (histInit_error_bus hr hc he) (hbus.not_failedRead hk)
  | succ c ih =>
    obtain ⟨h, p, hprev, rfl, hb, hm⟩ := ih (by omega)
    simp only [windowAfter, hprev]
    rcases histSlide_cases (cfg := cfg) hl (p := { p with col := c + 1 }) hb rfl hc hm with ⟨h', he, hm'⟩ | ⟨a, he⟩
    · rw [he]
      exact ⟨h', _, rfl, rfl, hb, hm'⟩
    · exact absurd (histSlide_error_bus (p := { p with col := c + 1 }) hb hr hc he) (hbus.not_failedRead hk)

/-- Settles O23, by induction on the slides: each moves the direct count by one column, and no read of theirs fails. -/
theorem histogramIsTheDirectCount : Obligations.HistogramIsTheDirectCount := by
  intro cfg j h0 sigma k r c hk hl hbus hr hc
  obtain ⟨h, p, he, -, hb, hm⟩ := windowAfter_matches h0 hk hl hbus hr c hc
  exact ⟨h, p, he, hb, hm⟩

/-! ## The size of a window (40_histogram_window R107) -/

/-- The loop `a..b` has `b + 1 - a` turns (00_scope R15). -/
theorem length_upTo (a b : Nat) : (upTo a b).length = b + 1 - a := List.length_range'

/-- A window has the pixels of its rows and columns. -/
theorem Job.length_window (j : Job) (k r c : Nat) :
    (j.window k r c).length =
      ((j.band k r).2 + 1 - (j.band k r).1) * ((j.columns k c).2 + 1 - (j.columns k c).1) := by
  simp [Job.window, List.length_flatMap, length_upTo]

/-- The counters of a used channel sum to the size of the window they count: every sample has a bin in 0..255. -/
theorem Hist.Matches.total_eq_length {h : Hist} {j : Job} {k r c ch : Nat} (hm : h.Matches j k r c) (hl : j.Legal)
    (hch : ch < j.c) : h.total ch 0 255 = (j.window k r c).length := by
  have hall : (j.windowValues k r c ch).filter (fun x => decide (0 ≤ x ∧ x ≤ 255)) = j.windowValues k r c ch :=
    List.filter_eq_self.mpr fun x hx => decide_eq_true ⟨x.zero_le, Nat.le_of_lt_succ (j.windowValues_lt k r c ch x hx)⟩
  have hsum := hm.sum_bins hl hch 0 255 fun _ => 1
  rw [hall] at hsum
  simpa [Hist.total, Job.windowValues, Function.comp_def] using hsum

/-- Settles O24: the clipped rows and columns around a pixel of the image contain it, so their numbers are at least 1. -/
theorem countersSumToWindowSize : Obligations.CountersSumToWindowSize := by
  intro h j k r c ch hl ⟨hr, hc, hch⟩ hm
  have hself := Job.self_mem_window k hr hc
  have hrows : min (j.h - 1) (r + k) + 1 - (r - k) = min (j.h - 1) (r + k) - (r - k) + 1 := by omega
  have hcols : min (j.w - 1) (c + k) + 1 - (c - k) = min (j.w - 1) (c + k) - (c - k) + 1 := by omega
  refine ⟨hself, hm.total_eq_length hl hch, ?_, List.length_pos_of_mem hself⟩
  rw [Job.length_window, Job.band, Job.columns, hrows, hcols]

end Sys2Proof.Machine
end

section
/-! PROOFS. The errors a running command can end with: a run-time error of the bus, and no other (40_histogram_window R106). -/

namespace Sys2Proof.Machine

/-- The reported error is the one that was met or another the command can meet (60_exceptions R316). -/
theorem pickFault_mem (met : RunError) (others : List RunError) (draw : Nat) : pickFault met others draw ∈ met :: others := by
  unfold pickFault
  split
  · exact List.mem_cons_self
  · have hlt (more : List RunError) : Config.freeNat draw % (more.length + 1) < (met :: more).length :=
      Nat.mod_lt _ (Nat.succ_pos _)
    rw [List.getD_eq_getElem _ _ (hlt _)]
    exact List.cons_subset_cons _ (List.filter_subset_self _) (List.getElem_mem _)

/-- Where the error that was met is the bus's, so is the reported one: the others a command can meet are too. -/
theorem failRun_err {j : Job} {e : RunError} (he : e.code = .bus) (s : State) : (failRun j e s).regs.err = .bus := by
  change (pickFault e (j.busFaults s.cfg) s.draws).code = .bus
  rcases List.mem_cons.mp (pickFault_mem e (j.busFaults s.cfg) s.draws) with hmet | hother
  · rw [hmet, he]
  · obtain ⟨a, -, ha⟩ := List.mem_map.mp hother
    rw [← ha]
    rfl

@[simp] theorem advance_err (j : Job) (p : Pos) (s : State) : (advance j p s).regs.err = s.regs.err := by
  rw [advance_eq]

theorem readSample_error_code {cfg : Config} {j : Job} {r c ch : Nat} {e : RunError}
    (h : readSample cfg j r c ch = .error e) : e.code = .bus := by
  rw [(readSample_error h).1]
  rfl

theorem writeSample_error_code {cfg : Config} {j : Job} {r c ch : Nat} {v : Byte} {m : Memory} {e : RunError}
    (h : writeSample cfg j r c ch v m = .error e) : e.code = .bus := by
  unfold writeSample at h
  split at h <;> cases h
  rfl

theorem readNeighbours_error_code {cfg : Config} {j : Job} {ir ic ch : Nat} {e : RunError}
    (h : readNeighbours cfg j ir ic ch = .error e) : e.code = .bus := by
  unfold readNeighbours at h
  split at h <;> cases h <;> exact readSample_error_code ‹_›

/-- A sample of SIGMA from a window in order ends the command with ERR_BUS, or leaves ERR as it was. -/
theorem sigmaStep_err {j : Job} {sigma k : Nat} {p : Pos} {s : State} (hl : j.Legal) (hk : j.kernel = .sigma sigma k)
    (hc : p.col < j.w) (hwin : s.windowInOrder j p) :
    (sigmaStep j sigma k p s).regs.err = .bus ∨ (sigmaStep j sigma k p s).regs.err = s.regs.err := by
  unfold sigmaStep
  rcases prepareWindow_cases (cfg := s.cfg) hl hc ((State.windowInOrder_sigma hk).mp hwin) with ⟨h, he, -⟩ | ⟨a, he⟩ <;>
    rw [he] <;> dsimp only
  · split
    · exact .inl (failRun_err (readSample_error_code ‹_›) s)
    · split
      · exact .inl (failRun_err (writeSample_error_code ‹_›) s)
      · exact .inr (advance_err _ _ _)
  · exact .inl (failRun_err rfl s)

/-- A sample of ROTFX ends the command with ERR_BUS, or leaves ERR as it was. -/
theorem rotfxStep_err (j : Job) (cq sq : Int) (p : Pos) (s : State) :
    (rotfxStep j cq sq p s).regs.err = .bus ∨ (rotfxStep j cq sq p s).regs.err = s.regs.err := by
  unfold rotfxStep
  dsimp only
  split
  · split
    · exact .inl (failRun_err (readNeighbours_error_code ‹_›) s)
    · split
      · exact .inl (failRun_err (writeSample_error_code ‹_›) s)
      · exact .inr (advance_err _ _ _)
  · exact .inr rfl

/-- A step of a running command leaves ERR at 0 or ends the command with ERR_BUS. -/
theorem blockStep_err {s t : State} (hs : s.Inv) (hr : s.RunInv) (hb : s.busy = true) (h : blockStep s = .next t) :
    t.regs.err = .bus ∨ t.regs.err = .ok := by
  obtain ⟨-, herr, -⟩ := hs.2.1 hb
  rcases blockStep_cases h with ⟨-, rfl⟩ | ⟨-, rfl⟩ | ⟨-, rfl⟩ | ⟨j, p, hp, hi⟩
  · exact .inr herr
  · exact .inr rfl
  · exact .inr rfl
  · obtain ⟨hl, ⟨-, rfl⟩ | ⟨-, hc, -, ⟨sigma, k, hk, rfl⟩ | ⟨cq, sq, -, -, rfl⟩⟩⟩ := imageStep_cases hi
    · exact .inr rfl
    · rw [← herr]
      exact sigmaStep_err hl hk hc (hr.image hp).2
    · rw [← herr]
      exact rotfxStep_err j cq sq p s

/-- Settles O59: of the run-time errors only the bus's can end a command whose window is in order. -/
theorem invariantErrorNeverRaised : Obligations.InvariantErrorNeverRaised := by
  intro s t hs hr hb h
  rcases blockStep_err hs hr hb h with he | he <;> rw [he] <;> decide

end Sys2Proof.Machine
end

section
/-! PROOFS. SIGMA's arithmetic: the rounded mean, its bounds, and the closed form at the ends of its parameters (41_sigma_filter R122 to
R129). -/

namespace Sys2Proof.Machine

/-! ## The rounded mean (R123) -/

/-- Settles O26: of the two quotients only the sum's is not 0, and the remainders carry exactly when they reach `n`. -/
theorem roundedMeanRoundsHalfUp : Obligations.RoundedMeanRoundsHalfUp := by
  intro sum n hn
  have hhalf : n / 2 < n := Nat.div_lt_self hn (by decide)
  have hcarry : n ≤ sum % n + n / 2 ↔ n - n / 2 ≤ sum % n := by omega
  rw [roundedMean, Nat.add_div hn, Nat.div_eq_of_lt hhalf, Nat.mod_eq_of_lt hhalf, Nat.add_zero]
  simp only [hcarry]

/-- The rounded mean of numbers in `lo..hi` lies there too. -/
theorem roundedMean_bounds {lo hi sum n : Nat} (hn : 0 < n) (hlo : lo * n ≤ sum) (hhi : sum ≤ hi * n) :
    lo ≤ roundedMean sum n ∧ roundedMean sum n ≤ hi := by
  refine ⟨(Nat.le_div_iff_mul_le hn).mpr (by omega), Nat.le_of_lt_succ ((Nat.div_lt_iff_lt_mul hn).mpr ?_)⟩
  rw [Nat.succ_mul]
  omega

/-! ## SigmaValue lies between lo and hi (R125) -/

/-- Every bin of the range `lo..hi` has its value there. -/
theorem Hist.mem_bins_range {h : Hist} {ch lo hi : Nat} {b : Nat × Nat} (hb : b ∈ h.bins ch lo hi) : lo ≤ b.2 ∧ b.2 ≤ hi := by
  unfold Hist.bins at hb
  split at hb
  · exact of_decide_eq_true (List.mem_filter.mp hb).2
  · cases hb

/-- The sum over the bins `lo..hi` lies between `lo` and `hi` times their contents. -/
theorem Hist.weighted_bounds (h : Hist) (ch lo hi : Nat) :
    lo * h.total ch lo hi ≤ h.weighted ch lo hi ∧ h.weighted ch lo hi ≤ hi * h.total ch lo hi := by
  unfold Hist.total Hist.weighted
  rw [← List.sum_map_mul_left, ← List.sum_map_mul_left]
  exact ⟨List.sum_le_sum fun _ hb => Nat.mul_le_mul_right _ (Hist.mem_bins_range hb).1,
    List.sum_le_sum fun _ hb => Nat.mul_le_mul_right _ (Hist.mem_bins_range hb).2⟩

/-- Settles O27: a mean of bins of the range `lo..hi` lies in it, and so does the centre sample that stands for an empty range. -/
theorem sigmaValueStaysInItsWindow : Obligations.SigmaValueStaysInItsWindow := by
  intro h ch sigma v
  have hv : v.toNat < 256 := v.isLt
  unfold sigmaValue sigmaLo sigmaHi
  dsimp only
  split
  next hn =>
    obtain ⟨hlo, hhi⟩ := h.weighted_bounds ch (v.toNat - sigma) (min 255 (v.toNat + sigma))
    obtain ⟨h1, h2⟩ := roundedMean_bounds hn hlo hhi
    rw [BitVec.toNat_ofNat, Nat.mod_eq_of_lt (by omega)]
    exact ⟨h1, h2⟩
  next => omega

/-! ## The closed form (R126 to R129) -/

/-- Settles O25: the sums over the histogram's bins are sums over the window's samples. -/
theorem sigmaValueHasClosedForm : Obligations.SigmaValueHasClosedForm :=
  fun _ _ _ _ _ _ _ hl hs hm => sigmaValue_eq_sigmaResult hl hs hm

/-- The window of radius 0 is its own pixel (R128). -/
theorem Job.window_zero {j : Job} {r c : Nat} (hr : r < j.h) (hc : c < j.w) : j.window 0 r c = [(r, c)] := by
  have hrow : min (j.h - 1) r = r := by omega
  have hcol : min (j.w - 1) c = c := by omega
  simp [Job.window, Job.band, Job.columns, upTo, hrow, hcol]

/-- A window of one sample has it as its closed form (R128). -/
theorem Job.sigmaResult_of_window {j : Job} {sigma k r c ch : Nat} (hw : j.window k r c = [(r, c)]) :
    j.sigmaResult sigma k r c ch = j.input r c ch := by
  have hnear : j.nearSamples sigma k r c ch = [(j.input r c ch).toNat] := by
    have := (j.input r c ch).isLt
    unfold Job.nearSamples sigmaLo sigmaHi
    rw [hw]
    exact List.filter_eq_self.mpr (by simp; omega)
  simp [Job.sigmaResult, hnear, roundedMean]

/-- Settles O28: with sigma 0 the bounds of R125 meet at the centre sample, and the window of radius 0 has no other. -/
theorem sigmaIdentities : Obligations.SigmaIdentities := by
  refine ⟨fun h ch v => ?_, fun j sigma r c ch _ ⟨hr, hc, _⟩ => Job.sigmaResult_of_window (Job.window_zero hr hc)⟩
  obtain ⟨hlo, hhi⟩ := sigmaValueStaysInItsWindow h ch 0 v
  exact BitVec.eq_of_toNat_eq (by omega)

/-- With sigma 255 every sample of the window is near (R127). -/
theorem Job.nearSamples_255 (j : Job) (k r c ch : Nat) : j.nearSamples 255 k r c ch = j.windowValues k r c ch := by
  have hv : (j.input r c ch).toNat < 256 := (j.input r c ch).isLt
  refine List.filter_eq_self.mpr fun x hx => ?_
  have := j.windowValues_lt k r c ch x hx
  unfold sigmaLo sigmaHi
  exact decide_eq_true (by omega)

/-- Settles O29: with sigma 255 the near samples are the whole window's. -/
theorem sigmaBoxMean : Obligations.SigmaBoxMean := by
  intro j k r c ch _ _
  rw [Job.sigmaResult, Job.nearSamples_255, roundedMean, Job.windowValues, List.length_map]

end Sys2Proof.Machine
end

section
/-! PROOFS. The start checks of an image command in their order, and SIGMA's end at each (60_exceptions R302 to R308, R311). -/

namespace Sys2Proof.Machine

/-! ## The first check that fails (60_exceptions R305) -/

/-- The channel count is checked first. -/
theorem checkImage_channels (rotation : Bool) {r : Regs} (hc : ¬ (r.c = 1 ∨ r.c = 3)) :
    checkImage rotation r = some .channels :=
  if_pos hc

/-- Then the dimensions. -/
theorem checkImage_dim (rotation : Bool) {r : Regs} (hc : r.c = 1 ∨ r.c = 3) (hd : r.w = 0 ∨ r.h = 0) :
    checkImage rotation r = some .dim := by
  rw [checkImage, if_neg (not_not.mpr hc), if_pos hd]

/-- The checks past the dimensions and the coefficients are those of the buffers. -/
theorem checkImage_buffers {rotation : Bool} {r : Regs} (hc : r.c = 1 ∨ r.c = 3) (hw : 0 < r.w) (hh : 0 < r.h)
    (hq : rotation = true → r.trigSrc = true → coefficientLegal r.cq ∧ coefficientLegal r.sq) :
    checkImage rotation r =
      if wraps r.src r.len ∨ wraps r.dst r.len then some .addr
      else if overlap r.src r.dst r.len then some .overlap
      else none := by
  rw [checkImage, if_neg (not_not.mpr hc), if_neg (by omega), if_neg fun ⟨h1, h2, h3⟩ => h3 (hq h1 h2)]

/-! ## SIGMA -/

/-- A check that fails ends SIGMA with its code (60_exceptions R311). -/
theorem exec_sigma_endAtCheck {s : State} {code : ErrCode} (hb : s.busy = false) (h : checkImage false s.regs = some code) :
    exec .sigma s = .next { s with regs := { s.regs with
      cmd := 1, done := true, err := code, wcount := 0, errInfo := 0 } } := by
  have hchecks : checkImage false (s.regs.started Instr.sigma.word) = some code := h
  refine exec_endAtCheck (i := .sigma) hb ?_
  rw [beginCommand, beginSigma, hchecks]

/-- Settles O11: each clause names the first check that fails. -/
theorem sigmaChecksInOrder : Obligations.SigmaChecksInOrder := by
  intro s hb
  refine ⟨fun hc => ?_, fun hc hd => ?_, fun hc hw hh ha => ?_, fun hc hw hh hsrc hdst h1 h2 => ?_⟩ <;>
    refine exec_sigma_endAtCheck hb ?_
  · exact checkImage_channels _ hc
  · exact checkImage_dim _ hc hd
  · rw [checkImage_buffers hc hw hh (by simp), if_pos (by unfold wraps; omega)]
  · rw [checkImage_buffers hc hw hh (by simp), if_neg (by unfold wraps; omega), if_pos ⟨h1, h2⟩]

end Sys2Proof.Machine
end

section
/-! PROOFS. An image command that nothing disturbs runs to its normal end, whatever its kernel, as long as each of its steps passes a
sample or a pixel (00_scope R15, 60_exceptions R312). -/

namespace Sys2Proof.Machine

open Host

/-! ## What a running image command leaves alone -/

/-- The steps of a command leave everything but the sequencer, the histogram store, WCOUNT and the bytes of its output buffer. -/
inductive SameBesidesOutput (j : Job) (s : State) : State → Prop where
  | intro (phase : Phase) (hist : Hist) (mem : Memory) (wcount : Word)
      (h : ∀ a, j.inOutput a = false → mem.read a = s.mem.read a) :
      SameBesidesOutput j s
        { s with phase := phase, hist := hist, mem := mem, regs := { s.regs with wcount := wcount } }

theorem SameBesidesOutput.refl (j : Job) (s : State) : SameBesidesOutput j s s :=
  .intro s.phase s.hist s.mem s.regs.wcount fun _ _ => rfl

theorem SameBesidesOutput.trans {j : Job} {s t u : State} (h1 : SameBesidesOutput j s t) (h2 : SameBesidesOutput j t u) :
    SameBesidesOutput j s u := by
  obtain ⟨_, _, _, _, hm1⟩ := h1
  obtain ⟨phase, hist, mem, wcount, hm2⟩ := h2
  exact .intro phase hist mem wcount fun a ha => (hm2 a ha).trans (hm1 a ha)

theorem SameBesidesOutput.cfg_eq {j : Job} {s t : State} (h : SameBesidesOutput j s t) : t.cfg = s.cfg := by
  cases h
  rfl

@[simp] theorem advance_phase (j : Job) (p : Pos) (s : State) : (advance j p s).phase = .image j (p.nextSample j) := by
  rw [advance_eq]

/-- A sample's write and the sequencer's move leave alone what the command leaves alone. -/
theorem SameBesidesOutput.advance {j : Job} {p p' : Pos} (hs : j.hasSample p.row p.col p.ch) (s : State) (hist : Hist)
    (v : Byte) :
    SameBesidesOutput j s (advance j p' { s with hist := hist, mem := s.mem.write (j.outAddr p.row p.col p.ch) v }) := by
  rw [advance_eq]
  refine .intro _ _ _ _ fun a ha => Memory.read_write_other (fun he => ?_) v
  rw [he, Job.inOutput_outAddr hs] at ha
  cases ha

/-! ## From a step to the whole run -/

/-- The command's next step passes at least a sample, and leaves alone what the command leaves alone. -/
def State.stepPasses (s : State) (j : Job) (p : Pos) : Prop :=
  ∃ q t, blockStep s = .next t ∧ t.phase = .image j q ∧ p.index j < q.index j ∧ SameBesidesOutput j s t

/-- The state `t` of a command under way at a position, which was in the state `u` before. -/
structure RunFrom (u : State) (j : Job) (p : Pos) (t : State) : Prop where
  inv : t.Inv
  run : t.RunInv
  phase : t.phase = .image j p
  same : SameBesidesOutput j u t

/-- A position of the image stands before the buffer's end, and the end stands at it (20_memory R62, R63). -/
theorem Pos.inBounds.index_le {p : Pos} {j : Job} (h : p.inBounds j) : p.index j ≤ j.len := by
  rcases h with hs | ⟨hrow, hcol, hch⟩
  · exact (Job.index_lt_len hs).le
  · unfold Pos.index Job.index Job.len
    rw [hrow, hcol, hch, Nat.mul_comm j.h]
    rfl

/-- After the last sample the command ends with OK (60_exceptions R312). -/
theorem blockStep_end {s : State} {j : Job} {p : Pos} (hl : j.Legal) (hp : s.phase = .image j p) (hrow : j.h ≤ p.row) :
    blockStep s = .next (s.endRun .ok 0) := by
  unfold blockStep
  rw [hp]
  dsimp only
  rw [imageStep, if_neg (not_not.mpr hl), if_pos hrow]

/-- With more steps left than samples, a command whose every step passes a sample comes to its normal end. -/
theorem runBlock_completes {u : State} {j : Job}
    (hstep : ∀ s p, RunFrom u j p s → p.row < j.h → s.stepPasses j p) (n : Nat) :
    ∀ s p, RunFrom u j p s → j.len < n + p.index j →
      ∃ q t, RunFrom u j q t ∧ j.h ≤ q.row ∧ runBlock n s = .next (t.endRun .ok 0) := by
  induction n with
  | zero =>
    intro s p h hn
    obtain ⟨-, -, -, hb, -, -⟩ := h.inv.image h.phase
    have := hb.index_le
    omega
  | succ n ih =>
    intro s p h hn
    rw [runBlock_succ (by simp [h.phase])]
    by_cases hrow : p.row < j.h
    · obtain ⟨q, t, ht, hq, hlt, hsame⟩ := hstep s p h hrow
      rw [ht]
      exact ih t q ⟨blockStep_keeps_inv h.inv ht, blockStep_keeps_runInv h.inv h.run ht, hq, h.same.trans hsame⟩ (by omega)
    · obtain ⟨-, hl, -⟩ := h.inv.image h.phase
      rw [blockStep_end hl h.phase (Nat.not_lt.mp hrow)]
      exact ⟨p, s, h, Nat.not_lt.mp hrow, runBlock_idle rfl n⟩

/-- Where no host move lands before the command's end, the block runs at least so far (log 6). -/
theorem State.undisturbed.le_stepsBeforeNextMove {s : State} {j : Job} {p : Pos} (h : s.undisturbed (j.len + 1))
    (hp : s.phase = .image j p) : j.len + 1 ≤ s.stepsBeforeNextMove := by
  unfold State.stepsBeforeNextMove
  split
  · rw [State.stepsLeft, hp]
  · exact h _ _ ‹_›

/-- The run of an image command that nothing disturbs ends normally, in a state that the command's whole run has led to. -/
theorem runOn_completes {u : State} {j : Job} {p : Pos} (hinv : u.Inv) (hrun : u.RunInv) (hp : u.phase = .image j p)
    (hu : u.undisturbed (j.len + 1)) (hstep : ∀ s p, RunFrom u j p s → p.row < j.h → s.stepPasses j p) :
    ∃ q t, RunFrom u j q t ∧ j.h ≤ q.row ∧ runOn u = .next (t.endRun .ok 0) := by
  have hsteps := hu.le_stepsBeforeNextMove hp
  exact runBlock_completes hstep _ u p ⟨hinv, hrun, hp, SameBesidesOutput.refl j u⟩ (by omega)

/-! ## What the whole run has done -/

/-- At the end every pixel of the write set is counted (10_state R35). -/
theorem Job.pixelsBefore_end {j : Job} {p : Pos} (hrow : j.h ≤ p.row) : j.pixelsBefore p = j.writePixels.length := by
  refine congrArg List.length (List.filter_eq_self.mpr fun q hq => decide_eq_true ?_)
  obtain ⟨hr, hc, -⟩ := Job.mem_writePixels.mp hq
  have hrows : (q.1 + 1) * j.w ≤ p.row * j.w := Nat.mul_le_mul_right _ (by omega)
  rw [Nat.add_one_mul] at hrows
  omega

/-- At the end every sample of the write set has its new value, and every other its old one. -/
theorem Job.valueDuring_end {j : Job} {p : Pos} (hrow : j.h ≤ p.row) {r c ch : Nat} (hs : j.hasSample r c ch) :
    j.valueDuring p r c ch = if j.writes r c = true then j.newValue r c ch else j.mem0.read (j.outAddr r c ch) := by
  have hlen : j.len ≤ j.index p.row p.col p.ch := by
    have hrows : j.w * j.h ≤ p.row * j.w + p.col :=
      Nat.mul_comm j.w j.h ▸ Nat.le_add_right_of_le (Nat.mul_le_mul_right _ hrow)
    exact Nat.le_add_right_of_le (Nat.mul_le_mul_right _ hrows)
  have hlt := Nat.lt_of_lt_of_le (Job.index_lt_len hs) hlen
  simp only [Job.valueDuring, hlt, and_true]

/-- WCOUNT and the output at the end of a run. -/
theorem RunFrom.at_end {u t : State} {j : Job} {p : Pos} (h : RunFrom u j p t) (hrow : j.h ≤ p.row) :
    t.regs.wcount = BitVec.ofNat 32 j.writePixels.length ∧
      ∀ r c ch, j.hasSample r c ch → t.mem.read (j.outAddr r c ch) =
        if j.writes r c = true then j.newValue r c ch else j.mem0.read (j.outAddr r c ch) := by
  obtain ⟨hprog, -⟩ := h.run.image h.phase
  rw [hprog.wcount, Job.pixelsBefore_end hrow]
  exact ⟨rfl, fun r c ch hs => (hprog.output r c ch hs).trans (Job.valueDuring_end hrow hs)⟩

/-- The end of a run, from the state it started in: the outcome registers, the histogram store, and the output of the run are all that
has changed (60_exceptions R312, 10_state R44). -/
theorem RunFrom.endRun_eq {u t : State} {j : Job} {p : Pos} (h : RunFrom u j p t) :
    t.endRun .ok 0 = { u with
      phase := .idle, hist := freeHist u.draws, draws := u.draws + 1, mem := t.mem
      regs := { u.regs with done := true, err := .ok, errInfo := 0, wcount := t.regs.wcount } } := by
  cases h.same
  rfl

/-- No byte outside the output buffer has changed. -/
theorem RunFrom.read_other {u t : State} {j : Job} {p : Pos} (h : RunFrom u j p t) {a : Nat} (ha : j.inOutput a = false) :
    t.mem.read a = u.mem.read a := by
  obtain ⟨_, _, _, _, hm⟩ := h.same
  exact hm a ha

end Sys2Proof.Machine
end

section
/-! PROOFS. SIGMA on a bus that answers every access: each sample is written, and the command filters the whole image (41_sigma_filter
R120, R129, R130). -/

namespace Sys2Proof.Machine

open Host

/-! ## One sample on a bus that answers (20_memory R79) -/

/-- SIGMA writes every pixel (41_sigma_filter R130). -/
theorem Job.writes_sigma {j : Job} {sigma k : Nat} (hk : j.kernel = .sigma sigma k) (r c : Nat) : j.writes r c = true := by
  rw [Job.writes, hk]

/-- The window work of SIGMA fails on the bus only at a sample of the image. -/
theorem prepareWindow_error_bus {cfg : Config} {j : Job} {k : Nat} {p : Pos} {h : Hist} {a : Nat} (hr : p.row < j.h)
    (hc : p.col < j.w) (hb : p.col ≠ 0 → (p.r0, p.r1) = j.band k p.row)
    (he : prepareWindow cfg j k p h = .error (.bus a)) : j.FailedRead cfg a := by
  unfold prepareWindow at he
  split at he
  · cases he
  split at he
  · exact histInit_error_bus hr (by omega) he
  · split at he <;> cases he
    exact histSlide_error_bus (hb ‹_›) hr hc ‹_›

/-- Every sample of the image can be read where the bus answers every access of a SIGMA: each stands in its own window. -/
theorem Job.busOk.readSample_eq {cfg : Config} {j : Job} {sigma k : Nat} (hbus : j.busOk cfg) (hk : j.kernel = .sigma sigma k)
    {r c ch : Nat} (hs : j.hasSample r c ch) : readSample cfg j r c ch = .ok (j.input r c ch) := by
  rcases readSample_cases cfg j r c ch with ⟨-, h⟩ | ⟨hb, -⟩
  · exact h
  · exact absurd ⟨r, c, ch, hs, rfl, hb⟩ (hbus.not_failedRead hk)

/-- A sample of the write set can be written where the bus answers every access of the command. -/
theorem Job.busOk.writeSample_eq {cfg : Config} {j : Job} (hbus : j.busOk cfg) {r c ch : Nat} (hs : (r, c, ch) ∈ j.writeSet)
    (v : Byte) (m : Memory) : writeSample cfg j r c ch v m = .ok (m.write (j.outAddr r c ch) v) :=
  if_neg (by simp [(hbus r c ch hs).2])

/-- A sample of SIGMA from a window in order: the window of its pixel is counted, a value written, and the sequencer moves on. -/
theorem Job.busOk.sigmaStep_eq {j : Job} {sigma k : Nat} {p : Pos} {s : State} (hbus : j.busOk s.cfg) (hl : j.Legal)
    (hk : j.kernel = .sigma sigma k) (hs : j.hasSample p.row p.col p.ch) (hwin : s.windowInOrder j p) :
    ∃ hist v, sigmaStep j sigma k p s =
      advance j { p with r0 := (j.band k p.row).1, r1 := (j.band k p.row).2 }
        { s with hist := hist, mem := s.mem.write (j.outAddr p.row p.col p.ch) v } := by
  replace hwin := (State.windowInOrder_sigma hk).mp hwin
  have hmem : (p.row, p.col, p.ch) ∈ j.writeSet := Job.mem_writeSet.mpr ⟨hs, Job.writes_sigma hk _ _⟩
  rcases prepareWindow_cases (cfg := s.cfg) hl hs.2.1 hwin with ⟨hist, hprep, -⟩ | ⟨a, herr⟩
  · refine ⟨hist, sigmaValue hist p.ch sigma (j.input p.row p.col p.ch), ?_⟩
    simp only [sigmaStep, hprep, hbus.readSample_eq hk hs, hbus.writeSample_eq hmem]
  · exact absurd (prepareWindow_error_bus hs.1 hs.2.1 (fun h => (hwin (.inr h)).1) herr) (hbus.not_failedRead hk)

/-- The step of a SIGMA at a sample of the image. -/
theorem blockStep_sigma {s : State} {j : Job} {p : Pos} {sigma k : Nat} (hl : j.Legal) (hk : j.kernel = .sigma sigma k)
    (hp : s.phase = .image j p) (hs : j.hasSample p.row p.col p.ch) : blockStep s = .next (sigmaStep j sigma k p s) := by
  obtain ⟨hr, hc, hch⟩ := hs
  unfold blockStep
  rw [hp]
  dsimp only
  rw [imageStep, if_neg (not_not.mpr hl), if_neg (by omega), if_neg (by omega), hk]

/-- Every step of a SIGMA on a bus that answers passes a sample. -/
theorem stepPasses_sigma {u s : State} {j : Job} {sigma k : Nat} {p : Pos} (hk : j.kernel = .sigma sigma k)
    (hbus : j.busOk u.cfg) (h : RunFrom u j p s) (hrow : p.row < j.h) : s.stepPasses j p := by
  obtain ⟨-, hl, -, hb, -, -⟩ := h.inv.image h.phase
  obtain ⟨-, hwin⟩ := h.run.image h.phase
  have hs : j.hasSample p.row p.col p.ch := hb.resolve_right fun hend => by omega
  rw [← h.same.cfg_eq] at hbus
  obtain ⟨hist, v, hstep⟩ := hbus.sigmaStep_eq hl hk hs hwin
  rw [State.stepPasses, blockStep_sigma hl hk h.phase hs, hstep]
  have hnext := Pos.index_nextSample (p := { p with r0 := (j.band k p.row).1, r1 := (j.band k p.row).2 }) hs.2.1 hs.2.2
  exact ⟨_, _, rfl, advance_phase _ _ _, (Nat.lt_succ_self _).trans_eq hnext.symm, SameBesidesOutput.advance hs s hist v⟩

/-! ## The whole image -/

/-- SIGMA writes all the pixels of the image (41_sigma_filter R130). -/
theorem Job.length_writePixels_sigma {j : Job} {sigma k : Nat} (hk : j.kernel = .sigma sigma k) :
    j.writePixels.length = j.w * j.h := by
  simp [Job.writePixels, Job.writes_sigma hk, List.length_flatMap, Nat.mul_comm]

/-- An accepted SIGMA with no buffer on a device starts its run at sample (0, 0, 0) (60_exceptions R300). -/
theorem beginSigma_accepted {s : State} (hlegal : s.regs.imageLegal) (hdev : s.sigmaJob.onDevice s.cfg = false) :
    beginSigma s = .next { s with
      phase := .image s.sigmaJob { row := 0, col := 0, ch := 0, r0 := 0, r1 := 0 }
      watch := s.sigmaJob :: s.watch } := by
  rw [beginSigma, checkImage_of_imageLegal hlegal (by simp)]
  exact if_neg (Bool.eq_false_iff.mp hdev)

/-- Settles O30: every step from the start on passes a sample, so the run comes to its end with every sample written. -/
theorem sigmaFiltersTheImage : Obligations.SigmaFiltersTheImage := by
  intro s hb hm hlegal hdev hbus hund
  have hbegin := beginSigma_accepted (s := { s with regs := s.regs.started Instr.sigma.word }) hlegal hdev
  have hinv := beginCommand_keeps_inv (i := .sigma) (State.inv_of_idle (s.phase_of_not_busy hb) hm) hb hbegin
  have hrun := beginCommand_runInv (i := .sigma) hb hbegin
  obtain ⟨q, t, hend, hrow, ht⟩ := runOn_completes hinv hrun rfl hund fun _ _ => stepPasses_sigma rfl hbus
  obtain ⟨hwcount, hout⟩ := hend.at_end hrow
  rw [Job.length_writePixels_sigma rfl] at hwcount
  refine ⟨freeHist s.draws, t.mem, s.draws + 1, ?_, hend.inv.1, fun r c ch hr hc hch => ?_, fun a ha => ?_⟩
  · rw [exec_sigma, issue_idle hb, hbegin]
    refine ht.trans ?_
    rw [hend.endRun_eq, hwcount, ← s.phase_of_not_busy hb]
    rfl
  · exact hout r c ch ⟨hr, hc, hch⟩
  · exact hend.read_other (decide_eq_false ha)

end Sys2Proof.Machine
end

section
/-! PROOFS. The trig LUT (43_trig_lut): its values are the quantised cosine and sine at every ANGLE, with their parity and their range;
and the TRIG command, which ends after its one step. -/

namespace Sys2Proof.Machine

/-! ## The LUT at every ANGLE (R160, R164) -/

/-- A quantiser leaves an integer as it is (R161). -/
theorem idealQuantise_intCast (q : TrigQuant) (k : ℤ) : idealQuantise q (k : ℝ) = k := by
  cases q with
  | trunc => simp [idealQuantise, truncate]
  | floor => exact Int.floor_intCast k
  | nearest =>
    refine Int.floor_eq_iff.mpr ⟨?_, ?_⟩ <;> linarith

/-- At every ANGLE the LUT holds the quantised cosine and sine; at 0 these are whole numbers. -/
theorem trigLUT_exact (q : TrigQuant) (angle : Word) :
    trigLUT q angle =
      (idealQuantise q (256 * Real.cos ((angle.toInt : ℝ) / 2 ^ 16)),
        idealQuantise q (256 * Real.sin ((angle.toInt : ℝ) / 2 ^ 16))) := by
  by_cases h0 : angle = 0
  · have h256 := idealQuantise_intCast q 256
    have hzero := idealQuantise_intCast q 0
    rw [Int.cast_ofNat] at h256
    rw [Int.cast_zero] at hzero
    rw [h0, trigLUT_zero]
    simp [h256, hzero]
  · exact trigLUT_eq_ideal q h0

/-! ## Parity (R168) -/

/-- Truncation toward zero is odd. -/
theorem truncate_neg (x : ℝ) : truncate (-x) = -truncate x := by
  unfold truncate
  rcases lt_trichotomy x 0 with h | rfl | h
  · rw [if_pos (neg_nonneg.mpr h.le), if_neg (not_le.mpr h), Int.floor_neg]
  · simp
  · rw [if_neg (not_le.mpr (neg_neg_of_pos h)), if_pos h.le, Int.ceil_neg]

/-- Rounding to the nearest integer, halves upward, is odd but at the halves. -/
theorem floor_neg_add_half {x : ℝ} (hx : ∀ m : ℤ, x ≠ m / 2) : ⌊-x + 1 / 2⌋ = -⌊x + 1 / 2⌋ := by
  have hne : (⌊x + 1 / 2⌋ : ℝ) ≠ x + 1 / 2 := fun h =>
    hx (2 * ⌊x + 1 / 2⌋ - 1) (by push_cast; linarith)
  have hlt := lt_of_le_of_ne (Int.floor_le (x + 1 / 2)) hne
  have hgt := Int.lt_floor_add_one (x + 1 / 2)
  refine Int.floor_eq_iff.mpr ⟨?_, ?_⟩ <;> push_cast <;> linarith

/-- TRUNC and NEAREST are odd away from the multiples of 1/2. -/
theorem idealQuantise_neg {q : TrigQuant} (hq : q ≠ .floor) {x : ℝ} (hx : ∀ m : ℤ, x ≠ m / 2) :
    idealQuantise q (-x) = -idealQuantise q x := by
  cases q with
  | trunc => exact truncate_neg x
  | floor => exact absurd rfl hq
  | nearest => exact floor_neg_add_half hx

/-- At no ANGLE but 0 is 256 sin theta a multiple of 1/2 (`trig_separated`). -/
theorem sin_ne_half {angle : Word} (h0 : angle ≠ 0) (m : ℤ) : 256 * Real.sin ((angle.toInt : ℝ) / 2 ^ 16) ≠ m / 2 := by
  intro h
  have hn0 : angle.toInt ≠ 0 := fun hn => h0 (BitVec.eq_of_toInt_eq hn)
  have hsep := (trig_separated hn0 (abs_le.mpr ⟨angle.le_toInt, angle.toInt_lt.le⟩) m).2
  rw [h, sub_self, abs_zero] at hsep
  exact absurd hsep (not_lt.mpr (by positivity))

/-- Under TRUNC and NEAREST the cosine is even and the sine odd, at each ANGLE with a negation in 32 bits. -/
theorem trigLUT_neg {q : TrigQuant} {angle : Word} (hq : q ≠ .floor) (hmin : angle ≠ 0x80000000) :
    (trigLUT q (-angle)).1 = (trigLUT q angle).1 ∧ (trigLUT q (-angle)).2 = -(trigLUT q angle).2 := by
  by_cases h0 : angle = 0
  · rw [h0, neg_zero, trigLUT_zero]
    exact ⟨rfl, rfl⟩
  · have hneg : (-angle).toInt = -angle.toInt := BitVec.toInt_neg_of_ne_intMin hmin
    rw [trigLUT_exact, trigLUT_exact, hneg, Int.cast_neg, neg_div, Real.cos_neg, Real.sin_neg, mul_neg]
    exact ⟨rfl, idealQuantise_neg hq (sin_ne_half h0)⟩

/-- Settles O16: exactness, parity, and the values under FLOOR that break it. -/
theorem trigLutIsExact : Obligations.TrigLutIsExact :=
  ⟨trigLUT_exact, fun _ _ => trigLUT_neg, by decide +kernel, by decide +kernel⟩

/-! ## Range and fixed values (R162, R163, R167) -/

/-- Settles O17: the outputs are legal coefficients, and TRIG_Q reads such back. -/
theorem trigLutFitsItsFields : Obligations.TrigLutFitsItsFields := fun q angle r =>
  have ⟨hc, hs⟩ := trigLUT_legal q angle
  ⟨hc, hs, r.setTrigQ_coefficients hc hs⟩

/-- At 1.0 rad the quantisers agree. -/
theorem trigLUT_one (q : TrigQuant) : trigLUT q 0x00010000 = (138, 215) := by
  cases q <;> decide +kernel

/-- At 1.5 rad the quantisers agree. -/
theorem trigLUT_three_halves (q : TrigQuant) : trigLUT q 0x00018000 = (18, 255) := by
  cases q <;> decide +kernel

/-- Settles O18: the LUT is evaluated at each angle. -/
theorem trigLutRepresentativeAngles : Obligations.TrigLutRepresentativeAngles := by
  refine ⟨fun q => ⟨trigLUT_zero q, trigLUT_one q, trigLUT_three_halves q⟩, ?_⟩
  decide +kernel

/-! ## The TRIG command (R166) -/

/-- Where no host move lands before the running command's next step, the block takes that step (log 6). -/
theorem State.undisturbed.one_le_stepsBeforeNextMove {s : State} (h : s.undisturbed 1) (hp : s.phase ≠ .idle) :
    1 ≤ s.stepsBeforeNextMove := by
  unfold State.stepsBeforeNextMove
  split
  · unfold State.stepsLeft
    split
    · exact absurd ‹_› hp
    · exact Nat.le_refl 1
    · exact Nat.le_refl 1
    · exact Nat.le_add_left 1 _
  · exact h _ _ ‹_›

/-- A run whose next step ends the command, with no host move before that step, is that step. -/
theorem runOn_of_last_step {s t : State} (hu : s.undisturbed 1) (hp : s.phase ≠ .idle) (hstep : blockStep s = .next t)
    (ht : t.phase = .idle) : runOn s = .next t := by
  obtain ⟨n, hn⟩ := Nat.exists_eq_add_of_le' (hu.one_le_stepsBeforeNextMove hp)
  rw [runOn, hn, runBlock_succ hp, hstep]
  exact runBlock_idle ht n

/-- Settles O14: TRIG starts, and its one step writes TRIG_Q and ends it. -/
theorem trigCompletesWithLut : Obligations.TrigCompletesWithLut := by
  intro s hb hu
  have hrun : runOn { s with regs := s.regs.started 4, phase := .trig } =
      .next (trigStep { s with regs := s.regs.started 4, phase := .trig }) := runOn_of_last_step hu nofun rfl rfl
  refine ⟨freeHist s.draws, s.draws + 1, ?_⟩
  rw [exec_trig, issue_idle hb]
  refine hrun.trans ?_
  rw [s.phase_of_not_busy hb]
  rfl

end Sys2Proof.Machine
end

section
/-! PROOFS. The bilinear interpolator (44_bilinear_interpolator): its weights, the bounds of its weighted sum, and its result as the
floor of the real interpolation; and the BILERP command, which ends after its one step. -/

namespace Sys2Proof.Machine

/-! ## The weights (R181) -/

/-- The four weights sum to 256 * 256: they are the product of `(256 - fr) + fr` and `(256 - fc) + fc`, multiplied out. -/
theorem bilinearWeights_sum {fr fc : Nat} (hr : fr ≤ 256) (hc : fc ≤ 256) :
    (bilinearWeights fr fc).1 + (bilinearWeights fr fc).2.1 + (bilinearWeights fr fc).2.2.1 + (bilinearWeights fr fc).2.2.2 =
      65536 := by
  calc (256 - fr) * (256 - fc) + (256 - fr) * fc + fr * (256 - fc) + fr * fc
      = (256 - fr + fr) * (256 - fc + fc) := by ring
    _ = 65536 := by rw [Nat.sub_add_cancel hr, Nat.sub_add_cancel hc]

/-- The first weight is the whole sum exactly at the corner of its sample. -/
theorem bilinearWeights_fst_eq_iff {fr fc : Nat} (hr : fr ≤ 255) (hc : fc ≤ 255) :
    (bilinearWeights fr fc).1 = 65536 ↔ fr = 0 ∧ fc = 0 := by
  change (256 - fr) * (256 - fc) = 65536 ↔ fr = 0 ∧ fc = 0
  refine ⟨fun h => ?_, fun ⟨h1, h2⟩ => by rw [h1, h2]⟩
  have h1 : (256 - fr) * (256 - fc) ≤ (256 - fr) * 256 := Nat.mul_le_mul_left _ (Nat.sub_le _ _)
  have h2 : (256 - fr) * (256 - fc) ≤ 256 * (256 - fc) := Nat.mul_le_mul_right _ (Nat.sub_le _ _)
  omega

/-- Settles O19: the other three weights each have a factor of at most 255. -/
theorem bilinearWeightsSum : Obligations.BilinearWeightsSum := by
  intro fr fc hr hc
  have hsum := bilinearWeights_sum (Nat.le_succ_of_le hr) (Nat.le_succ_of_le hc)
  have h01 : (256 - fr) * fc ≤ 256 * 255 := Nat.mul_le_mul (Nat.sub_le _ _) hc
  have h10 : fr * (256 - fc) ≤ 255 * 256 := Nat.mul_le_mul hr (Nat.sub_le _ _)
  have h11 : fr * fc ≤ 255 * 255 := Nat.mul_le_mul hr hc
  exact ⟨hsum, by omega, h01.trans_lt (by decide), h10.trans_lt (by decide), h11.trans_lt (by decide),
    bilinearWeights_fst_eq_iff hr hc⟩

/-! ## The weighted sum and the result (R180, R182) -/

/-- The weighted sum, by the weights' names. -/
theorem bilinearAcc_eq (s00 s01 s10 s11 fr fc : Nat) :
    bilinearAcc s00 s01 s10 s11 fr fc =
      (bilinearWeights fr fc).1 * s00 + (bilinearWeights fr fc).2.1 * s01 + (bilinearWeights fr fc).2.2.1 * s10 +
        (bilinearWeights fr fc).2.2.2 * s11 := rfl

/-- The weighted sum grows with each sample. -/
theorem bilinearAcc_mono {s00 s01 s10 s11 t00 t01 t10 t11 : Nat} (h00 : s00 ≤ t00) (h01 : s01 ≤ t01) (h10 : s10 ≤ t10)
    (h11 : s11 ≤ t11) (fr fc : Nat) : bilinearAcc s00 s01 s10 s11 fr fc ≤ bilinearAcc t00 t01 t10 t11 fr fc := by
  rw [bilinearAcc_eq, bilinearAcc_eq]
  gcongr

/-- Of four equal samples the weighted sum is 65536 times that sample. -/
theorem bilinearAcc_self (x : Nat) {fr fc : Nat} (hr : fr ≤ 256) (hc : fc ≤ 256) : bilinearAcc x x x x fr fc = 65536 * x := by
  rw [bilinearAcc_eq, ← Nat.add_mul, ← Nat.add_mul, ← Nat.add_mul, bilinearWeights_sum hr hc]

/-- A byte is at most 255. -/
theorem byte_toNat_le (x : Byte) : x.toNat ≤ 255 :=
  Nat.le_of_lt_succ x.isLt

section
variable (s00 s01 s10 s11 fr fc : Byte)

/-- R182's bound of the weighted sum. -/
theorem bilinearAcc_le : bilinearAcc s00.toNat s01.toNat s10.toNat s11.toNat fr.toNat fc.toNat ≤ 65536 * 255 :=
  (bilinearAcc_mono (byte_toNat_le s00) (byte_toNat_le s01) (byte_toNat_le s10) (byte_toNat_le s11) _ _).trans_eq
    (bilinearAcc_self 255 fr.isLt.le fc.isLt.le)

/-- The shifted sum fits the result's 8 bits, so none of it is lost. -/
theorem bilerpFX_toNat :
    (bilerpFX s00 s01 s10 s11 fr.toNat fc.toNat).toNat =
      bilinearAcc s00.toNat s01.toNat s10.toNat s11.toNat fr.toNat fc.toNat / 65536 := by
  have hle := Nat.div_le_of_le_mul (bilinearAcc_le s00 s01 s10 s11 fr fc)
  rw [bilerpFX, BitVec.toNat_ofNat]
  exact Nat.mod_eq_of_lt (Nat.lt_succ_of_le hle)

variable {s00 s01 s10 s11}

/-- The result is at least any lower bound of the four samples. -/
theorem le_bilerpFX_toNat {lo : Nat} (h00 : lo ≤ s00.toNat) (h01 : lo ≤ s01.toNat) (h10 : lo ≤ s10.toNat)
    (h11 : lo ≤ s11.toNat) : lo ≤ (bilerpFX s00 s01 s10 s11 fr.toNat fc.toNat).toNat := by
  have hacc := bilinearAcc_mono h00 h01 h10 h11 fr.toNat fc.toNat
  rw [bilinearAcc_self lo fr.isLt.le fc.isLt.le] at hacc
  rw [bilerpFX_toNat]
  omega

/-- The result is at most any upper bound of the four samples. -/
theorem bilerpFX_toNat_le {hi : Nat} (h00 : s00.toNat ≤ hi) (h01 : s01.toNat ≤ hi) (h10 : s10.toNat ≤ hi)
    (h11 : s11.toNat ≤ hi) : (bilerpFX s00 s01 s10 s11 fr.toNat fc.toNat).toNat ≤ hi := by
  have hacc := bilinearAcc_mono h00 h01 h10 h11 fr.toNat fc.toNat
  rw [bilinearAcc_self hi fr.isLt.le fc.isLt.le] at hacc
  rw [bilerpFX_toNat]
  exact Nat.div_le_of_le_mul hacc

end

/-- Settles O20: the minimum and the maximum are bounds of all four samples. -/
theorem bilerpStaysBetweenItsSamples : Obligations.BilerpStaysBetweenItsSamples := fun s00 s01 s10 s11 fr fc =>
  ⟨le_bilerpFX_toNat fr fc (by simp) (by simp) (by simp) (by simp),
    bilerpFX_toNat_le fr fc (by simp) (by simp) (by simp) (by simp), bilinearAcc_le s00 s01 s10 s11 fr fc⟩

/-! ## The real interpolation (R183) -/

/-- The real interpolation at fr / 256 and fc / 256 is the weighted sum over 65536. -/
theorem refInterpolate_eq_bilinearAcc_div {fr fc : Nat} (hr : fr ≤ 256) (hc : fc ≤ 256) (s00 s01 s10 s11 : Nat) :
    refInterpolate ((fr : ℚ) / 256) ((fc : ℚ) / 256) s00 s01 s10 s11 =
      (bilinearAcc s00 s01 s10 s11 fr fc : ℚ) / (65536 : Nat) := by
  rw [bilinearAcc_eq, refInterpolate, bilinearWeights]
  push_cast [hr, hc]
  ring

/-- Settles O21: a quotient of natural numbers is the floor of the rational one. -/
theorem bilerpIsFloorOfRealInterpolation : Obligations.BilerpIsFloorOfRealInterpolation := by
  intro s00 s01 s10 s11 fr fc
  rw [bilerpFX_toNat, refInterpolate_eq_bilinearAcc_div fr.isLt.le fc.isLt.le, Rat.floor_natCast_div_natCast,
    Int.natCast_ediv]

/-! ## Truncation (R184) -/

/-- Four equal samples give that sample: it bounds them from both sides. -/
theorem bilerpFX_self (x fr fc : Byte) : bilerpFX x x x x fr.toNat fc.toNat = x :=
  BitVec.eq_of_toNat_eq <| le_antisymm (bilerpFX_toNat_le fr fc le_rfl le_rfl le_rfl le_rfl)
    (le_bilerpFX_toNat fr fc le_rfl le_rfl le_rfl le_rfl)

/-- The result 255 needs the whole weighted sum: what the weights lack of it by samples below 255 is nothing. -/
theorem bilerpFX_eq_255 {s00 s01 s10 s11 fr fc : Byte} (h : bilerpFX s00 s01 s10 s11 fr.toNat fc.toNat = 255) :
    bilinearAcc s00.toNat s01.toNat s10.toNat s11.toNat fr.toNat fc.toNat = 65536 * 255 := by
  have hle := bilinearAcc_le s00 s01 s10 s11 fr fc
  have hdiv := bilerpFX_toNat s00 s01 s10 s11 fr fc
  rw [h, show (255 : Byte).toNat = 255 from rfl] at hdiv
  omega

/-- Where the result is 255, a sample 0 weighs nothing: the other three weights would not reach the sum. -/
theorem weights_eq_zero_of_bilerpFX_eq_255 {s00 s01 s10 s11 fr fc : Byte}
    (h : bilerpFX s00 s01 s10 s11 fr.toNat fc.toNat = 255) :
    (s00 = 0 → (bilinearWeights fr.toNat fc.toNat).1 = 0) ∧ (s01 = 0 → (bilinearWeights fr.toNat fc.toNat).2.1 = 0) ∧
      (s10 = 0 → (bilinearWeights fr.toNat fc.toNat).2.2.1 = 0) ∧
      (s11 = 0 → (bilinearWeights fr.toNat fc.toNat).2.2.2 = 0) := by
  have hacc := bilerpFX_eq_255 h
  have hsum := bilinearWeights_sum fr.isLt.le fc.isLt.le
  rw [bilinearAcc_eq] at hacc
  have hpart (w : Nat) (x : Byte) : w * x.toNat ≤ w * 255 := Nat.mul_le_mul_left w (byte_toNat_le x)
  have h00 := hpart (bilinearWeights fr.toNat fc.toNat).1 s00
  have h01 := hpart (bilinearWeights fr.toNat fc.toNat).2.1 s01
  have h10 := hpart (bilinearWeights fr.toNat fc.toNat).2.2.1 s10
  have h11 := hpart (bilinearWeights fr.toNat fc.toNat).2.2.2 s11
  refine ⟨?_, ?_, ?_, ?_⟩ <;> rintro rfl <;> rw [show (0 : Byte).toNat = 0 from rfl] at hacc <;> omega

/-- Settles O22: the shift cuts the sum, and the result 255 leaves no weight to a 0-sample. -/
theorem bilerpTruncates : Obligations.BilerpTruncates :=
  ⟨fun s00 s01 s10 s11 fr fc => ⟨bilerpFX_toNat s00 s01 s10 s11 fr fc, fun _ => weights_eq_zero_of_bilerpFX_eq_255⟩,
    bilerpFX_self, by decide⟩

/-! ## The BILERP command (R186) -/

/-- A command whose first step ends it is its start and that step, where no host move lands before it. -/
theorem exec_of_last_step {i : Instr} {s u t : State} (hb : s.busy = false)
    (hbegin : beginCommand i { s with regs := s.regs.started i.word } = .next u) (hu : u.undisturbed 1) (hp : u.phase ≠ .idle)
    (hstep : blockStep u = .next t) (ht : t.phase = .idle) : exec i s = .next t := by
  rw [exec_eq_issue, issue_idle hb, hbegin]
  exact runOn_of_last_step hu hp hstep ht

/-- Settles O15: BILERP starts, and its one step writes BL_RESULT and ends it. -/
theorem bilerpCompletesWithResult : Obligations.BilerpCompletesWithResult := by
  intro s hb hu
  have hexec : exec .bilerp s = .next (bilerpStep { s with regs := s.regs.started 5, phase := .bilerp }) :=
    exec_of_last_step hb rfl hu nofun rfl rfl
  refine ⟨freeHist s.draws, s.draws + 1, ?_⟩
  rw [hexec, s.phase_of_not_busy hb]
  rfl

end Sys2Proof.Machine
end

section
/-! PROOFS. The mapping of the fixed-point rotation (45_fixed_point_rotation R201 to R206): position and fraction of the source
coordinates, their range, and the neighbours of a touched pixel. -/

namespace Sys2Proof.Machine

/-! ## Position and fraction (R202, R203) -/

/-- The row coordinate is 256 times its centred integer part, and the fraction (R203). -/
theorem Source.sr_eq (m : Source) : m.sr = 256 * (m.ir - m.hh) + m.fr := by
  unfold Source.ir Source.fr
  omega

/-- The column coordinate likewise. -/
theorem Source.sc_eq (m : Source) : m.sc = 256 * (m.ic - m.hw) + m.fc := by
  unfold Source.ic Source.fc
  omega

/-- A row fraction has 8 bits (R203). -/
theorem Source.fr_lt (m : Source) : m.fr < 256 := by
  unfold Source.fr
  omega

/-- A column fraction has 8 bits (R203). -/
theorem Source.fc_lt (m : Source) : m.fc < 256 := by
  unfold Source.fc
  omega

/-- Settles O34: floor division by 256 and its remainder, for every sign. -/
theorem sourcePositionAndFraction : Obligations.SourcePositionAndFraction := fun _ _ _ _ _ _ =>
  ⟨Source.sr_eq _, Source.sc_eq _, Nat.le_of_lt_succ (Source.fr_lt _), Nat.le_of_lt_succ (Source.fc_lt _)⟩

/-! ## The range of the source coordinates (R205) -/

/-- An offset from the centre of an image side of at most 65535 (42_rotation_reference R140). -/
theorem abs_centred_le {n i : Nat} (hn : n ≤ 65535) (hi : i < n) : |(i : ℤ) - (n / 2 : Nat)| ≤ 32767 :=
  abs_le.mpr ⟨by omega, by omega⟩

/-- One product of R205: a legal coefficient and a centred offset. -/
theorem coefficientLegal.abs_mul_le {v d : Int} (hv : coefficientLegal v) (hd : |d| ≤ 32767) : |v * d| ≤ 256 * 32767 := by
  rw [abs_mul]
  exact mul_le_mul (abs_le.mpr hv) hd (abs_nonneg d) (by norm_num)

/-- Settles O35: each coordinate is the sum or the difference of two products of at most 256 * 32767. -/
theorem rotationFitsItsDatapath : Obligations.RotationFitsItsDatapath := by
  intro cq sq w h row col hcq hsq hw hh hr hc
  have hdr := abs_centred_le hh hr
  have hdc := abs_centred_le hw hc
  obtain ⟨h1, h1'⟩ := abs_le.mp (hcq.abs_mul_le hdr)
  obtain ⟨h2, h2'⟩ := abs_le.mp (hsq.abs_mul_le hdc)
  obtain ⟨h3, h3'⟩ := abs_le.mp (hsq.abs_mul_le hdr)
  obtain ⟨h4, h4'⟩ := abs_le.mp (hcq.abs_mul_le hdc)
  dsimp only [mapSource]
  omega

/-! ## The neighbours of a touched pixel (R204, R206) -/

/-- ROTFX writes the pixels its mapping touches (R208). -/
theorem Job.writes_rotfx {j : Job} {cq sq : Int} {b : Option Word} (hk : j.kernel = .rotfx cq sq b) (r c : Nat) :
    j.writes r c = (mapSource cq sq j.w j.h r c).touched j.w j.h := by
  rw [Job.writes, hk]

/-- The needed addresses of a touched pixel are those of samples of the image in its own channel (R206). -/
theorem Job.exists_sample_of_mem_needs {j : Job} {cq sq : Int} {b : Option Word} (hk : j.kernel = .rotfx cq sq b)
    {r c ch a : Nat} (hs : (r, c, ch) ∈ j.writeSet) (ha : a ∈ j.needs r c ch) :
    ∃ r' c', j.hasSample r' c' ch ∧ a = j.inAddr r' c' ch := by
  obtain ⟨⟨-, -, hch⟩, hw⟩ := Job.mem_writeSet.mp hs
  rw [Job.writes_rotfx hk] at hw
  obtain ⟨hrow, hcol⟩ := Source.touched_bounds hw
  simp only [Job.needs, hk, List.mem_cons, List.not_mem_nil, or_false] at ha
  rcases ha with rfl | rfl | rfl | rfl
  all_goals exact ⟨_, _, ⟨by omega, by omega, hch⟩, rfl⟩

end Sys2Proof.Machine
end

section
/-! PROOFS. ROTFX is the reference rotation at cos = cq / 256 and sin = sq / 256 (45_fixed_point_rotation R212), so at the coefficients
(256, 0) both copy the interior of the image (R210, 42_rotation_reference R151). -/

namespace Sys2Proof.Machine

section
variable {K : Type} [Field K] [LinearOrder K] [FloorRing K]

/-! ## The reference at scaled coefficients (R212) -/

section
variable (K) (cq sq : Int) (w h row col : Nat)

/-- The reference's row coordinate is the scaled one over 256. -/
theorem refRow_scaled : refRow ((cq : K) / 256) ((sq : K) / 256) w h row col = (mapSource cq sq w h row col).sr / (256 : Nat) := by
  simp only [refRow, mapSource, Int.cast_sub, Int.cast_mul, Int.cast_natCast, Nat.cast_ofNat]
  ring

/-- The reference's column coordinate is the scaled one over 256. -/
theorem refCol_scaled : refCol ((cq : K) / 256) ((sq : K) / 256) w h row col = (mapSource cq sq w h row col).sc / (256 : Nat) := by
  simp only [refCol, mapSource, Int.cast_sub, Int.cast_add, Int.cast_mul, Int.cast_natCast, Nat.cast_ofNat]
  ring

variable [IsStrictOrderedRing K]

/-- The integer rows agree: the shift is the floor (R202). -/
theorem refIntRow_scaled :
    refIntRow ((cq : K) / 256) ((sq : K) / 256) w h row col = (mapSource cq sq w h row col).ir := by
  rw [refIntRow, refRow_scaled, Int.floor_div_natCast, Int.floor_intCast]
  rfl

/-- The integer columns agree. -/
theorem refIntCol_scaled :
    refIntCol ((cq : K) / 256) ((sq : K) / 256) w h row col = (mapSource cq sq w h row col).ic := by
  rw [refIntCol, refCol_scaled, Int.floor_div_natCast, Int.floor_intCast]
  rfl

/-- The fraction of a scaled coordinate over 256 is its low 8 bits over 256 (R203). -/
theorem fract_scaled (n : Int) : Int.fract ((n : K) / (256 : Nat)) = ((n % 256).toNat : K) / 256 := by
  rw [Int.fract_div_intCast_eq_div_intCast_mod, ← Int.cast_natCast (n % 256).toNat, Int.toNat_of_nonneg (by omega)]
  rfl

/-- The row fraction of the reference is the 8-bit one over 256 (R203). -/
theorem fract_refRow_scaled :
    Int.fract (refRow ((cq : K) / 256) ((sq : K) / 256) w h row col) = (mapSource cq sq w h row col).fr / 256 := by
  rw [refRow_scaled]
  exact fract_scaled K _

/-- The column fraction of the reference is the 8-bit one over 256 (R203). -/
theorem fract_refCol_scaled :
    Int.fract (refCol ((cq : K) / 256) ((sq : K) / 256) w h row col) = (mapSource cq sq w h row col).fc / 256 := by
  rw [refCol_scaled]
  exact fract_scaled K _

/-- The interior tests agree (R204). -/
theorem refTouches_scaled_iff :
    refTouches ((cq : K) / 256) ((sq : K) / 256) w h row col ↔ (mapSource cq sq w h row col).touched w h = true := by
  rw [refTouches, refIntRow_scaled, refIntCol_scaled]
  exact (decide_eq_true_iff).symm

end

variable [IsStrictOrderedRing K]

/-- At fractions of 8 bits the reference's truncated interpolation is the interpolator's (44_bilinear_interpolator R183). -/
theorem truncate_refInterpolate (s00 s01 s10 s11 : Byte) {fr fc : Nat} (hr : fr < 256) (hc : fc < 256) :
    truncate (refInterpolate ((fr : K) / 256) ((fc : K) / 256) (s00.toNat : K) (s01.toNat : K) (s10.toNat : K) (s11.toNat : K)) =
      (bilerpFX s00 s01 s10 s11 fr fc).toNat := by
  have hsum : refInterpolate ((fr : K) / 256) ((fc : K) / 256) (s00.toNat : K) (s01.toNat : K) (s10.toNat : K) (s11.toNat : K) =
      (bilinearAcc s00.toNat s01.toNat s10.toNat s11.toNat fr fc : K) / (65536 : Nat) := by
    rw [bilinearAcc_eq, refInterpolate, bilinearWeights]
    push_cast [hr.le, hc.le]
    ring
  have hfx := bilerpFX_toNat s00 s01 s10 s11 (BitVec.ofNatLT fr hr) (BitVec.ofNatLT fc hc)
  rw [BitVec.toNat_ofNatLT, BitVec.toNat_ofNatLT] at hfx
  rw [hsum, truncate, if_pos (by positivity), Int.floor_div_natCast, Int.floor_natCast, hfx, Int.natCast_ediv]

/-- The samples agree (R207). -/
theorem refSample_scaled (j : Job) (cq sq : Int) (row col ch : Nat) :
    refSample j ((cq : K) / 256) ((sq : K) / 256) row col ch = (j.rotResult cq sq row col ch).toNat := by
  rw [refSample, fract_refRow_scaled, fract_refCol_scaled, refIntRow_scaled, refIntCol_scaled]
  exact truncate_refInterpolate _ _ _ _ (Source.fr_lt _) (Source.fc_lt _)

/-- The reference's whole image at scaled coefficients: the samples of the touched pixels (R208). -/
theorem refImage_scaled (j : Job) (cq sq : Int) (prior : Nat → Nat → Nat → Int) (row col ch : Nat) :
    refImage j ((cq : K) / 256) ((sq : K) / 256) prior row col ch =
      if (mapSource cq sq j.w j.h row col).touched j.w j.h = true then ((j.rotResult cq sq row col ch).toNat : ℤ)
      else prior row col ch := by
  rw [refImage, refSample_scaled]
  exact if_congr (refTouches_scaled_iff K cq sq j.w j.h row col) rfl rfl

end

/-- Settles O33: touched pixels and samples agree, so the whole images do. -/
theorem rotfxEqualsReference : Obligations.RotfxEqualsReference := by
  refine ⟨fun j cq sq r c ch _ =>
      ⟨(refTouches_scaled_iff ℚ cq sq j.w j.h r c).symm, fun _ => (refSample_scaled j cq sq r c ch).symm⟩,
    fun j cq sq b prior r c ch hk _ => ?_⟩
  rw [refImage_scaled, Job.writes_rotfx hk, Job.newValue, hk]

/-! ## The coefficients (256, 0) (R210, 42 R151) -/

/-- With (256, 0) each pixel maps to itself, with fractions 0. -/
theorem mapSource_unit (w h row col : Nat) :
    (mapSource 256 0 w h row col).ir = row ∧ (mapSource 256 0 w h row col).fr = 0 ∧
      (mapSource 256 0 w h row col).ic = col ∧ (mapSource 256 0 w h row col).fc = 0 := by
  simp [mapSource, Source.ir, Source.fr, Source.ic, Source.fc]

/-- So the touched pixels are those off the last row and the last column. -/
theorem touched_unit_iff (w h row col : Nat) :
    (mapSource 256 0 w h row col).touched w h = true ↔ row + 2 ≤ h ∧ col + 2 ≤ w := by
  obtain ⟨hir, -, hic, -⟩ := mapSource_unit w h row col
  rw [Source.touched, decide_eq_true_iff, hir, hic]
  omega

/-- At fractions 0 the interpolator answers its first sample. -/
theorem bilerpFX_zero (s00 s01 s10 s11 : Byte) : bilerpFX s00 s01 s10 s11 0 0 = s00 := by
  simp [bilerpFX, bilinearAcc, bilinearWeights]

/-- So each pixel's value is its own input value. -/
theorem Job.rotResult_unit (j : Job) (r c ch : Nat) : j.rotResult 256 0 r c ch = j.input r c ch := by
  obtain ⟨hir, hfr, hic, hfc⟩ := mapSource_unit j.w j.h r c
  unfold Job.rotResult
  dsimp only
  rw [hir, hfr, hic, hfc, bilerpFX_zero, Int.toNat_natCast, Int.toNat_natCast]

/-- The touched pixels are the pixels of an image with a row and a column less. -/
theorem Job.length_writePixels_unit {j : Job} {b : Option Word} (hk : j.kernel = .rotfx 256 0 b) :
    j.writePixels.length = (j.h - 1) * (j.w - 1) := by
  have hpixels : j.writePixels.toFinset = Finset.range (j.h - 1) ×ˢ Finset.range (j.w - 1) := by
    ext ⟨r, c⟩
    rw [List.mem_toFinset, Job.mem_writePixels, Job.writes_rotfx hk, touched_unit_iff, Finset.mem_product, Finset.mem_range,
      Finset.mem_range]
    omega
  rw [← List.toFinset_card_of_nodup j.writePixels_nodup, hpixels, Finset.card_product, Finset.card_range, Finset.card_range]

/-! ## Images of one row or one column (42 R150) -/

/-- The reference touches no pixel of such an image. -/
theorem rotRef_of_small {j : Job} (h : j.h < 2 ∨ j.w < 2) (theta : ℝ) (prior : Nat → Nat → Nat → Int) :
    rotRef j theta prior = prior := by
  funext row col ch
  refine if_neg fun ⟨hrow, hrow', hcol, hcol'⟩ => ?_
  omega

/-- Settles O37: the clauses about RotRef follow from those about (256, 0), since the cosine and the sine of 0 are 256 / 256 and
0 / 256. -/
theorem angleZeroCopiesTheInterior : Obligations.AngleZeroCopiesTheInterior := by
  have hcos : Real.cos 0 = ((256 : ℤ) : ℝ) / 256 := by norm_num
  have hsin : Real.sin 0 = ((0 : ℤ) : ℝ) / 256 := by norm_num
  refine ⟨fun j r c ch _ => ⟨mapSource_unit .., touched_unit_iff .., fun _ _ => j.rotResult_unit r c ch⟩,
    fun j b hk _ _ => Job.length_writePixels_unit hk, fun j prior r c ch _ => ?_,
    fun j theta prior hsmall => rotRef_of_small hsmall theta prior⟩
  obtain ⟨hir, hfr, hic, hfc⟩ := mapSource_unit j.w j.h r c
  rw [rotRef, hcos, hsin, refIntRow_scaled, refIntCol_scaled, fract_refRow_scaled, fract_refCol_scaled, refImage_scaled,
    j.rotResult_unit, hfr, hfc]
  exact ⟨⟨hir, hic, by simp, by simp⟩, if_congr (touched_unit_iff ..) rfl rfl⟩

end Sys2Proof.Machine
end

section
/-! PROOFS. The run of ROTFX: each sample of a touched pixel is written on a bus that answers every access, each untouched pixel is
passed on any bus, and the command rotates the whole image (45_fixed_point_rotation R200, R206 to R209, R213). -/

namespace Sys2Proof.Machine

open Host

/-! ## A step of the rotation -/

section
variable {j : Job} {cq sq : Int} {b : Option Word} {p : Pos} (hk : j.kernel = .rotfx cq sq b) (hl : j.Legal)
  (hs : j.hasSample p.row p.col p.ch)
include hk hl hs

/-- The step of a ROTFX at a sample of the image. -/
theorem imageStep_rotfx (s : State) : imageStep j p s = .next (rotfxStep j cq sq p s) := by
  obtain ⟨hr, hc, hch⟩ := hs
  rw [imageStep, if_neg (not_not.mpr hl), if_neg (by omega), if_neg (by omega), hk]

/-- An untouched pixel is passed with no access to the bus (R206, R208). -/
theorem imageStep_untouched (hw : j.writes p.row p.col = false) (s : State) :
    imageStep j p s = .next { s with phase := .image j (p.nextPixel j) } := by
  rw [Job.writes_rotfx hk] at hw
  rw [imageStep_rotfx hk hl hs, rotfxStep]
  exact congrArg Outcome.next (if_neg (Bool.eq_false_iff.mp hw))

end

/-- Settles O36: the neighbours of a touched pixel are samples of the image, and the step at an untouched one makes no access. -/
theorem touchedPixelReadsInsideTheBuffer : Obligations.TouchedPixelReadsInsideTheBuffer := by
  refine ⟨fun j cq sq b r c ch hk hs a ha => ?_,
    fun s j cq sq b p hk hl hr hc hch hw => imageStep_untouched hk hl ⟨hr, hc, hch⟩ hw s⟩
  obtain ⟨r', c', hs', rfl⟩ := Job.exists_sample_of_mem_needs hk hs ha
  refine ⟨Job.inInput_inAddr hs', ?_⟩
  rw [Job.inAddr, Nat.add_sub_cancel_left]
  exact (Job.index_split (r := r') hs'.2.1 hs'.2.2).2.2

/-- The four neighbours of a touched pixel can be read where the bus answers every access of the command. -/
theorem Job.busOk.readNeighbours_eq {cfg : Config} {j : Job} {cq sq : Int} {b : Option Word} (hbus : j.busOk cfg)
    (hk : j.kernel = .rotfx cq sq b) {r c ch : Nat} (hs : (r, c, ch) ∈ j.writeSet) :
    ∃ q, readNeighbours cfg j (mapSource cq sq j.w j.h r c).ir.toNat (mapSource cq sq j.w j.h r c).ic.toNat ch = .ok q := by
  obtain ⟨hneeds, -⟩ := hbus r c ch hs
  simp only [Job.needs, hk, List.forall_mem_cons] at hneeds
  obtain ⟨h00, h01, h10, h11, -⟩ := hneeds
  simp only [readNeighbours, readSample, h00, h01, h10, h11]
  exact ⟨_, rfl⟩

/-- A sample of a touched pixel is written, and the sequencer moves on, where the bus answers every access of the command. -/
theorem Job.busOk.rotfxStep_eq {j : Job} {cq sq : Int} {b : Option Word} {p : Pos} {s : State} (hbus : j.busOk s.cfg)
    (hk : j.kernel = .rotfx cq sq b) (hs : j.hasSample p.row p.col p.ch) (hw : j.writes p.row p.col = true) :
    ∃ v, rotfxStep j cq sq p s = advance j p { s with mem := s.mem.write (j.outAddr p.row p.col p.ch) v } := by
  have hmem := Job.mem_writeSet.mpr ⟨hs, hw⟩
  obtain ⟨⟨s00, s01, s10, s11⟩, hread⟩ := hbus.readNeighbours_eq hk hmem
  rw [Job.writes_rotfx hk] at hw
  refine ⟨bilerpFX s00 s01 s10 s11 (mapSource cq sq j.w j.h p.row p.col).fr (mapSource cq sq j.w j.h p.row p.col).fc, ?_⟩
  simp only [rotfxStep, if_pos hw, hread, hbus.writeSample_eq hmem]

/-- The next pixel stands after each sample of this one. -/
theorem Pos.index_lt_nextPixel {p : Pos} {j : Job} (hs : j.hasSample p.row p.col p.ch) : p.index j < (p.nextPixel j).index j := by
  rw [Pos.index_nextPixel hs.2.1, Nat.add_one_mul]
  exact Nat.add_lt_add_left hs.2.2 _

/-- Every step of a ROTFX on a bus that answers passes a sample or an untouched pixel. -/
theorem stepPasses_rotfx {u s : State} {j : Job} {cq sq : Int} {b : Option Word} {p : Pos} (hk : j.kernel = .rotfx cq sq b)
    (hbus : j.busOk u.cfg) (h : RunFrom u j p s) (hrow : p.row < j.h) : s.stepPasses j p := by
  obtain ⟨-, hl, -, hb, -, -⟩ := h.inv.image h.phase
  have hs : j.hasSample p.row p.col p.ch := hb.resolve_right fun hend => by omega
  rw [← h.same.cfg_eq] at hbus
  rw [State.stepPasses, blockStep, h.phase]
  cases hw : j.writes p.row p.col with
  | true =>
    obtain ⟨v, hstep⟩ := hbus.rotfxStep_eq hk hs hw
    refine ⟨_, _, (imageStep_rotfx hk hl hs s).trans (congrArg _ hstep), advance_phase _ _ _, ?_, .advance hs s s.hist v⟩
    exact (Nat.lt_succ_self _).trans_eq (Pos.index_nextSample hs.2.1 hs.2.2).symm
  | false =>
    exact ⟨_, _, imageStep_untouched hk hl hs hw s, rfl, Pos.index_lt_nextPixel hs,
      .intro _ s.hist s.mem s.regs.wcount fun _ _ => rfl⟩

/-- A ROTFX that writes no pixel runs to its end on any bus, and changes nothing on its way. -/
theorem runBlock_of_no_writes {j : Job} {cq sq : Int} {b : Option Word} (hk : j.kernel = .rotfx cq sq b) (hl : j.Legal)
    (hw : ∀ r c, j.writes r c = false) (n : Nat) :
    ∀ s p, s.phase = .image j p → p.inBounds j → j.len < n + p.index j → runBlock n s = .next (s.endRun .ok 0) := by
  induction n with
  | zero =>
    intro s p _ hb hn
    have := hb.index_le
    omega
  | succ n ih =>
    intro s p hp hb hn
    rw [runBlock_succ (by simp [hp])]
    by_cases hrow : p.row < j.h
    · have hs : j.hasSample p.row p.col p.ch := hb.resolve_right fun hend => by omega
      have hlt := Pos.index_lt_nextPixel hs
      rw [blockStep, hp]
      dsimp only
      rw [imageStep_untouched hk hl hs (hw _ _)]
      exact ih _ _ rfl (Pos.nextPixel_inBounds hl hrow) (by omega)
    · rw [blockStep_end hl hp (Nat.not_lt.mp hrow)]
      exact runBlock_idle rfl n

/-! ## The start (60_exceptions R300, 43_trig_lut R165) -/

/-- The state in which an accepted ROTFX begins its run: at sample (0, 0, 0), with its coefficients in TRIG_Q. -/
def State.rotfxStart (s : State) : State :=
  { s with
    regs := { s.regs.started 2 with
      cosq := if s.regs.trigSrc then s.regs.cosq else BitVec.ofInt 16 s.coefficients.1
      sinq := if s.regs.trigSrc then s.regs.sinq else BitVec.ofInt 16 s.coefficients.2 }
    phase := .image s.rotfxJob { row := 0, col := 0, ch := 0, r0 := 0, r1 := 0 }
    watch := s.rotfxJob :: s.watch }

/-- ROTFX, once its checks pass and with no buffer on a device, begins its run with the coefficients of TRIG_Q or of the LUT, and
TRIG_Q then holds them. -/
theorem beginRotfx_of_checks {s : State} (hchecks : checkImage true s.regs = none) (hdev : s.rotfxJob.onDevice s.cfg = false) :
    beginRotfx s = .next { s with
      regs := { s.regs with
        cosq := if s.regs.trigSrc then s.regs.cosq else BitVec.ofInt 16 s.coefficients.1
        sinq := if s.regs.trigSrc then s.regs.sinq else BitVec.ofInt 16 s.coefficients.2 }
      phase := .image s.rotfxJob { row := 0, col := 0, ch := 0, r0 := 0, r1 := 0 }
      watch := s.rotfxJob :: s.watch } := by
  rw [Bool.eq_false_iff] at hdev
  unfold State.rotfxJob State.coefficients at hdev ⊢
  rw [beginRotfx, hchecks]
  by_cases ht : s.regs.trigSrc = true
  · simp only [if_pos ht] at hdev ⊢
    exact if_neg hdev
  · simp only [if_neg ht] at hdev ⊢
    exact if_neg hdev

section
variable {s : State} (hlegal : s.regs.imageLegal)
  (hq : s.regs.trigSrc = true → coefficientLegal s.regs.cq ∧ coefficientLegal s.regs.sq)
include hlegal hq

/-- The job of an accepted ROTFX is legal: the host's coefficients by their check, the LUT's always (43_trig_lut R162). -/
theorem State.rotfxJob_legal : s.rotfxJob.Legal := by
  refine Job.legal_of_checks (checkImage_of_imageLegal (rotation := true) hlegal fun _ => hq) (decide_eq_true ?_)
  unfold State.coefficients
  split
  · exact hq ‹_›
  · exact trigLUT_legal _ _

/-- An accepted ROTFX with no buffer on a device comes to its start. -/
theorem beginCommand_rotfx_accepted (hdev : s.rotfxJob.onDevice s.cfg = false) :
    beginCommand .rotfx { s with regs := s.regs.started Instr.rotfx.word } = .next s.rotfxStart :=
  beginRotfx_of_checks (s := { s with regs := s.regs.started Instr.rotfx.word }) (checkImage_of_imageLegal hlegal fun _ => hq) hdev

/-- An accepted ROTFX is its run from its start. -/
theorem exec_rotfx_accepted (hb : s.busy = false) (hdev : s.rotfxJob.onDevice s.cfg = false) :
    exec .rotfx s = runOn s.rotfxStart := by
  rw [exec_eq_issue, issue_idle hb, beginCommand_rotfx_accepted hlegal hq hdev]

end

/-! ## The whole image -/

/-- Settles O31: every step from the start on passes a sample or an untouched pixel, so the run comes to its end with every sample of
the write set written. -/
theorem rotfxRotatesTheImage : Obligations.RotfxRotatesTheImage := by
  intro s hb hm hlegal hq hdev hbus hund
  have hbegin := beginCommand_rotfx_accepted hlegal hq hdev
  have hinv := beginCommand_keeps_inv (State.inv_of_idle (s.phase_of_not_busy hb) hm) hb hbegin
  have hrun := beginCommand_runInv hb hbegin
  obtain ⟨q, t, hend, hrow, ht⟩ := runOn_completes hinv hrun rfl hund fun _ _ => stepPasses_rotfx rfl hbus
  obtain ⟨hwcount, hout⟩ := hend.at_end hrow
  refine ⟨freeHist s.draws, t.mem, s.draws + 1, ?_, hend.inv.1, fun r c ch hr hc hch => ?_, fun a ha => ?_⟩
  · rw [exec_rotfx_accepted hlegal hq hb hdev, ht, hend.endRun_eq, hwcount, ← s.phase_of_not_busy hb]
    rfl
  · exact hout r c ch ⟨hr, hc, hch⟩
  · exact hend.read_other (decide_eq_false ha)

/-- Settles O32: the mapping touches no pixel, since each touched one has its neighbours in the image. -/
theorem rotfxOfOneRowOrColumnWritesNothing : Obligations.RotfxOfOneRowOrColumnWritesNothing := by
  intro s hb hlegal hsmall hq hdev hund
  have hl := State.rotfxJob_legal hlegal hq
  have hw : ∀ r c, s.rotfxJob.writes r c = false := fun r c => by
    rw [Job.writes_rotfx rfl, Bool.eq_false_iff]
    intro ht
    have hin := Source.touched_bounds ht
    change _ < s.regs.h ∧ _ < s.regs.w at hin
    omega
  have hsteps := State.undisturbed.le_stepsBeforeNextMove (s := s.rotfxStart) (j := s.rotfxJob) hund rfl
  have hend : runOn s.rotfxStart = .next (s.rotfxStart.endRun .ok 0) :=
    runBlock_of_no_writes rfl hl hw _ _ _ rfl (.inl ⟨hl.h_pos, hl.w_pos, hl.c_pos⟩) (by omega)
  refine ⟨freeHist s.draws, s.draws + 1, ?_⟩
  rw [exec_rotfx_accepted hlegal hq hb hdev, hend, s.phase_of_not_busy hb]
  rfl

end Sys2Proof.Machine
end

section
/-! PROOFS. How a command starts and how a check ends it: the write to CMD that reaches it, the state its start leaves, and ROTFX's end
at each of its checks (60_exceptions R300 to R305, R311). -/

namespace Sys2Proof.Machine

/-! ## The write to CMD (60_exceptions R300, R301) -/

/-- Settles O5: the four bytes are the lanes of the word they make, and that word is written at CMD's address. -/
theorem stepRunsDecodedCommand : Obligations.StepRunsDecodedCommand := by
  intro s d b0 b1 b2 b3 i rest hi hdecode
  obtain rfl : decodeWord (wordOfBytes b0 b1 b2 b3) = i := by cases hdecode; rfl
  rw [← bytesOfWord_wordOfBytes] at hi
  rw [step_move hi]
  simp only [hostMove, windowOffset_regAddr, hostWrite_cmd]

/-- Settles O7: every command is the shared write to CMD, which only sets CMD_OVR in a busy block. -/
theorem commandWhileBusyOnlySetsOverrun : Obligations.CommandWhileBusyOnlySetsOverrun := by
  intro i s hb
  rw [exec_eq_issue, issue_busy hb]

/-! ## The start of a command -/

/-- Where the next host move lands at once, the start of a command is all that is seen of it (log 6). -/
theorem exec_at_once {i : Instr} {s t : State} {p : Pending} {rest : List Pending} (hb : s.busy = false)
    (hbegin : beginCommand i { s with regs := s.regs.started i.word } = .next t) (hi : t.inbox = p :: rest) (h0 : p.after = 0) :
    exec i s = .next t := by
  rw [exec_eq_issue, issue_idle hb, hbegin]
  exact runOn_at_once hi h0

/-- Settles O8: the unit commands check nothing, so their start is RUN. -/
theorem unitCommandIsSeenRunning : Obligations.UnitCommandIsSeenRunning := fun _ _ _ hb hi h0 =>
  ⟨exec_at_once (i := .trig) hb rfl hi h0, exec_at_once (i := .bilerp) hb rfl hi h0⟩

/-- Settles O9: an accepted image command comes to its start, at sample (0, 0, 0) with its job latched. -/
theorem imageCommandIsSeenRunning : Obligations.ImageCommandIsSeenRunning := by
  intro s p rest hb hi h0 hlegal
  refine ⟨fun hdev => exec_at_once (i := .sigma) hb ?_ hi h0, fun hdev hq => exec_at_once (i := .rotfx) hb ?_ hi h0⟩
  · exact beginSigma_accepted (s := { s with regs := s.regs.started Instr.sigma.word }) hlegal hdev
  · exact beginCommand_rotfx_accepted hlegal hq hdev

/-! ## ROTFX's checks (60_exceptions R305) -/

/-- The coefficients are checked after the dimensions, and only where the host gives them (R304). -/
theorem checkImage_trigRange {r : Regs} (hc : r.c = 1 ∨ r.c = 3) (hw : 0 < r.w) (hh : 0 < r.h) (ht : r.trigSrc = true)
    (hq : ¬ (coefficientLegal r.cq ∧ coefficientLegal r.sq)) : checkImage true r = some .trigRange := by
  rw [checkImage, if_neg (not_not.mpr hc), if_neg (by omega), if_pos ⟨rfl, ht, hq⟩]

/-- A check that fails ends ROTFX with its code (60_exceptions R311). -/
theorem exec_rotfx_endAtCheck {s : State} {code : ErrCode} (hb : s.busy = false) (h : checkImage true s.regs = some code) :
    exec .rotfx s = .next { s with regs := { s.regs with
      cmd := 2, done := true, err := code, wcount := 0, errInfo := 0 } } := by
  have hchecks : checkImage true (s.regs.started Instr.rotfx.word) = some code := h
  refine exec_endAtCheck (i := .rotfx) hb ?_
  rw [beginCommand, beginRotfx, hchecks]

/-- Settles O12: each clause names the first check that fails. -/
theorem rotfxChecksInOrder : Obligations.RotfxChecksInOrder := by
  intro s hb r bad ends
  have hcoefficients : ¬ bad → r.trigSrc = true → coefficientLegal r.cq ∧ coefficientLegal r.sq :=
    fun hq ht => not_not.mp fun h => hq ⟨ht, not_and_or.mp h⟩
  refine ⟨fun hc => ?_, fun hc hd => ?_, fun hc hw hh ⟨ht, hq⟩ => ?_, fun hc hw hh hq ha => ?_,
    fun hc hw hh hq hsrc hdst h1 h2 => ?_⟩ <;> refine exec_rotfx_endAtCheck hb ?_
  · exact checkImage_channels _ hc
  · exact checkImage_dim _ hc hd
  · exact checkImage_trigRange hc hw hh ht (not_and_or.mpr hq)
  · rw [checkImage_buffers hc hw hh (fun _ => hcoefficients hq), if_pos (by unfold wraps; omega)]
  · rw [checkImage_buffers hc hw hh (fun _ => hcoefficients hq), if_neg (by unfold wraps; omega), if_pos ⟨h1, h2⟩]

end Sys2Proof.Machine
end

section
/-! PROOFS. How a command's end is seen: the bits of the STATUS word, and the interrupt line (60_exceptions R306, R309, R320, R322). -/

namespace Sys2Proof.Machine

/-! ## The STATUS word (10_state R24) -/

/-- No error code is above 8 (60_exceptions R309). -/
theorem ErrCode.code_toNat_le (code : ErrCode) : code.code.toNat ≤ 8 := by
  cases code <;> decide

/-- The lower field of two side by side is added under the upper one. -/
theorem toNat_append_eq_add {n m : Nat} (x : BitVec n) (y : BitVec m) : (x ++ y).toNat = x.toNat * 2 ^ m + y.toNat := by
  rw [BitVec.toNat_append, ← Nat.shiftLeft_add_eq_or_of_lt y.isLt, Nat.shiftLeft_eq]

/-- The STATUS word as a number: the error code above bits 7:0, of which the lowest three are the flags. -/
theorem Regs.statusWord_toNat (r : Regs) (busy : Bool) :
    (r.statusWord busy).toNat = r.err.code.toNat * 256 + (r.cmdOvr.toNat * 4 + r.done.toNat * 2 + busy.toNat) := by
  have hreserved (n : Nat) : (0 : BitVec n).toNat = 0 := BitVec.toNat_zero
  simp only [Regs.statusWord, toNat_append_eq_add, BitVec.toNat_ofBool, hreserved]
  omega

/-- A bit of a word is its quotient by the bit's weight, modulo 2. -/
theorem getLsbD_of_toNat {w : Word} {i : Nat} {b : Bool} (h : w.toNat / 2 ^ i % 2 = b.toNat) : w.getLsbD i = b := by
  rw [BitVec.getLsbD, Nat.testBit_eq_decide_div_mod_eq, h]
  simp

/-- Settles O50: each flag is a bit of its own below the code, which stands above bits 7:0. -/
theorem statusWordBits : Obligations.StatusWordBits := by
  intro r busy
  have hnum := r.statusWord_toNat busy
  have hovr := r.cmdOvr.toNat_lt
  have hdone := r.done.toNat_lt
  have hbusy := busy.toNat_lt
  refine ⟨getLsbD_of_toNat ?_, getLsbD_of_toNat ?_, getLsbD_of_toNat ?_, ?_, ?_, r.err.code_toNat_le⟩ <;> omega

/-! ## The interrupt line (60_exceptions R320, R322) -/

/-- irq is high exactly where DONE and IRQ_EN are 1. -/
theorem State.irq_iff (s : State) : s.irq = true ↔ s.regs.done = true ∧ s.regs.irqEn = true :=
  Bool.and_eq_true_iff

/-- Looking at a high irq is an observation of DONE = 1 (20_memory R71, log 8). -/
theorem State.observed_if_irq (s : State) :
    (if s.irq then s.observed else s) =
      { s with watch := if s.regs.done = true ∧ s.regs.irqEn = true then [] else s.watch } := by
  by_cases h : s.irq = true
  · rw [if_pos h, if_pos (s.irq_iff.mp h), State.observed]
  · rw [if_neg h, if_neg (mt s.irq_iff.mpr h)]

/-- Settles O49: in an idle block the look at the line and the acknowledgement are all that a step does. -/
theorem interruptFollowsDoneAndEnable : Obligations.InterruptFollowsDoneAndEnable := by
  intro s d rest
  refine ⟨s.irq_iff, fun hb hi => ?_, fun hb hi => ?_⟩
  · rw [step_move hi, hostMove, State.observed_if_irq]
    exact runOn_idle (s.phase_of_not_busy hb)
  · refine ⟨{ s with inbox := rest, regs := { s.regs with done := false } }, ?_, rfl, rfl⟩
    rw [statusBitsClearByWritingOne s d 2 rest hi]
    exact runOn_idle (s.phase_of_not_busy hb)

end Sys2Proof.Machine
end

section
/-! PROOFS. Under the invariant no step faults: a running command always has a next step, and a move lands, begins a command, or is
refused (60_exceptions R317, 20_memory R71). -/

namespace Sys2Proof.Machine

/-! ## The block's run -/

/-- An image command in order has a next step (60_exceptions R305). -/
theorem imageStep_next {j : Job} {p : Pos} (hl : j.Legal) (hp : p.inBounds j) (s : State) : ∃ t, imageStep j p s = .next t := by
  unfold imageStep
  rw [if_neg (not_not.mpr hl)]
  rcases hp with ⟨hr, hc, hch⟩ | ⟨hr, -, -⟩
  · rw [if_neg (by omega), if_neg (by omega)]
    split <;> exact ⟨_, rfl⟩
  · exact ⟨_, if_pos hr.ge⟩

/-- Under the invariant the block has a next step, which keeps the invariant. -/
theorem State.Inv.blockStep_next {s : State} (h : s.Inv) : ∃ t, blockStep s = .next t ∧ t.Inv := by
  have hnext : ∃ t, blockStep s = .next t := by
    unfold blockStep
    split
    · exact ⟨_, rfl⟩
    · exact ⟨_, rfl⟩
    · exact ⟨_, rfl⟩
    · obtain ⟨-, hl, -, hb, -⟩ := h.image ‹_›
      exact imageStep_next hl hb s
  obtain ⟨t, ht⟩ := hnext
  exact ⟨t, ht, blockStep_keeps_inv h ht⟩

/-- Under the invariant the block runs up to the next host move. -/
theorem State.Inv.runOn_ne_fault {s : State} (h : s.Inv) (f : Fault) : runOn s ≠ .fault f := by
  obtain ⟨t, ht, -⟩ := runBlock_noFault State.Inv (fun _ => State.Inv.blockStep_next) s.stepsBeforeNextMove s h
  rw [runOn, ht]
  nofun

/-! ## The start of a command -/

/-- The start of an image command runs or is refused. -/
theorem startImage_ne_fault (k : Kernel) (s : State) (f : Fault) : startImage k s ≠ .fault f := by
  unfold startImage
  dsimp only
  split <;> nofun

/-- The start of a command ends at a check, runs, or is refused. -/
theorem beginCommand_ne_fault (i : Instr) (s : State) (f : Fault) : beginCommand i s ≠ .fault f := by
  cases i with
  | sigma =>
    rw [beginCommand, beginSigma]
    split
    · nofun
    · exact startImage_ne_fault _ _ f
  | rotfx =>
    rw [beginCommand, beginRotfx]
    split
    · nofun
    · split
      · exact startImage_ne_fault _ _ f
      · exact startImage_ne_fault _ _ f
  | trig => nofun
  | bilerp => nofun
  | reserved op rsvd => nofun

/-- Under the invariant a write to CMD does not fault. -/
theorem State.Inv.exec_ne_fault {s : State} (h : s.Inv) (i : Instr) (f : Fault) : exec i s ≠ .fault f := by
  rw [exec_eq_issue]
  cases hb : s.busy with
  | true =>
    rw [issue_busy hb]
    exact ((SameRun.cmdOvr s).inv h h.1).runOn_ne_fault f
  | false =>
    rw [issue_idle hb]
    split
    · exact (beginCommand_keeps_inv h hb ‹_›).runOn_ne_fault f
    · exact absurd ‹_› (beginCommand_ne_fault _ _ _)
    · nofun

/-! ## The host's move -/

/-- A write of the window that faults is a command that faults, or the block's run after it does. -/
theorem hostWrite_fault {off : BitVec 8} {data : List Byte} {u : State} {f : Fault} (h : hostWrite off data u = .fault f) :
    (∃ i, exec i u = .fault f) ∨ ∃ v, Lands u v ∧ runOn v = .fault f := by
  unfold hostWrite at h
  split at h
  · split at h
    · split at h
      · split at h
        · exact .inl ⟨_, h⟩
        · exact .inr ⟨_, .ignored, h⟩
      · exact .inr ⟨_, .regWrite _ _ ‹_›, h⟩
      · exact .inr ⟨_, .ignored, h⟩
    · exact .inr ⟨_, .ignored, h⟩
  · exact .inr ⟨_, .ignored, h⟩

/-- A host move that faults is a command that faults, or the block's run after it does. -/
theorem hostMove_fault {m : Move} {u : State} {f : Fault} (h : hostMove m u = .fault f) :
    (∃ i, exec i u = .fault f) ∨ ∃ v, Lands u v ∧ runOn v = .fault f := by
  unfold hostMove at h
  split at h
  · split at h
    · exact hostWrite_fault h
    · exact .inr ⟨_, .ignored, h⟩
  · split at h
    · exact .inr ⟨_, .regRead _ _, h⟩
    · exact .inr ⟨_, .ignored, h⟩
  · unfold hostMemWrite at h
    split at h
    · cases h
    · split at h
      · cases h
      · exact .inr ⟨_, .memWrite _ _ (Bool.eq_false_of_not_eq_true ‹_›), h⟩
  · split at h
    · cases h
    · exact .inr ⟨_, .memRead _, h⟩
  · exact .inr ⟨_, .senseIrq, h⟩
  · exact .inr ⟨_, .hardReset, h⟩

/-- Settles O57: neither a command nor the landing of a move, nor the run after either, faults under the invariant. -/
theorem noStepFaults : Obligations.NoStepFaults := by
  intro s hs f h
  unfold step nextMove at h
  split at h
  · exact hs.runOn_ne_fault f h
  · rename_i p rest _
    have hrest : ({ s with inbox := rest } : State).Inv := hs
    rcases hostMove_fault h with ⟨i, he⟩ | ⟨v, hl, hr⟩
    · exact hrest.exec_ne_fault i f he
    · exact (hl.keeps_inv hrest).runOn_ne_fault f hr

end Sys2Proof.Machine
end

section
/-! PROOFS. An image command that meets a bus error: its run cannot pass a sample with a failing access, so it ends with ERR_BUS, each
sample of its write set old or new (60_exceptions R312, R313, R316; 20_memory R79). -/

namespace Sys2Proof.Machine

/-! ## The accesses of a command -/

/-- The address is one the command accesses: a sample of the write set needs it as input, or is written to it. -/
def Job.accesses (j : Job) (a : Nat) : Prop :=
  ∃ r c ch, (r, c, ch) ∈ j.writeSet ∧ (a ∈ j.needs r c ch ∨ a = j.outAddr r c ch)

/-- The bus errors a command can meet are those of its accesses (60_exceptions R316). -/
theorem Job.mem_busFaults {j : Job} {cfg : Config} {e : RunError} :
    e ∈ j.busFaults cfg ↔ ∃ a, e = .bus a ∧ cfg.busErrAt a = true ∧ j.accesses a := by
  simp only [Job.busFaults, List.mem_map, List.mem_filter, List.mem_flatMap, List.mem_append, List.mem_singleton]
  constructor
  · rintro ⟨a, ⟨⟨⟨r, c, ch⟩, hs, ha⟩, hb⟩, rfl⟩
    exact ⟨a, rfl, hb, r, c, ch, hs, ha⟩
  · rintro ⟨a, rfl, hb, r, c, ch, hs, ha⟩
    exact ⟨a, ⟨⟨(r, c, ch), hs, ha⟩, hb⟩, rfl⟩

/-- A command with an access the bus does not answer has a sample with such an access. -/
theorem Job.exists_of_not_busOk {j : Job} {cfg : Config} (h : ¬ j.busOk cfg) :
    ∃ r c ch, (r, c, ch) ∈ j.writeSet ∧
      ((∃ a ∈ j.needs r c ch, cfg.busErrAt a = true) ∨ cfg.busErrAt (j.outAddr r c ch) = true) := by
  by_contra hno
  push Not at hno
  refine h fun r c ch hs => ?_
  obtain ⟨hneeds, hout⟩ := hno r c ch hs
  exact ⟨fun a ha => Bool.eq_false_iff.mpr (hneeds a ha), Bool.eq_false_iff.mpr hout⟩

/-- The needed addresses of a SIGMA's sample are those of samples of the image in its own channel (41_sigma_filter R129). -/
theorem Job.exists_sample_of_mem_needs_sigma {j : Job} {sigma k : Nat} (hk : j.kernel = .sigma sigma k) {r c ch a : Nat}
    (hs : j.hasSample r c ch) (ha : a ∈ j.needs r c ch) : ∃ r' c', j.hasSample r' c' ch ∧ a = j.inAddr r' c' ch := by
  obtain ⟨hr, hc, hch⟩ := hs
  rw [Job.needs, hk] at ha
  obtain ⟨⟨r', c'⟩, hq, rfl⟩ := List.mem_map.mp ha
  rw [Job.mem_window] at hq
  exact ⟨r', c', ⟨by omega, by omega, hch⟩, rfl⟩

/-- A command reads its input buffer and writes its output buffer (20_memory R63). -/
theorem Job.accesses.in_buffers {j : Job} {a : Nat} (h : j.accesses a) : j.inInput a = true ∨ j.inOutput a = true := by
  obtain ⟨r, c, ch, hs, hneeds | rfl⟩ := h
  · obtain ⟨r', c', hs', rfl⟩ : ∃ r' c', j.hasSample r' c' ch ∧ a = j.inAddr r' c' ch := by
      cases hk : j.kernel with
      | sigma sigma k => exact Job.exists_sample_of_mem_needs_sigma hk (Job.mem_writeSet.mp hs).1 hneeds
      | rotfx cq sq b => exact Job.exists_sample_of_mem_needs hk hs hneeds
    exact .inl (Job.inInput_inAddr hs')
  · exact .inr (Job.inOutput_outAddr (Job.mem_writeSet.mp hs).1)

/-! ## The end with a bus error (60_exceptions R312, R313) -/

/-- The error that is reported is one the command can meet where the one it met is. -/
theorem pickFault_mem_busFaults {j : Job} {cfg : Config} {met : RunError} (h : met ∈ j.busFaults cfg) (draw : Nat) :
    pickFault met (j.busFaults cfg) draw ∈ j.busFaults cfg := by
  rcases List.mem_cons.mp (pickFault_mem met (j.busFaults cfg) draw) with hmet | hother
  · rwa [hmet]
  · exact hother

/-- The state `t` in which a command that was in the state `u` has ended with ERR_BUS: it reports the address `a` of an access that
failed and counts some of its pixels, no byte outside its write set has changed, each sample is old or new, and old where it needed
the failed read. -/
structure EndsOnBus (u : State) (j : Job) (t : State) (a count : Nat) : Prop where
  fails : u.cfg.busErrAt a = true
  accesses : j.accesses a
  count_le : count ≤ j.writePixels.length
  eq : t = { u with
    phase := .idle, hist := t.hist, mem := t.mem, draws := t.draws
    regs := { u.regs with
      done := true, err := .bus, errInfo := BitVec.ofNat 32 a, wcount := BitVec.ofNat 32 count } }
  wf : t.mem.wf
  oldOrNew : j.leavesOldOrNew u.mem t.mem
  old : ∀ r c ch, (r, c, ch) ∈ j.writeSet → a ∈ j.needs r c ch → t.mem.read (j.outAddr r c ch) = u.mem.read (j.outAddr r c ch)

/-- A byte outside the write set stands all through a run. -/
theorem RunFrom.read_unwritten {u t : State} {j : Job} {p : Pos} (h : RunFrom u j p t) (hm0 : u.mem = j.mem0) {a : Nat}
    (ha : j.writesAddr a = false) : t.mem.read a = u.mem.read a := by
  cases hout : j.inOutput a with
  | false => exact h.read_other hout
  | true =>
    obtain ⟨hs, haddr⟩ := Job.sampleAt_hasSample hout
    have hw : j.writes (j.sampleAt a).1 (j.sampleAt a).2.1 = false := by simpa [Job.writesAddr, hout] using ha
    obtain ⟨hprog, -⟩ := h.run.image h.phase
    have hread := hprog.output _ _ _ hs
    rwa [Job.valueDuring, if_neg (by simp [hw]), haddr, ← hm0] at hread

/-- A run-time error that is reported as a bus error (60_exceptions R312, R313): the output is settled, WCOUNT is free within its
bound, and the block is idle. -/
theorem failRun_of_bus {j : Job} {met : RunError} {s : State} {a : Nat}
    (h : pickFault met (j.busFaults s.cfg) s.draws = .bus a) :
    failRun j met s = { s with
      phase := .idle
      hist := freeHist (s.draws + 2 + j.writeSet.length)
      mem := j.settle (j.needsFailed (.bus a)) (s.draws + 2) s.mem
      draws := s.draws + 2 + j.writeSet.length + 1
      regs := { s.regs with
        done := true, err := .bus, errInfo := BitVec.ofNat 32 a
        wcount := BitVec.ofNat 32 (Config.freeNat (s.draws + 1) % (j.writePixels.length + 1)) } } := by
  simp only [failRun, h]
  rfl

/-- A run whose next sample meets a bus error of the command ends with ERR_BUS. -/
theorem RunFrom.failRun_endsOnBus {u t : State} {j : Job} {p : Pos} {met : RunError} (h : RunFrom u j p t) (hm0 : u.mem = j.mem0)
    (hmet : met ∈ j.busFaults t.cfg) : ∃ a count, EndsOnBus u j (failRun j met t) a count := by
  obtain ⟨-, hl, -⟩ := h.inv.image h.phase
  obtain ⟨a, hpick, hb, ha⟩ := Job.mem_busFaults.mp (pickFault_mem_busFaults hmet t.draws)
  obtain ⟨hwf, hother, hsample⟩ := Job.settle_spec hl h.inv.1 (j.needsFailed (.bus a)) (t.draws + 2)
  have hcount := Nat.mod_lt (Config.freeNat (t.draws + 1)) (Nat.succ_pos j.writePixels.length)
  rw [failRun_of_bus hpick]
  refine ⟨a, _, h.same.cfg_eq ▸ hb, ha, Nat.le_of_lt_succ hcount, ?_, hwf, ⟨fun b hw => ?_, fun r c ch hs => ?_⟩,
    fun r c ch hs hneeds => ?_⟩
  · cases h.same
    rfl
  · exact (hother b hw).trans (h.read_unwritten hm0 hw)
  · exact (hsample r c ch hs).imp_right And.right
  · have hkeep : j.needsFailed (.bus a) (r, c, ch) = true := List.contains_iff_mem.mpr hneeds
    rw [hm0]
    exact (hsample r c ch hs).resolve_right (by simp [hkeep])

/-! ## The run up to a sample it cannot pass -/

/-- The command's next step ends it with a bus error it can meet, or passes at least a sample, but not the one at the index `i`. -/
def State.stepStops (s : State) (j : Job) (p : Pos) (i : Nat) : Prop :=
  (∃ e ∈ j.busFaults s.cfg, blockStep s = .next (failRun j e s)) ∨
    ∃ q t, blockStep s = .next t ∧ t.phase = .image j q ∧ (p.index j < q.index j ∧ q.index j ≤ i) ∧ SameBesidesOutput j s t

/-- A command none of whose steps passes the sample at the index `i` ends with ERR_BUS, in no more steps than samples up to it. -/
theorem runBlock_endsOnBus {u : State} {j : Job} {i : Nat} (hm0 : u.mem = j.mem0)
    (hstep : ∀ s p, RunFrom u j p s → p.index j ≤ i → s.stepStops j p i) (n : Nat) :
    ∀ s p, RunFrom u j p s → p.index j ≤ i → i < n + p.index j →
      ∃ t a count, runBlock n s = .next t ∧ EndsOnBus u j t a count := by
  induction n with
  | zero =>
    intro s p _ hle hlt
    omega
  | succ n ih =>
    intro s p h hle hn
    rw [runBlock_succ (by simp [h.phase])]
    rcases hstep s p h hle with ⟨e, he, ht⟩ | ⟨q, t, ht, hq, ⟨hlt, hqi⟩, hsame⟩ <;> rw [ht]
    · obtain ⟨a, count, hend⟩ := h.failRun_endsOnBus hm0 he
      exact ⟨_, a, count, runBlock_idle rfl n, hend⟩
    · exact ih t q ⟨blockStep_keeps_inv h.inv ht, blockStep_keeps_runInv h.inv h.run ht, hq, h.same.trans hsame⟩ hqi (by omega)

/-- An image command that nothing disturbs, and none of whose steps passes some sample of the image, ends with ERR_BUS. -/
theorem exec_endsOnBus {i : Instr} {s u : State} {j : Job} {p : Pos} {r c ch : Nat} (hb : s.busy = false) (hm : s.mem.wf)
    (hbegin : beginCommand i { s with regs := s.regs.started i.word } = .next u) (hp : u.phase = .image j p)
    (hm0 : u.mem = j.mem0) (hu : u.undisturbed (j.len + 1)) (hs : j.hasSample r c ch) (hle : p.index j ≤ j.index r c ch)
    (hstep : ∀ v q, RunFrom u j q v → q.index j ≤ j.index r c ch → v.stepStops j q (j.index r c ch)) :
    ∃ t a count, exec i s = .next t ∧ EndsOnBus u j t a count := by
  have hinv := beginCommand_keeps_inv (State.inv_of_idle (s.phase_of_not_busy hb) hm) hb hbegin
  have hstart : RunFrom u j p u := ⟨hinv, beginCommand_runInv hb hbegin, hp, SameBesidesOutput.refl j u⟩
  have hsteps := hu.le_stepsBeforeNextMove hp
  have hi := Job.index_lt_len hs
  rw [exec_eq_issue, issue_idle hb, hbegin]
  exact runBlock_endsOnBus hm0 hstep _ u p hstart hle (by omega)

/-- A position up to a sample of the image is one of the image. -/
theorem Pos.inBounds.hasSample {p : Pos} {j : Job} {r c ch : Nat} (h : p.inBounds j) (hs : j.hasSample r c ch)
    (hle : p.index j ≤ j.index r c ch) : j.hasSample p.row p.col p.ch := by
  refine h.resolve_right fun ⟨hrow, hcol, hch⟩ => ?_
  have hlt := Job.index_lt_len hs
  have hend : p.index j = j.len := by
    unfold Pos.index Job.index Job.len
    rw [hrow, hcol, hch, Nat.mul_comm j.h]
    rfl
  omega

/-! ## SIGMA -/

/-- SIGMA reads every sample of the image, each at least for its own window, and writes it (41_sigma_filter R129, R130). -/
theorem Job.accesses_sigma {j : Job} {sigma k : Nat} (hk : j.kernel = .sigma sigma k) {r c ch : Nat} (hs : j.hasSample r c ch) :
    j.accesses (j.inAddr r c ch) ∧ j.accesses (j.outAddr r c ch) := by
  have hmem : (r, c, ch) ∈ j.writeSet := Job.mem_writeSet.mpr ⟨hs, Job.writes_sigma hk r c⟩
  refine ⟨⟨r, c, ch, hmem, .inl ?_⟩, r, c, ch, hmem, .inr rfl⟩
  rw [Job.needs, hk]
  exact List.mem_map.mpr ⟨(r, c), Job.self_mem_window k hs.1 hs.2.1, rfl⟩

/-- A write that fails reports its own address. -/
theorem writeSample_error {cfg : Config} {j : Job} {r c ch : Nat} {v : Byte} {m : Memory} {e : RunError}
    (h : writeSample cfg j r c ch v m = .error e) : e = .bus (j.outAddr r c ch) ∧ cfg.busErrAt (j.outAddr r c ch) = true := by
  unfold writeSample at h
  split at h <;> cases h
  exact ⟨rfl, ‹_›⟩

/-- A sample of SIGMA from a window in order meets a bus error of the command, or the bus answers the sample's own read and write and
the sequencer moves on. -/
theorem sigmaStep_stops_or_passes {j : Job} {sigma k : Nat} {p : Pos} {s : State} (hl : j.Legal) (hk : j.kernel = .sigma sigma k)
    (hs : j.hasSample p.row p.col p.ch) (hwin : s.windowInOrder j p) :
    (∃ e ∈ j.busFaults s.cfg, sigmaStep j sigma k p s = failRun j e s) ∨
      s.cfg.busErrAt (j.inAddr p.row p.col p.ch) = false ∧ s.cfg.busErrAt (j.outAddr p.row p.col p.ch) = false ∧
        ∃ hist v, sigmaStep j sigma k p s =
          advance j { p with r0 := (j.band k p.row).1, r1 := (j.band k p.row).2 }
            { s with hist := hist, mem := s.mem.write (j.outAddr p.row p.col p.ch) v } := by
  replace hwin := (State.windowInOrder_sigma hk).mp hwin
  obtain ⟨hin, hout⟩ := Job.accesses_sigma hk hs
  unfold sigmaStep
  rcases prepareWindow_cases (cfg := s.cfg) hl hs.2.1 hwin with ⟨hist, hprep, -⟩ | ⟨a, herr⟩
  · rw [hprep]
    dsimp only
    split
    next hread =>
      obtain ⟨rfl, hb⟩ := readSample_error hread
      exact .inl ⟨_, Job.mem_busFaults.mpr ⟨_, rfl, hb, hin⟩, rfl⟩
    next hread =>
      split
      next hwrite =>
        obtain ⟨rfl, hb⟩ := writeSample_error hwrite
        exact .inl ⟨_, Job.mem_busFaults.mpr ⟨_, rfl, hb, hout⟩, rfl⟩
      next hwrite =>
        obtain ⟨hbw, rfl⟩ := writeSample_ok hwrite
        exact .inr ⟨(readSample_ok hread).1, hbw, hist, _, rfl⟩
  · obtain ⟨r, c, ch, hs', rfl, hb⟩ := prepareWindow_error_bus hs.1 hs.2.1 (fun h => (hwin (.inr h)).1) herr
    rw [herr]
    exact .inl ⟨_, Job.mem_busFaults.mpr ⟨_, rfl, hb, (Job.accesses_sigma hk hs').1⟩, rfl⟩

/-- A SIGMA does not pass a sample whose own read or write the bus answers with an error. -/
theorem stepStops_sigma {u s : State} {j : Job} {sigma k : Nat} {p : Pos} {r c ch : Nat} (hk : j.kernel = .sigma sigma k)
    (hs : j.hasSample r c ch)
    (hb : u.cfg.busErrAt (j.inAddr r c ch) = true ∨ u.cfg.busErrAt (j.outAddr r c ch) = true)
    (h : RunFrom u j p s) (hle : p.index j ≤ j.index r c ch) : s.stepStops j p (j.index r c ch) := by
  obtain ⟨-, hl, -, hbounds, -⟩ := h.inv.image h.phase
  obtain ⟨-, hwin⟩ := h.run.image h.phase
  have hp := hbounds.hasSample hs hle
  rw [State.stepStops, blockStep_sigma hl hk h.phase hp]
  rcases sigmaStep_stops_or_passes hl hk hp hwin with ⟨e, he, hstep⟩ | ⟨hin, hout, hist, v, hstep⟩ <;> rw [hstep]
  · exact .inl ⟨e, he, rfl⟩
  · have hne : p.index j ≠ j.index r c ch := fun heq => by
      obtain ⟨hrow, hcol, hch⟩ := Job.index_inj hp hs heq
      rw [h.same.cfg_eq, hrow, hcol, hch] at hin hout
      simp [hin, hout] at hb
    have hnext := Pos.index_nextSample (p := { p with r0 := (j.band k p.row).1, r1 := (j.band k p.row).2 }) hp.2.1 hp.2.2
    change _ = p.index j + 1 at hnext
    exact .inr ⟨_, _, rfl, advance_phase _ _ _, by omega, SameBesidesOutput.advance hp s hist v⟩

/-- A SIGMA with an access the bus does not answer has a sample whose own read or write it does not answer. -/
theorem exists_blocked_sample_sigma {j : Job} {cfg : Config} {sigma k : Nat} (hk : j.kernel = .sigma sigma k) (h : ¬ j.busOk cfg) :
    ∃ r c ch, j.hasSample r c ch ∧ (cfg.busErrAt (j.inAddr r c ch) = true ∨ cfg.busErrAt (j.outAddr r c ch) = true) := by
  obtain ⟨r, c, ch, hs, ⟨a, ha, hb⟩ | hb⟩ := Job.exists_of_not_busOk h
  · obtain ⟨r', c', hs', rfl⟩ := Job.exists_sample_of_mem_needs_sigma hk (Job.mem_writeSet.mp hs).1 ha
    exact ⟨r', c', ch, hs', .inl hb⟩
  · exact ⟨r, c, ch, (Job.mem_writeSet.mp hs).1, .inr hb⟩

/-- Settles O38: the run stops at the latest at a sample whose own read or write fails. -/
theorem sigmaBusErrorEndsTheCommand : Obligations.SigmaBusErrorEndsTheCommand := by
  intro s hb hm hlegal hdev hbus hund
  have hbegin := beginSigma_accepted (s := { s with regs := s.regs.started Instr.sigma.word }) hlegal hdev
  obtain ⟨r, c, ch, hs, hblocked⟩ := exists_blocked_sample_sigma rfl hbus
  obtain ⟨t, a, count, hexec, hend⟩ := exec_endsOnBus (i := .sigma) hb hm hbegin rfl rfl hund hs
    (by simp [Pos.index, Job.index]) fun _ _ => stepStops_sigma rfl hs hblocked
  refine ⟨a, count, t.hist, t.mem, t.draws, hend.fails, hend.accesses, hend.accesses.in_buffers, hend.count_le, ?_, hend.wf,
    hend.oldOrNew, hend.old⟩
  rw [s.phase_of_not_busy hb]
  exact hexec.trans (congrArg _ hend.eq)

/-! ## ROTFX -/

/-- The addresses of the four neighbours in one channel (45_fixed_point_rotation R200). -/
def Job.neighbours (j : Job) (ir ic ch : Nat) : List Nat :=
  [j.inAddr ir ic ch, j.inAddr ir (ic + 1) ch, j.inAddr (ir + 1) ic ch, j.inAddr (ir + 1) (ic + 1) ch]

/-- A sample of ROTFX needs the neighbours of its pixel's source (45_fixed_point_rotation R207). -/
theorem Job.needs_rotfx {j : Job} {cq sq : Int} {b : Option Word} (hk : j.kernel = .rotfx cq sq b) (r c ch : Nat) :
    j.needs r c ch =
      j.neighbours (mapSource cq sq j.w j.h r c).ir.toNat (mapSource cq sq j.w j.h r c).ic.toNat ch := by
  rw [Job.needs, hk]
  rfl

/-- A read of the neighbours that fails reports the address of one of them. -/
theorem readNeighbours_error {cfg : Config} {j : Job} {ir ic ch : Nat} {e : RunError}
    (h : readNeighbours cfg j ir ic ch = .error e) :
    ∃ a ∈ j.neighbours ir ic ch, e = .bus a ∧ cfg.busErrAt a = true := by
  unfold readNeighbours at h
  split at h <;> cases h <;> refine ⟨_, ?_, readSample_error ‹_›⟩ <;> simp [Job.neighbours]

/-- A read of the neighbours that succeeds is answered by the bus at each of them. -/
theorem readNeighbours_busOk {cfg : Config} {j : Job} {ir ic ch : Nat} {q : Byte × Byte × Byte × Byte}
    (h : readNeighbours cfg j ir ic ch = .ok q) : ∀ a ∈ j.neighbours ir ic ch, cfg.busErrAt a = false := by
  unfold readNeighbours at h
  split at h
  next h00 h01 h10 h11 =>
    simp [Job.neighbours, (readSample_ok h00).1, (readSample_ok h01).1, (readSample_ok h10).1, (readSample_ok h11).1]
  all_goals cases h

/-- A sample of a touched pixel meets a bus error of the command, or the bus answers all its accesses and the sequencer moves on. -/
theorem rotfxStep_stops_or_passes {j : Job} {cq sq : Int} {b : Option Word} {p : Pos} {s : State}
    (hk : j.kernel = .rotfx cq sq b) (hs : (p.row, p.col, p.ch) ∈ j.writeSet) :
    (∃ e ∈ j.busFaults s.cfg, rotfxStep j cq sq p s = failRun j e s) ∨
      (∀ a ∈ j.needs p.row p.col p.ch, s.cfg.busErrAt a = false) ∧ s.cfg.busErrAt (j.outAddr p.row p.col p.ch) = false ∧
        ∃ v, rotfxStep j cq sq p s = advance j p { s with mem := s.mem.write (j.outAddr p.row p.col p.ch) v } := by
  obtain ⟨-, hw⟩ := Job.mem_writeSet.mp hs
  rw [Job.writes_rotfx hk] at hw
  have haccess : ∀ a, (a ∈ j.needs p.row p.col p.ch ∨ a = j.outAddr p.row p.col p.ch) → j.accesses a :=
    fun a ha => ⟨_, _, _, hs, ha⟩
  rw [Job.needs_rotfx hk] at haccess ⊢
  unfold rotfxStep
  rw [if_pos hw]
  split
  next hread =>
    obtain ⟨a, ha, rfl, hb⟩ := readNeighbours_error hread
    exact .inl ⟨_, Job.mem_busFaults.mpr ⟨a, rfl, hb, haccess a (.inl ha)⟩, rfl⟩
  next hread =>
    split
    next hwrite =>
      obtain ⟨rfl, hb⟩ := writeSample_error hwrite
      exact .inl ⟨_, Job.mem_busFaults.mpr ⟨_, rfl, hb, haccess _ (.inr rfl)⟩, rfl⟩
    next hwrite =>
      obtain ⟨hbw, rfl⟩ := writeSample_ok hwrite
      exact .inr ⟨readNeighbours_busOk hread, hbw, _, rfl⟩

/-- The samples from a position to the next pixel's first are those of its own pixel. -/
theorem Pos.same_pixel_of_index_lt {p : Pos} {j : Job} {r c ch : Nat} (hp : j.hasSample p.row p.col p.ch)
    (hs : j.hasSample r c ch) (hle : p.index j ≤ j.index r c ch) (hlt : j.index r c ch < (p.nextPixel j).index j) :
    p.row = r ∧ p.col = c := by
  obtain ⟨-, hcol, hch⟩ := hp
  obtain ⟨-, hc, hch'⟩ := hs
  rw [Pos.index_nextPixel hcol] at hlt
  unfold Pos.index Job.index at hle
  unfold Job.index at hlt
  refine pixel_inj hcol hc (Nat.le_antisymm ?_ ?_) <;>
    refine Nat.lt_add_one_iff.mp (Nat.lt_of_mul_lt_mul_right (a := j.c) ?_)
  · rw [Nat.add_one_mul]
    omega
  · omega

/-- A ROTFX does not pass a sample of its write set with an access the bus answers with an error. -/
theorem stepStops_rotfx {u s : State} {j : Job} {cq sq : Int} {b : Option Word} {p : Pos} {r c ch : Nat}
    (hk : j.kernel = .rotfx cq sq b) (hs : (r, c, ch) ∈ j.writeSet)
    (hb : (∃ a ∈ j.needs r c ch, u.cfg.busErrAt a = true) ∨ u.cfg.busErrAt (j.outAddr r c ch) = true)
    (h : RunFrom u j p s) (hle : p.index j ≤ j.index r c ch) : s.stepStops j p (j.index r c ch) := by
  obtain ⟨-, hl, -, hbounds, -⟩ := h.inv.image h.phase
  obtain ⟨hsample, hw⟩ := Job.mem_writeSet.mp hs
  have hp := hbounds.hasSample hsample hle
  rw [State.stepStops, blockStep, h.phase]
  cases hwp : j.writes p.row p.col with
  | true =>
    rw [← h.same.cfg_eq] at hb
    simp only [imageStep_rotfx hk hl hp]
    rcases rotfxStep_stops_or_passes (s := s) hk (Job.mem_writeSet.mpr ⟨hp, hwp⟩) with
      ⟨e, he, hstep⟩ | ⟨hneeds, hout, v, hstep⟩ <;> rw [hstep]
    · exact .inl ⟨e, he, rfl⟩
    · have hne : p.index j ≠ j.index r c ch := fun heq => by
        obtain ⟨hrow, hcol, hch⟩ := Job.index_inj hp hsample heq
        rw [hrow, hcol, hch] at hneeds hout
        rcases hb with ⟨a, ha, hb⟩ | hb
        · simp [hneeds a ha] at hb
        · simp [hout] at hb
      have hnext := Pos.index_nextSample (p := p) hp.2.1 hp.2.2
      exact .inr ⟨_, _, rfl, advance_phase _ _ _, by omega, SameBesidesOutput.advance hp s s.hist v⟩
  | false =>
    have hnext : (p.nextPixel j).index j ≤ j.index r c ch := Nat.le_of_not_lt fun hlt => by
      obtain ⟨hrow, hcol⟩ := Pos.same_pixel_of_index_lt hp hsample hle hlt
      rw [hrow, hcol, hw] at hwp
      cases hwp
    exact .inr ⟨_, _, imageStep_untouched hk hl hp hwp s, rfl, ⟨Pos.index_lt_nextPixel hp, hnext⟩,
      .intro _ s.hist s.mem s.regs.wcount fun _ _ => rfl⟩

/-- Settles O39: the run stops at the latest at a sample of the write set with a failing access; TRIG_Q is as the start left it. -/
theorem rotfxBusErrorEndsTheCommand : Obligations.RotfxBusErrorEndsTheCommand := by
  intro s hb hm hlegal hq hdev hbus hund
  obtain ⟨r, c, ch, hs, hblocked⟩ := Job.exists_of_not_busOk hbus
  obtain ⟨t, a, count, hexec, hend⟩ := exec_endsOnBus hb hm (beginCommand_rotfx_accepted hlegal hq hdev) rfl rfl hund
    (Job.mem_writeSet.mp hs).1 (by simp [Pos.index, Job.index]) fun _ _ => stepStops_rotfx rfl hs hblocked
  refine ⟨a, count, t.hist, t.mem, t.draws, hend.fails, hend.accesses, hend.accesses.in_buffers, hend.count_le, ?_, hend.wf,
    hend.oldOrNew, hend.old⟩
  rw [s.phase_of_not_busy hb]
  exact hexec.trans (congrArg _ hend.eq)

end Sys2Proof.Machine
end

section
/-! PROOFS. Reset from every state, and the state after it: what the registers read, the invariants, memory after an aborted command
(70_reset_and_hazards R400 to R403). -/

namespace Sys2Proof.Machine

/-! ## The reset state (70_reset_and_hazards R400, R401) -/

/-- Settles O54: the reset state is idle, and no byte of its memory is listed. -/
theorem resetMeetsInvariant : Obligations.ResetMeetsInvariant := fun _ =>
  ⟨State.inv_of_idle rfl Memory.wf_nil, State.runInv_of_idle rfl⟩

/-- Only a register's own offset reaches it (10_state R20). -/
theorem Reg.offset_of_atOffset {off : BitVec 8} {reg : Reg} (h : Reg.atOffset off = some reg) : off = reg.offset := by
  refine BitVec.eq_of_toNat_eq ?_
  unfold Reg.atOffset at h
  split at h <;> cases h <;> assumption

/-- The word each register holds after reset (R401). -/
theorem Reg.value_reset (reg : Reg) :
    Reg.value Regs.reset false reg =
      if reg.offset = 0x00 then 0x53460007 else if reg.offset = 0x1C then 0x00000001
        else if reg.offset = 0x20 then 0x00010000 else if reg.offset = 0x28 then 0x00000100 else 0 := by
  cases reg <;> decide

/-- Settles O41: an offset is a register's, which reads its reset value, or it is reserved and reads 0. -/
theorem resetValuesRead : Obligations.ResetValuesRead := by
  intro cfg off _
  refine ⟨rfl, ?_⟩
  cases hreg : Reg.atOffset off with
  | some reg =>
    obtain rfl := Reg.offset_of_atOffset hreg
    rw [hostRead_offset, hostReadReg_of_not_racing (State.racingWord_idle rfl reg)]
    exact congrArg bytesOfWord (Reg.value_reset reg)
  | none =>
    have hne : ∀ reg : Reg, off ≠ reg.offset := by
      rintro reg rfl
      rw [Reg.atOffset_offset] at hreg
      cases hreg
    have hid : off ≠ 0x00 := hne .id
    have hchannels : off ≠ 0x1C := hne .channels
    have hsigmaCfg : off ≠ 0x20 := hne .sigmaCfg
    have htrigQ : off ≠ 0x28 := hne .trigQ
    rw [hostRead_undefined (.inr (.inr hreg)), if_neg hid, if_neg hchannels, if_neg hsigmaCfg, if_neg htrigQ]
    rfl

/-! ## A reset of the block (70_reset_and_hazards R400 to R403) -/

/-- A reset changes the registers, the phase, the histogram store, memory and the counter of the free values alone. -/
theorem resetBlock_eq (s : State) :
    resetBlock s = { s with
      regs := Regs.reset, phase := .idle, hist := (resetBlock s).hist, mem := (resetBlock s).mem
      draws := (resetBlock s).draws } := by
  unfold resetBlock abortRun
  cases s.phase <;> rfl

/-- A reset of a block that runs no image command leaves memory as it is (log 1). -/
theorem resetBlock_mem_of_not_image {s : State} (h : ∀ j p, s.phase ≠ .image j p) : (resetBlock s).mem = s.mem := by
  change (abortRun s).mem = s.mem
  unfold abortRun
  split
  · exact absurd ‹_› (h _ _)
  · rfl

/-- A reset leaves each sample an image command writes old or new, and every other byte as it is (R403). -/
theorem State.Inv.resetBlock_leavesOldOrNew {s : State} {j : Job} {p : Pos} (h : s.Inv) (hp : s.phase = .image j p) :
    j.leavesOldOrNew s.mem (resetBlock s).mem := by
  obtain ⟨-, hl, -⟩ := h.image hp
  obtain ⟨-, hother, hsample⟩ := Job.settle_spec hl h.1 (fun _ => false) s.draws
  change j.leavesOldOrNew s.mem (abortRun s).mem
  unfold abortRun
  rw [hp]
  exact ⟨hother, fun r c ch hs => (hsample r c ch hs).imp_right And.right⟩

/-- A step whose next move is the reset input, or a write to CTRL with bit 0 set, resets the block, which then waits (R400, R402). -/
theorem step_reset {s : State} {d : Nat} {m : Move} {rest : List Pending} (hi : s.inbox = { after := d, move := m } :: rest)
    (hm : m = .hardReset ∨ ∃ w : Word, w.getLsbD 0 = true ∧ m = .write (regAddr s.cfg .ctrl) (bytesOfWord w)) :
    step s = .next (resetBlock { s with inbox := rest }) := by
  rw [← runOn_idle (resetBlock_phase { s with inbox := rest })]
  rcases hm with rfl | ⟨w, hw, rfl⟩
  · exact step_move hi
  · rw [step_regWrite (by decide) hi, hostWriteReg_softReset hw]

/-- Settles O40: either move is the block's reset, and memory after it is settled by the phase it met. -/
theorem resetFromEveryState : Obligations.ResetFromEveryState := by
  intro s d m rest hs hi hm
  have hs' : ({ s with inbox := rest } : State).Inv := hs
  exact ⟨_, _, _, (step_reset hi hm).trans (congrArg _ (resetBlock_eq _)), hs'.resetBlock_mem_wf,
    fun h => resetBlock_mem_of_not_image h, fun _ _ h => hs'.resetBlock_leavesOldOrNew h⟩

end Sys2Proof.Machine
end

section
/-! PROOFS. The reads of TRIG_Q that race with a command (70_reset_and_hazards R418), and the end every command comes to (R420). -/

namespace Sys2Proof.Machine

/-! ## The races on TRIG_Q -/

/-- A ROTFX that has written TRIG_Q races for the value before it (70_reset_and_hazards R418). -/
theorem State.racingWord_rotfx {s : State} {j : Job} {p : Pos} {cq sq : Int} {before : Word} (hp : s.phase = .image j p)
    (hk : j.kernel = .rotfx cq sq (some before)) : s.racingWord .trigQ = some before := by
  rw [State.racingWord, hp]
  dsimp only
  rw [if_pos rfl, Job.trigQBefore, hk]

/-- A TRIG races for the word it writes (log 14). -/
theorem State.racingWord_trig {s : State} (hp : s.phase = .trig) : s.racingWord .trigQ = some (trigStep s).regs.trigQ := by
  rw [State.racingWord, hp]
  exact if_pos rfl

/-- Settles O51: each command races with the read for its own other word. -/
theorem trigQReadDuringRotation : Obligations.TrigQReadDuringRotation := by
  refine ⟨fun s j p cq sq before hp hk => ?_, fun s hp => ?_⟩
  · obtain ⟨v, hv, hread⟩ := hostReadReg_of_racing (State.racingWord_rotfx hp hk)
    rw [hread]
    exact ⟨rfl, hv⟩
  · obtain ⟨v, hv, hread⟩ := hostReadReg_of_racing (State.racingWord_trig hp)
    rw [hread]
    exact ⟨rfl, hv.symm⟩

/-! ## Every command ends -/

/-- A bound on the steps a phase has left: one for each sample from the sequencer on, and one for the end. -/
def Phase.stepsToEnd : Phase → Nat
  | .idle => 0
  | .trig => 1
  | .bilerp => 1
  | .image j p => j.len + 1 - p.index j

/-- With no move pending the block runs for at least the steps it has left (log 6). -/
theorem State.stepsToEnd_le_stepsLeft (s : State) : s.phase.stepsToEnd ≤ s.stepsLeft := by
  unfold State.stepsLeft
  cases s.phase with
  | image j p => exact Nat.sub_le _ _
  | _ => exact Nat.le_refl _

/-- A step of an image command ends it, normally or with a run-time error, or passes at least a sample. -/
theorem imageStep_ends_or_passes {j : Job} {p : Pos} {s t : State} (h : imageStep j p s = .next t) :
    t.phase = .idle ∨ ∃ q, t.phase = .image j q ∧ p.index j < q.index j := by
  obtain ⟨-, ⟨-, rfl⟩ | ⟨hr, hc, hch, ⟨sigma, k, -, rfl⟩ | ⟨cq, sq, -, -, rfl⟩⟩⟩ := imageStep_cases h
  · exact .inl rfl
  · rcases sigmaStep_cases j sigma k p s with ⟨e, he⟩ | ⟨hist, q, v, mem, hprep, -, -, he⟩ <;> rw [he]
    · exact .inl rfl
    · obtain ⟨er, ec, ech⟩ := prepareWindow_place hprep
      have hq : q.index j = p.index j := by unfold Pos.index; rw [er, ec, ech]
      exact .inr ⟨_, advance_phase _ _ _, by rw [Pos.index_nextSample (ec ▸ hc) (ech ▸ hch), hq]; exact Nat.lt_succ_self _⟩
  · rcases rotfxStep_cases j cq sq p s with ⟨-, he⟩ | ⟨-, ⟨e, he⟩ | ⟨_, _, _, _, mem, -, -, he⟩⟩ <;> rw [he]
    · exact .inr ⟨_, rfl, Pos.index_lt_nextPixel ⟨hr, hc, hch⟩⟩
    · exact .inl rfl
    · exact .inr ⟨_, advance_phase _ _ _, by rw [Pos.index_nextSample hc hch]; exact Nat.lt_succ_self _⟩

/-- Each step of a running block leaves fewer steps to its end. -/
theorem State.Inv.blockStep_stepsToEnd_lt {s t : State} (hs : s.Inv) (hp : s.phase ≠ .idle) (h : blockStep s = .next t) :
    t.phase.stepsToEnd < s.phase.stepsToEnd := by
  rcases blockStep_cases h with ⟨hidle, -⟩ | ⟨hp, rfl⟩ | ⟨hp, rfl⟩ | ⟨j, p, hp, hi⟩
  · exact absurd hidle hp
  · rw [hp]; exact Nat.zero_lt_one
  · rw [hp]; exact Nat.zero_lt_one
  · obtain ⟨-, -, -, hb, -⟩ := hs.image hp
    have hle := hb.index_le
    rw [hp]
    rcases imageStep_ends_or_passes hi with ht | ⟨q, ht, hlt⟩ <;> rw [ht] <;> simp only [Phase.stepsToEnd] <;> omega

/-- A block that may take as many steps as it has left comes to IDLE (70_reset_and_hazards R420). -/
theorem State.Inv.runBlock_ends (n : Nat) :
    ∀ {s : State}, s.Inv → s.phase.stepsToEnd ≤ n → ∃ t, runBlock n s = .next t ∧ t.phase = .idle := by
  induction n with
  | zero =>
    intro s hs hn
    obtain ⟨t, ht, -⟩ := hs.blockStep_next
    refine ⟨s, rfl, by_contra fun hp => ?_⟩
    have := hs.blockStep_stepsToEnd_lt hp ht
    omega
  | succ n ih =>
    intro s hs hn
    by_cases hp : s.phase = .idle
    · exact ⟨s, runBlock_idle hp _, hp⟩
    · obtain ⟨t, ht, hinv⟩ := hs.blockStep_next
      rw [runBlock_succ hp, ht]
      exact ih hinv (Nat.le_of_lt_succ (Nat.lt_of_lt_of_le (hs.blockStep_stepsToEnd_lt hp ht) hn))

/-- A step with no move pending is the block's run over the steps it has left (log 6). -/
theorem step_of_no_move {s : State} (h : s.inbox = []) : step s = runBlock s.stepsLeft s := by
  rw [step, nextMove, h]
  dsimp only
  rw [runOn, State.stepsBeforeNextMove, h]

/-- Settles O58: a step with nothing pending takes all the steps the block has left, and an idle block has none. -/
theorem commandsEnd : Obligations.CommandsEnd := by
  intro s hs hi
  rw [step_of_no_move hi]
  exact ⟨hs.runBlock_ends _ s.stepsToEnd_le_stepsLeft, fun hb => runBlock_idle (s.phase_of_not_busy hb) _⟩

end Sys2Proof.Machine
end
